-- ==== Sys2Proof/Word.lean ====
section
/-! DEFINITION. The widths of `bit_accumulator` (00_scope.md R5, R11): all values are unsigned. -/

namespace Sys2Proof

/-- `Byte`: an unsigned 8-bit value (00_scope.md R11). -/
abbrev Byte := BitVec 8

/-- A symbol code: `CODE_W = 5` bits (00_scope.md R5). -/
abbrev Code := BitVec 5

/-- A command word: 16 bits (30_encoding.md R80). -/
abbrev CmdWord := BitVec 16

end Sys2Proof
end

