-- ==== Sys2Proof/Syntax.lean ====
section
/-! DEFINITION. The instructions: one constructor per row of spec/opcode_table.json.
The seventeen commands of the command port (30_encoding.md R84) and the four tokens of the compressed
stream (30_encoding.md R71 to R74). -/

namespace Sys2Proof

/-- The accumulator an ACC.* command acts on (30_encoding.md R82): sel = 0 is WACC, sel = 1 is RACC. -/
inductive Sel where
  | wacc
  | racc
  deriving DecidableEq, Repr

/-- The instructions of the opcode table. -/
inductive Instr where
  /-- ACC.PUSH (40_accumulator.md R102): push the bit `imm8[0]`. -/
  | accPush (sel : Sel) (bit : Bool)
  /-- ACC.ISFULL (R103). -/
  | accIsFull (sel : Sel)
  /-- ACC.CLEAR (R104). -/
  | accClear (sel : Sel)
  /-- WR.WRITE5 (41_writer.md R125); the operand is `imm8[4:0]`, `imm8[7:5]` are ignored (30_encoding.md R83). -/
  | wrWrite5 (value : Code)
  /-- WR.WRITE8 (R126). -/
  | wrWrite8 (value : Byte)
  /-- WR.FLUSH (R127). -/
  | wrFlush
  /-- RD.READ5 (42_reader.md R150). -/
  | rdRead5
  /-- RD.READ8 (R151). -/
  | rdRead8
  /-- TBL.ENCODE (43_symbol_table.md R175). -/
  | tblEncode (byte : Byte)
  /-- TBL.DECODE (R176): the code is the whole of imm8, 0..255. -/
  | tblDecode (code : Byte)
  /-- C.BEGIN (44_pipeline.md R190). -/
  | cBegin
  /-- C.STEP (R191). -/
  | cStep
  /-- C.PASS (R192). -/
  | cPass
  /-- D.BEGIN (R200). -/
  | dBegin
  /-- D.STEP (R201). -/
  | dStep
  /-- D.PASS (R205). -/
  | dPass
  /-- CTL.IDLE (R210). -/
  | ctlIdle
  /-- STREAM.VERSION (30_encoding.md R71): the version token, at stream bits 0..4 only. -/
  | streamVersion
  /-- STREAM.SYM (R72): a symbol token of code 0..30. -/
  | streamSym (c : Code)
  /-- STREAM.ESC (R73): an escape token with its literal byte. -/
  | streamEsc (l : Byte)
  /-- STREAM.PADESC (R74): the writer's padding escape at the end of a stream. -/
  | streamPadEsc
  deriving DecidableEq, Repr

end Sys2Proof
end

