-- ==== Sys2Proof/WellFormed.lean ====
section
/-! DEFINITION. Which instructions the encodings admit. The operand types already bound every operand by
its field's width; what is left is that a symbol token is never `11111` (30_encoding.md R72). -/

namespace Sys2Proof

/-- The encodings of spec/ admit this instruction. The one operand value that no encoding gives is the
code 31 in a symbol token (30_encoding.md R72: `c != 11111`). -/
def wellFormed (i : Instr) : Bool :=
  match i with
  | .accPush _ _ => true
  | .accIsFull _ => true
  | .accClear _ => true
  | .wrWrite5 _ => true
  | .wrWrite8 _ => true
  | .wrFlush => true
  | .rdRead5 => true
  | .rdRead8 => true
  | .tblEncode _ => true
  | .tblDecode _ => true
  | .cBegin => true
  | .cStep => true
  | .cPass => true
  | .dBegin => true
  | .dStep => true
  | .dPass => true
  | .ctlIdle => true
  | .streamVersion => true
  | .streamSym c => c != 31#5
  | .streamEsc _ => true
  | .streamPadEsc => true

end Sys2Proof
end

