-- ==== Sys2Proof/Decode.lean ====
section
/-! DEFINITION. The two encodings of 30_encoding.md: the command word (Part B) and the token of the compressed
stream (Part A), each read by a total decoder that rejects by name, and after it the encoder. -/

namespace Sys2Proof

/-! ### Constants and bit strings -/

/-- `ESC = 31`, the escape sentinel (00_scope.md R6). -/
def ESC : Code := 31#5

/-- `VERSION = 1`, the format version (00_scope.md R6, 92_eei_decisions.md D32). -/
def VERSION : Code := 1#5

/-- The low `n` bits of `v`, most significant first (00_scope.md R11 "MSB-first", 20_memory.md R53). -/
def msbBits {w : Nat} : (n : Nat) → BitVec w → List Bool
  | 0, _ => []
  | n + 1, v => v.getLsbD n :: msbBits n v

/-- The number a bit string stands for, most significant bit first. -/
def natOfBits (bs : List Bool) : Nat :=
  bs.foldl (fun acc b => 2 * acc + b.toNat) 0

/-- The `n`-bit value a bit string stands for, most significant bit first. -/
def ofMsbBits (n : Nat) (bs : List Bool) : BitVec n :=
  BitVec.ofNat n (natOfBits bs)

/-! ### Why an encoding is rejected -/

/-- Why the decoder rejects. A rejected command word is an illegal command (30_encoding.md R85). -/
inductive Illegal where
  /-- op is 0x00 or 0x12..0x1F (R85). -/
  | reservedOpcode
  /-- rsv is not 0 (R85). -/
  | reservedBits
  /-- sel is 1 in a command other than ACC.* (R85). -/
  | selNotZero
  /-- bits of imm8 that must be 0 are not (R85). -/
  | immNotZero
  /-- fewer than 5 bits are left where a token should begin. -/
  | truncatedToken
  /-- the first 5 bits of the stream are not VERSION (R71). -/
  | wrongVersion
  /-- an escape code with neither a whole literal nor the writer's pad after it (R73, R74). -/
  | truncatedLiteral
  /-- the bit string goes on after the one token it should hold. -/
  | trailingBits
  deriving DecidableEq, Repr

/-! ### The command word (Part B) -/

/-- The field sel, bit 10 (R81, R82). -/
def selField (w : CmdWord) : Sel := if w.getLsbD 10 then .racc else .wacc

/-- The field imm8, bits 7:0 (R81, R83). -/
def imm8Field (w : CmdWord) : Byte := w.extractLsb' 0 8

/-- The field op, bits 15:11 (R81). -/
def opField (w : CmdWord) : BitVec 5 := w.extractLsb' 11 5

/-- The field rsv, bits 9:8 (R81). -/
def rsvField (w : CmdWord) : BitVec 2 := w.extractLsb' 8 2

/-- One row of the opcode map (R84): a word selects it when `word & mask = pattern`. -/
structure Row where
  pattern : CmdWord
  mask : CmdWord
  build : CmdWord → Instr

/-- The word selects the row (R84). -/
def Row.selects (r : Row) (w : CmdWord) : Bool := w &&& r.mask == r.pattern

/-- The opcode map of R84, in table order, with the operand assembly of R83. -/
def commandRows : List Row :=
  [ ⟨0x0800#16, 0xFBFE#16, fun w => .accPush (selField w) ((imm8Field w).getLsbD 0)⟩,
    ⟨0x1000#16, 0xFBFF#16, fun w => .accIsFull (selField w)⟩,
    ⟨0x1800#16, 0xFBFF#16, fun w => .accClear (selField w)⟩,
    ⟨0x2000#16, 0xFF00#16, fun w => .wrWrite5 ((imm8Field w).setWidth 5)⟩,
    ⟨0x2800#16, 0xFF00#16, fun w => .wrWrite8 (imm8Field w)⟩,
    ⟨0x3000#16, 0xFFFF#16, fun _ => .wrFlush⟩,
    ⟨0x3800#16, 0xFFFF#16, fun _ => .rdRead5⟩,
    ⟨0x4000#16, 0xFFFF#16, fun _ => .rdRead8⟩,
    ⟨0x4800#16, 0xFF00#16, fun w => .tblEncode (imm8Field w)⟩,
    ⟨0x5000#16, 0xFF00#16, fun w => .tblDecode (imm8Field w)⟩,
    ⟨0x5800#16, 0xFFFF#16, fun _ => .cBegin⟩,
    ⟨0x6000#16, 0xFFFF#16, fun _ => .cStep⟩,
    ⟨0x6800#16, 0xFFFF#16, fun _ => .cPass⟩,
    ⟨0x7000#16, 0xFFFF#16, fun _ => .dBegin⟩,
    ⟨0x7800#16, 0xFFFF#16, fun _ => .dStep⟩,
    ⟨0x8000#16, 0xFFFF#16, fun _ => .dPass⟩,
    ⟨0x8800#16, 0xFFFF#16, fun _ => .ctlIdle⟩ ]

/-- The name of the reason a word that selects no row is illegal for (R85). -/
def illegalReason (w : CmdWord) : Illegal :=
  if opField w = 0#5 ∨ 0x12 ≤ (opField w).toNat then .reservedOpcode
  else if rsvField w ≠ 0#2 then .reservedBits
  else if selField w = .racc ∧ 4 ≤ (opField w).toNat then .selNotZero
  else .immNotZero

/-- R86: the first row the word selects, or Illegal. -/
def decodeWord (w : CmdWord) : Except Illegal Instr :=
  match commandRows.find? (fun r => r.selects w) with
  | some r => .ok (r.build w)
  | none => .error (illegalReason w)

/-! ### The token of the compressed stream (Part A) -/

/-- The next `n` bits of a bit string as a value, and the bits after them; none where there are fewer. -/
def takeBits (n : Nat) (bs : List Bool) : Option (BitVec n × List Bool) :=
  if bs.length < n then none else some (ofMsbBits n (bs.take n), bs.drop n)

/-- What may stand between a padding escape and the end of the stream: `3 - k` zero bits, k in 1..3
(R74, 44_pipeline.md R203). -/
def isPadTail (bs : List Bool) : Bool := bs.length ≤ 2 && bs.all (· == false)

/-- The token a bit string begins with, and the bits after it (R70 to R74, R78). `atStart` says whether the
string begins at stream bit 0, the one place where the version token stands (R78). The string is the whole
rest of the stream, so that an escape with no literal after it is told from an escape token (R74). -/
def decodeToken (atStart : Bool) (bs : List Bool) : Except Illegal (Instr × List Bool) :=
  match takeBits 5 bs with
  | none => .error .truncatedToken
  | some (v, rest) =>
    if atStart then
      if v = VERSION then .ok (.streamVersion, rest) else .error .wrongVersion
    else if v = ESC then
      match takeBits 8 rest with
      | some (l, rest') => .ok (.streamEsc l, rest')
      | none => if isPadTail rest then .ok (.streamPadEsc, []) else .error .truncatedLiteral
    else .ok (.streamSym v, rest)

/-! ### One decoder for both encodings, and the encoder -/

/-- An encoded instruction: a command word on the command port, or the bits of one token of the stream. -/
inductive Encoded where
  | command (w : CmdWord)
  | token (atStart : Bool) (bits : List Bool)
  deriving DecidableEq, Repr

/-- The instruction an encoding stands for: exactly one command word, or exactly one token. -/
def decode (e : Encoded) : Except Illegal Instr :=
  match e with
  | .command w => decodeWord w
  | .token atStart bs =>
    match decodeToken atStart bs with
    | .ok (i, []) => .ok i
    | .ok (_, _ :: _) => .error .trailingBits
    | .error r => .error r

/-- The bit of the field sel (R82). -/
def selBit (sel : Sel) : BitVec 1 :=
  match sel with
  | .wacc => 0#1
  | .racc => 1#1

/-- A command word laid out as R81 says: op, sel, rsv = 0, imm8. -/
def commandWord (op : BitVec 5) (sel : BitVec 1) (imm8 : Byte) : CmdWord :=
  op ++ sel ++ 0#2 ++ imm8

/-- The encoding of an instruction (R71 to R74, R81 to R84). The ignored bits of WR.WRITE5 are 0 (R87). -/
def encode (i : Instr) : Encoded :=
  match i with
  | .accPush sel bit => .command (commandWord 0x01#5 (selBit sel) (BitVec.setWidth 8 (BitVec.ofBool bit)))
  | .accIsFull sel => .command (commandWord 0x02#5 (selBit sel) 0#8)
  | .accClear sel => .command (commandWord 0x03#5 (selBit sel) 0#8)
  | .wrWrite5 value => .command (commandWord 0x04#5 0#1 (value.setWidth 8))
  | .wrWrite8 value => .command (commandWord 0x05#5 0#1 value)
  | .wrFlush => .command (commandWord 0x06#5 0#1 0#8)
  | .rdRead5 => .command (commandWord 0x07#5 0#1 0#8)
  | .rdRead8 => .command (commandWord 0x08#5 0#1 0#8)
  | .tblEncode byte => .command (commandWord 0x09#5 0#1 byte)
  | .tblDecode code => .command (commandWord 0x0A#5 0#1 code)
  | .cBegin => .command (commandWord 0x0B#5 0#1 0#8)
  | .cStep => .command (commandWord 0x0C#5 0#1 0#8)
  | .cPass => .command (commandWord 0x0D#5 0#1 0#8)
  | .dBegin => .command (commandWord 0x0E#5 0#1 0#8)
  | .dStep => .command (commandWord 0x0F#5 0#1 0#8)
  | .dPass => .command (commandWord 0x10#5 0#1 0#8)
  | .ctlIdle => .command (commandWord 0x11#5 0#1 0#8)
  | .streamVersion => .token true (msbBits 5 VERSION)
  | .streamSym c => .token false (msbBits 5 c)
  | .streamEsc l => .token false (msbBits 5 ESC ++ msbBits 8 l)
  | .streamPadEsc => .token false (msbBits 5 ESC)

/-! ### The opcode table's numbering -/

/-- The instruction of a table word of at most one byte: a 5-bit token, its bits numbered from the least
significant. The value 1 is the version token, the token of stream bits 0..4; every other value is the token
it stands for later in the stream. -/
def decodeShortTableWord (w : Nat) : Option Instr :=
  match decode (.token true (msbBits 5 (BitVec.ofNat 5 w))) with
  | .ok i => some i
  | .error _ => (decode (.token false (msbBits 5 (BitVec.ofNat 5 w)))).toOption

/-- The instruction of a table word of two bytes: a command word, or the 13-bit escape token. No command word
has both rsv bits set, and every escape token's word has, so the two are never mixed up. -/
def decodeLongTableWord (w : Nat) : Option Instr :=
  match decode (.command (BitVec.ofNat 16 w)) with
  | .ok i => some i
  | .error _ => (decode (.token false (msbBits 13 (BitVec.ofNat 13 w)))).toOption

/-- The instruction this decoder reads from an instruction whose bits are `w`, numbered as
spec/opcode_table.json numbers them, `nbits` being the row's width in whole bytes. A token has 5 or 13 bits;
the bits above them, up to the whole byte, are no bits of it. -/
def decodeTableWord (nbits w : Nat) : Option Instr :=
  if nbits ≤ 8 then decodeShortTableWord w else decodeLongTableWord w

end Sys2Proof
end

