-- ==== Sys2Proof/Config.lean ====
section
/-! DEFINITION. What an instance of the block fixes (00_scope.md R7 to R9): the three parameters the spec leaves
OPEN, and the free value the alphabet has at reset. -/

namespace Sys2Proof

/-- `P_READER_MODE` (00_scope.md R8). -/
inductive ReaderMode where
  | retain
  | discard
  deriving DecidableEq, Repr

/-- `P_TERMINAL_ESCAPE` (00_scope.md R9). -/
inductive TerminalEscape where
  | acceptPad
  | strict
  deriving DecidableEq, Repr

/-- The parameters of an instance. They are fixed: no command and no reset changes them (10_state.md R28, R34). -/
structure Params where
  /-- `P_ALPHABET`, which is the contents of the REV ROM (00_scope.md R7, 10_state.md R26). -/
  alphabet : Vector Byte 31
  readerMode : ReaderMode
  terminalEscape : TerminalEscape
  deriving DecidableEq, Repr

/-- Constraints (a) and (b) of 00_scope.md R7: the entries differ, and each is below 0x80. Constraint (c) is the
source's hint, which a model may leave open (R7). -/
def alphabetOk (a : Vector Byte 31) : Bool :=
  a.toList.all (fun b => decide (b.toNat < 0x80)) && decide a.toList.Nodup

/-- FREE VALUE (log 2): 31 bytes nothing is known of. -/
opaque Config.alphabetDraw : Vector (BitVec 8) 31

/-- A list of 31 bytes that meets R7, used only to keep `Config.alphabet` within R7 whatever
`Config.alphabetDraw` is (log 2). -/
def Config.alphabetFallback : Vector Byte 31 :=
  Vector.ofFn (fun c => BitVec.ofNat 8 (0x5F + c.val))

/-- The alphabet at reset: FREE VALUE within the constraints of R7 (log 2). Nothing but `alphabetOk` can be
proved of it. -/
def Config.alphabet : Vector Byte 31 :=
  if alphabetOk Config.alphabetDraw then Config.alphabetDraw else Config.alphabetFallback

/-- The parameters at reset: the alphabet of R7, and the defaults of R8 and R9 (log 3). -/
def Config.params : Params :=
  { alphabet := Config.alphabet, readerMode := .retain, terminalEscape := .acceptPad }

end Sys2Proof
end

