-- ==== Sys2Proof/Machine/State.lean ====
section
/-! DEFINITION. Everything the spec gives the block (10_state.md), the host's side that a step reads and writes
(60_exceptions.md R243, log 1), the ways a step stops, and the state after reset (10_state.md R35). -/

namespace Sys2Proof.Machine

/-! ### The block's registers -/

/-- A bit accumulator (10_state.md R21, R22): an 8-bit shift register and a counter of valid bits, 0..8. -/
structure BitAcc where
  bits : BitVec 8
  count : Fin 9
  deriving DecidableEq, Repr

/-- PHASE (10_state.md R29). The values 5..7 are never written and are left out by type (log 10). -/
inductive Phase where
  | idle
  | compress
  | decompress
  | done
  | error
  deriving DecidableEq, Repr

/-- ERR (10_state.md R30). -/
structure Err where
  code : BitVec 3
  iodir : BitVec 1
  info : BitVec 8
  deriving DecidableEq, Repr

/-- RESP.status (10_state.md R32). -/
inductive RespStatus where
  | ok
  | none
  | eos
  | error
  deriving DecidableEq, Repr

/-- RESP (10_state.md R32). -/
structure Resp where
  status : RespStatus
  value : BitVec 8
  deriving DecidableEq, Repr

/-! ### The host's side (log 1) -/

/-- What the host drives on the source port when it answers a pull (70_reset_and_hazards.md R263): src_kind
and src_data. -/
structure SrcReply where
  kind : BitVec 2
  data : BitVec 8
  deriving DecidableEq, Repr

/-- What the host drives on the sink port when it answers a push (R263): snk_fail. -/
structure SnkReply where
  fail : Bool
  deriving DecidableEq, Repr

/-- What a `SrcPull()` returns (00_scope.md R13, 20_memory.md R51). -/
inductive SrcAnswer where
  | byte (b : Byte)
  | endOfStream
  | ioFail
  deriving DecidableEq, Repr

/-- One pull or push with its answer. -/
inductive IoEvent where
  | pull (a : SrcAnswer)
  | push (b : Byte) (accepted : Bool)
  deriving DecidableEq, Repr

/-- What the host does on the command port and the reset line (60_exceptions.md R243). -/
inductive HostEvent where
  /-- It offers a command word and waits for the response. -/
  | command (w : CmdWord)
  /-- It asserts reset between commands. -/
  | reset
  /-- It offers a command word, and asserts reset once `answered` of the command's pulls and pushes have been
  answered, or after the last of them if there are no more, before the response (70_reset_and_hazards.md R260). -/
  | commandCutByReset (w : CmdWord) (answered : Nat)
  deriving DecidableEq, Repr

/-- The answers a host will give on one port: those of the list first, then `after` for ever, or no answer at all
where `after` is none (60_exceptions.md R243). -/
structure Answers (α : Type) where
  queued : List α
  after : Option α
  deriving DecidableEq, Repr

/-- The host as the block meets it. -/
structure HostSide where
  /-- What it will do on the command port and the reset line, in order. -/
  events : List HostEvent
  /-- What it will answer to pulls. -/
  src : Answers SrcReply
  /-- What it will answer to pushes. -/
  snk : Answers SnkReply
  /-- `some n`: it asserts reset when the running command asks for a pull or push after n more were answered. -/
  resetAfter : Option Nat
  /-- The pulls and pushes done, oldest first. -/
  trace : List IoEvent
  /-- The responses returned, oldest first. -/
  resps : List Resp
  deriving DecidableEq, Repr

/-! ### The state -/

/-- The machine: the block's registers, its fixed parameters (the ROM contents among them), and the host's side. -/
structure State where
  /-- WACC (10_state.md R21). -/
  wacc : BitAcc
  /-- RACC (R22). -/
  racc : BitAcc
  /-- PHASE (R29). -/
  phase : Phase
  /-- ERR (R30). -/
  err : Err
  /-- RESP (R32). -/
  resp : Resp
  /-- P_ALPHABET (the ROMs, R25 to R28), P_READER_MODE, P_TERMINAL_ESCAPE (00_scope.md R7 to R9). -/
  params : Params
  /-- The host's side (60_exceptions.md R243). -/
  host : HostSide
  deriving DecidableEq, Repr

/-- Why the machine stops inside a command. The spec's treatment of both is "stuck" (93_implementation_defined.md
I12): the command does not end, and the block takes no other. -/
inductive Fault where
  /-- Raised by a pull or a push that the host never answers (60_exceptions.md R243). Safe: the model says nothing of
  a run in which the hardware waits for ever. -/
  | hostSilent
  /-- Raised by C.PASS and D.PASS where no answer ever ends the pass (70_reset_and_hazards.md R271). Safe: the
  hardware runs for ever and returns no response. -/
  | passNeverEnds
  deriving DecidableEq, Repr

/-- Why the model has no meaning for an instruction. -/
inductive Refusal where
  /-- Raised by an arm of `exec` whose instruction has no meaning yet. Safe. -/
  | notModelled (mnemonic : String)
  deriving DecidableEq, Repr

/-! ### Empty registers and reset -/

/-- The empty accumulator: bits = 0, count = 0 (00_scope.md R12, 92_eei_decisions.md D12). -/
def BitAcc.empty : BitAcc := ⟨0#8, 0⟩

/-- ERR with no error recorded (60_exceptions.md R230, code 0). -/
def Err.clear : Err := ⟨0#3, 0#1, 0#8⟩

/-- RESP at reset (10_state.md R35): OK, 0. -/
def Resp.initial : Resp := ⟨.ok, 0#8⟩

/-- The answer End: src_kind = 1 (70_reset_and_hazards.md R263). -/
def SrcReply.endReply : SrcReply := ⟨1#2, 0#8⟩

/-- The answer Ok: snk_fail = 0 (R263). -/
def SnkReply.okReply : SnkReply := ⟨false⟩

/-- A host that offers no command, whose source is at its end and whose sink accepts everything: the launch premise
of 92_eei_decisions.md D15 with no byte in the source (log 1). -/
def HostSide.quiet : HostSide :=
  { events := []
    src := ⟨[], some SrcReply.endReply⟩
    snk := ⟨[], some SnkReply.okReply⟩
    resetAfter := none
    trace := []
    resps := [] }

/-- The machine right after reset (10_state.md R35, 70_reset_and_hazards.md R260, R261). -/
def State.reset : State :=
  { wacc := BitAcc.empty
    racc := BitAcc.empty
    phase := .idle
    err := Err.clear
    resp := Resp.initial
    params := Config.params
    host := HostSide.quiet }

/-! ### Updates -/

/-- `s` with WACC written. -/
def State.setWacc (s : State) (a : BitAcc) : State := { s with wacc := a }

/-- `s` with RACC written. -/
def State.setRacc (s : State) (a : BitAcc) : State := { s with racc := a }

/-- `s` with PHASE written. -/
def State.setPhase (s : State) (p : Phase) : State := { s with phase := p }

/-- `s` with ERR written. -/
def State.setErr (s : State) (e : Err) : State := { s with err := e }

/-- `s` with RESP written. -/
def State.setResp (s : State) (r : Resp) : State := { s with resp := r }

/-- `s` with the host's side replaced. -/
def State.setHost (s : State) (h : HostSide) : State := { s with host := h }

end Sys2Proof.Machine
end

