-- ==== Sys2Proof/Machine/Flags.lean ====
section
/-! DEFINITION. The one flag of the block, the numbers of its named registers' values, and the words it drives on
its outputs (10_state.md R24, R29, R31, R32). -/

namespace Sys2Proof.Machine

/-- `full(A)` (10_state.md R24): computed from the count. -/
def fullFlag (a : BitAcc) : Bool := a.count.val == 8

/-- The number of a phase (R29). -/
def phaseCode (p : Phase) : BitVec 3 :=
  match p with
  | .idle => 0#3
  | .compress => 1#3
  | .decompress => 2#3
  | .done => 3#3
  | .error => 4#3

/-- The number of a response status (R32); also the output `resp_status` (70_reset_and_hazards.md R263). -/
def respStatusCode (r : RespStatus) : BitVec 2 :=
  match r with
  | .ok => 0#2
  | .none => 1#2
  | .eos => 2#2
  | .error => 3#2

/-- STATUS, the 16-bit word on the status output (R31): ERR.info, ERR.iodir, ERR.code, 0, PHASE. -/
def statusWord (s : State) : BitVec 16 :=
  s.err.info ++ s.err.iodir ++ s.err.code ++ 0#1 ++ phaseCode s.phase

/-- The bytes the sink has accepted, in order (60_exceptions.md R244, 20_memory.md R52). -/
def acceptedBytes (trace : List IoEvent) : List Byte :=
  trace.filterMap fun e =>
    match e with
    | .push b true => some b
    | .push _ false => none
    | .pull _ => none

/-- The bytes at the sink. -/
def sinkBytes (s : State) : List Byte := acceptedBytes s.host.trace

/-- How many pulls a trace holds (44_pipeline.md R209). -/
def pullCount (trace : List IoEvent) : Nat :=
  trace.countP fun e =>
    match e with
    | .pull _ => true
    | .push _ _ => false

/-- How many pushes a trace holds (R209). -/
def pushCount (trace : List IoEvent) : Nat :=
  trace.countP fun e =>
    match e with
    | .pull _ => false
    | .push _ _ => true

end Sys2Proof.Machine
end

