-- ==== Sys2Proof/Machine/Operands.lean ====
section
/-! DEFINITION. The operands of the commands: the accumulator that sel picks (30_encoding.md R82), and the two ROMs
that a byte or a code indexes (10_state.md R25, R26). -/

namespace Sys2Proof.Machine

/-- `A = (sel == 0) ? WACC : RACC` (30_encoding.md R82). -/
def readAcc (sel : Sel) (s : State) : BitAcc :=
  match sel with
  | .wacc => s.wacc
  | .racc => s.racc

/-- Write the accumulator that sel picks; the other keeps its value (40_accumulator.md R100). -/
def writeAcc (sel : Sel) (a : BitAcc) (s : State) : State :=
  match sel with
  | .wacc => s.setWacc a
  | .racc => s.setRacc a

/-- A count as the 8-bit value of a response. -/
def countByte (a : BitAcc) : Byte := BitVec.ofNat 8 a.count.val

/-- `FWD[b]`, the forward ROM (10_state.md R25): the code whose entry is b, and 31 where there is none. This is
`Encode(b)` (43_symbol_table.md R172). -/
def encodeByte (p : Params) (b : Byte) : Code :=
  match p.alphabet.toList.findIdx? (fun x => x == b) with
  | some c => BitVec.ofNat 5 c
  | none => ESC

/-- `Decode(c)` (43_symbol_table.md R173): `REV[c]` for c in 0..30 (10_state.md R26), and none above. -/
def decodeCode (p : Params) (c : Byte) : Option Byte :=
  if h : c.toNat < 31 then some p.alphabet[c.toNat] else none

end Sys2Proof.Machine
end

