-- ==== Sys2Proof/Machine/Ops.lean ====
section
/-! DEFINITION. The shared operations (00_scope.md R13, R14): raising an error and leaving it, reset, pulls and
pushes, the accumulator, the writer, the reader, the phase guard, and the bodies of the pipeline. -/

namespace Sys2Proof.Machine

/-! ### Errors (60_exceptions.md) -/

/-- The error kinds (60_exceptions.md R230). -/
inductive ErrKind where
  | unsupportedCharacter
  | invalidFormatVersion
  | unknownCode
  | unexpectedEndOfStream
  | io
  | illegalCommand
  deriving DecidableEq, Repr

/-- ERR.code of a kind (R230). -/
def errCode (k : ErrKind) : BitVec 3 :=
  match k with
  | .unsupportedCharacter => 1#3
  | .invalidFormatVersion => 2#3
  | .unknownCode => 3#3
  | .unexpectedEndOfStream => 4#3
  | .io => 5#3
  | .illegalCommand => 6#3

/-- An error that a pseudocode line raises: the kind, for `Io` its direction, and the info value (R230). -/
structure Raised where
  kind : ErrKind
  iodir : BitVec 1
  info : BitVec 8
  deriving DecidableEq, Repr

/-- `Io(iodir = 0)`: the source failed (R230). -/
def ioSource : Raised := ⟨.io, 0#1, 0#8⟩

/-- `Io(iodir = 1)`: the sink failed (R230). -/
def ioSink : Raised := ⟨.io, 1#1, 0#8⟩

/-- `IllegalCommand(info)` (R230): 0 encoding, 1 phase, 2 a push into a full accumulator. -/
def illegalCommand (info : BitVec 8) : Raised := ⟨.illegalCommand, 0#1, info⟩

/-- `UnsupportedCharacter(b)` (R230). -/
def unsupportedCharacter (b : Byte) : Raised := ⟨.unsupportedCharacter, 0#1, b⟩

/-- `InvalidFormatVersion(v)` (R230). -/
def invalidFormatVersion (v : Code) : Raised := ⟨.invalidFormatVersion, 0#1, v.setWidth 8⟩

/-- `UnknownCode(c)` (R230). -/
def unknownCode (c : Code) : Raised := ⟨.unknownCode, 0#1, c.setWidth 8⟩

/-- `UnexpectedEndOfStream(where)` (R230): 0 at the version read, 1 at an escape literal. -/
def unexpectedEndOfStream (info : BitVec 8) : Raised := ⟨.unexpectedEndOfStream, 0#1, info⟩

/-- TAKING AN ERROR: `raise E(info)` (R233). ERR, PHASE and RESP are written, nothing else changes. -/
def takeError (e : Raised) (s : State) : State :=
  ((s.setErr ⟨errCode e.kind, if e.kind = .io then e.iodir else 0#1, e.info⟩).setPhase .error).setResp
    ⟨.error, (errCode e.kind).setWidth 8⟩

/-- LEAVING AN ERROR: what C.BEGIN, D.BEGIN and CTL.IDLE do first (R234, 44_pipeline.md R190, R200, R210): ERR is
cleared and both accumulators are emptied. Nothing of the old pass comes back. -/
def clearErrorAndAccs (s : State) : State :=
  ((s.setErr Err.clear).setWacc BitAcc.empty).setRacc BitAcc.empty

/-- A word that is illegal or not legal in PHASE = ERROR is ignored (R242): only RESP is written. -/
def ignoreInError (s : State) : State :=
  s.setResp ⟨.error, s.err.code.setWidth 8⟩

/-- Reset of the block (70_reset_and_hazards.md R260): every register takes its reset value; the ROMs and the
parameters keep theirs, and what the host has seen and will do stays the host's. -/
def resetBlock (s : State) : State :=
  { s with wacc := BitAcc.empty, racc := BitAcc.empty, phase := .idle, err := Err.clear, resp := Resp.initial }

/-! ### Commands that may end early -/

/-- How a stretch of pseudocode ends: with a result; with a raise (R233); cut off by a reset (R260); or never. -/
inductive Run (α : Type) where
  | ok (a : α) (s : State)
  | raised (e : Raised) (s : State)
  | cut (s : State)
  | stuck (f : Fault)

/-- Pseudocode runs top to bottom, and the lines after a raise do not run (00_scope.md R13). -/
def andThen {α β : Type} (r : Run α) (k : α → State → Run β) : Run β :=
  match r with
  | .ok a s => k a s
  | .raised e s => .raised e s
  | .cut s => .cut s
  | .stuck f => .stuck f

/-- A run that changes the state and does no I/O. -/
def done (s : State) : Run Unit := .ok () s

/-- The end of a command as an outcome of the machine's step: a raise takes the error (R233), a cut resets the block
(R260), and a command that does not end is a fault. -/
def settle (r : Run Unit) : Host.Outcome State Fault Refusal :=
  match r with
  | .ok _ s => .next s
  | .raised e s => .next (takeError e s)
  | .cut s => .next (resetBlock s)
  | .stuck f => .fault f

/-! ### Pulls and pushes (20_memory.md R51, R52) -/

/-- The next answer on a port, and the answers after it; none where the host never answers (60_exceptions.md R243). -/
def nextAnswer {α : Type} (a : Answers α) : Option (α × Answers α) :=
  match a.queued with
  | r :: rest => some (r, { a with queued := rest })
  | [] =>
    match a.after with
    | some r => some (r, a)
    | none => none

/-- What src_kind and src_data say (70_reset_and_hazards.md R263): 0 = Byte, 1 = End, 2 = IoFail, and 3 is treated
as IoFail. -/
def srcAnswer (r : SrcReply) : SrcAnswer :=
  if r.kind = 0#2 then .byte r.data
  else if r.kind = 1#2 then .endOfStream
  else .ioFail

/-- One more pull or push of the running command has been answered (log 6). -/
def countDown (h : HostSide) : HostSide :=
  { h with resetAfter := h.resetAfter.map (fun n => n - 1) }

/-- `SrcPull()` (00_scope.md R13): one answer of the source; `Byte(b)` consumes that byte. -/
def srcPull (s : State) : Run SrcAnswer :=
  if s.host.resetAfter = some 0 then .cut s
  else
    match nextAnswer s.host.src with
    | some (r, rest) =>
      .ok (srcAnswer r)
        (s.setHost { countDown s.host with src := rest, trace := s.host.trace ++ [.pull (srcAnswer r)] })
    | none => .stuck .hostSilent

/-- `SinkPush(b)` (00_scope.md R13): offer b to the sink; true is `Ok`, false is `IoFail`, which appends nothing. -/
def sinkPush (b : Byte) (s : State) : Run Bool :=
  if s.host.resetAfter = some 0 then .cut s
  else
    match nextAnswer s.host.snk with
    | some (r, rest) =>
      .ok (!r.fail)
        (s.setHost { countDown s.host with snk := rest, trace := s.host.trace ++ [.push b (!r.fail)] })
    | none => .stuck .hostSilent

/-- The line `if SinkPush(b) == IoFail: raise Io(iodir = 1)` of 41_writer.md R120, R122 and 44_pipeline.md R201,
R202. -/
def pushByte (b : Byte) (s : State) : Run Unit :=
  andThen (sinkPush b s) fun accepted s =>
    if accepted then done s else .raised ioSink s

/-! ### The accumulator (40_accumulator.md) -/

/-- `Push(A, bit)` (40_accumulator.md R101); it is called only when the count is below 8 (log 11). -/
def pushBit (a : BitAcc) (bit : Bool) : BitAcc :=
  { bits := a.bits <<< 1 ||| BitVec.setWidth 8 (BitVec.ofBool bit)
    count := ⟨min (a.count.val + 1) 8, by omega⟩ }

/-! ### The writer (41_writer.md) -/

/-- `Drain()` (41_writer.md R120): the full byte goes to the sink. When the push fails WACC is left full. -/
def drain (s : State) : Run Unit :=
  andThen (pushByte s.wacc.bits s) fun _ s => done (s.setWacc BitAcc.empty)

/-- `if WACC.count == 8: Drain()` (R121). -/
def drainIfFull (s : State) : Run Unit :=
  if fullFlag s.wacc then drain s else done s

/-- The loop of `WriteBits` (R121) over the bits still to write. -/
def writeLoop (bits : List Bool) (s : State) : Run Unit :=
  match bits with
  | [] => done s
  | b :: bs => andThen (drainIfFull (s.setWacc (pushBit s.wacc b))) fun _ s => writeLoop bs s

/-- `WriteBits(v, w)` (R121), for w = 5 and 8. -/
def writeBits (w : Nat) (v : BitVec w) (s : State) : Run Unit :=
  andThen (drainIfFull s) fun _ s => writeLoop (msbBits w v) s

/-- PAD_ESC_SET = {1, 2, 3} (00_scope.md R10). -/
def inPadEscSet (k : Nat) : Bool := 1 ≤ k && k ≤ 3

/-- `WACC.bits << (8 - WACC.count)` (41_writer.md R122): the pending bits at the high end, zeros below. -/
def flushByte (a : BitAcc) : Byte := a.bits <<< (8 - a.count.val)

/-- `FlushW()` (R122). -/
def flushW (s : State) : Run Unit :=
  if s.wacc.count.val = 0 then done s
  else
    andThen (if inPadEscSet s.wacc.count.val then writeBits 5 ESC s else done s) fun _ s =>
      andThen (if 0 < s.wacc.count.val then pushByte (flushByte s.wacc) s else done s) fun _ s =>
        done (s.setWacc BitAcc.empty)

/-! ### The reader (42_reader.md) -/

/-- The value of the w oldest valid bits (42_reader.md R141). -/
def topBits (w : Nat) (a : BitAcc) : BitVec w := (a.bits >>> (a.count.val - w)).setWidth w

/-- The accumulator after its w oldest bits are taken (R141): count - w, and the bits above it cleared. -/
def dropTop (w : Nat) (a : BitAcc) : BitAcc :=
  { bits := (a.bits.setWidth (a.count.val - w)).setWidth 8
    count := ⟨a.count.val - w, by omega⟩ }

/-- The loop of R142 (Retain): the value is captured when the count first reaches w, and the bits of the refill byte
after it stay. -/
def refillRetain (w : Nat) (captured : Option (BitVec w)) (bits : List Bool) (a : BitAcc) : Option (BitVec w) × BitAcc :=
  match bits with
  | [] => (captured, a)
  | b :: bs =>
    if captured.isNone && (pushBit a b).count.val == w then
      refillRetain w (some ((pushBit a b).bits.setWidth w)) bs BitAcc.empty
    else refillRetain w captured bs (pushBit a b)

/-- The loop of R143 (Discard): at the capture the rest of the refill byte is dropped. -/
def refillDiscard (w : Nat) (bits : List Bool) (a : BitAcc) : Option (BitVec w) × BitAcc :=
  match bits with
  | [] => (none, a)
  | b :: bs =>
    if (pushBit a b).count.val == w then (some ((pushBit a b).bits.setWidth w), BitAcc.empty)
    else refillDiscard w bs (pushBit a b)

/-- A refill by the byte B in the instance's mode (R140). The loops capture a value for every count below w, w at
most 8 (R142), so the 0 below is never read (log 11). -/
def refill (m : ReaderMode) (w : Nat) (B : Byte) (a : BitAcc) : BitVec w × BitAcc :=
  match m with
  | .retain => ((refillRetain w none (msbBits 8 B) a).1.getD 0, (refillRetain w none (msbBits 8 B) a).2)
  | .discard => ((refillDiscard w (msbBits 8 B) a).1.getD 0, (refillDiscard w (msbBits 8 B) a).2)

/-- `ReadBits(w)` (R140 to R144), for w = 5 and 8: `some v` is Value(v), `none` is EOS. -/
def readBits (w : Nat) (s : State) : Run (Option (BitVec w)) :=
  if w ≤ s.racc.count.val then .ok (some (topBits w s.racc)) (s.setRacc (dropTop w s.racc))
  else
    andThen (srcPull s) fun r s =>
      match r with
      | .endOfStream => .ok none s
      | .ioFail => .raised ioSource s
      | .byte B =>
        .ok (some (refill s.params.readerMode w B s.racc).1)
          (s.setRacc (refill s.params.readerMode w B s.racc).2)

/-- The end of RD.READ5 and RD.READ8 (R150, R151): the response. -/
def readResponse {w : Nat} (r : Option (BitVec w)) : Resp :=
  match r with
  | none => ⟨.eos, 0#8⟩
  | some v => ⟨.ok, v.setWidth 8⟩

/-! ### The phase guard (60_exceptions.md R237, R240) -/

/-- The rows of the table of R237. -/
inductive Group where
  /-- ACC.*, WR.* and RD.*. -/
  | raw
  /-- TBL.*. -/
  | table
  /-- C.BEGIN, C.PASS, D.BEGIN, D.PASS. -/
  | begin
  | cStep
  | dStep
  | idle
  deriving DecidableEq, Repr

/-- The table of R237: is a command of the group legal in the phase? -/
def legal (g : Group) (p : Phase) : Bool :=
  match g, p with
  | .raw, .idle => true
  | .raw, .compress => false
  | .raw, .decompress => false
  | .raw, .done => false
  | .raw, .error => false
  | .table, _ => true
  | .begin, .idle => true
  | .begin, .compress => false
  | .begin, .decompress => false
  | .begin, .done => true
  | .begin, .error => true
  | .cStep, .idle => false
  | .cStep, .compress => true
  | .cStep, .decompress => false
  | .cStep, .done => false
  | .cStep, .error => false
  | .dStep, .idle => false
  | .dStep, .compress => false
  | .dStep, .decompress => true
  | .dStep, .done => false
  | .dStep, .error => false
  | .idle, _ => true

/-- What a command that must not run does (R240, R242): it is ignored in PHASE = ERROR, and raises
`IllegalCommand(info)` in every other phase. -/
def rejectCommand (info : BitVec 8) (s : State) : State :=
  if s.phase = .error then ignoreInError s else takeError (illegalCommand info) s

/-- The phase guard before a command's own effects (R240). -/
def guarded (g : Group) (body : State → Run Unit) (s : State) : Host.Outcome State Fault Refusal :=
  if legal g s.phase then settle (body s) else .next (rejectCommand 1#8 s)

/-- A word that no row of the opcode map matches (30_encoding.md R85). -/
def illegalWord (s : State) : Host.Outcome State Fault Refusal :=
  .next (rejectCommand 0#8 s)

/-! ### The stream tokens on the decompressor's side (44_pipeline.md) -/

/-- The check of the version code (44_pipeline.md R200, 30_encoding.md R71). -/
def acceptVersion (v : Code) (s : State) : Run Unit :=
  if v ≠ VERSION then .raised (invalidFormatVersion v) s
  else done ((s.setPhase .decompress).setResp ⟨.ok, v.setWidth 8⟩)

/-- The end of D.STEP for a code other than ESC (R201, 30_encoding.md R72). -/
def emitSymbol (c : Code) (s : State) : Run Unit :=
  match decodeCode s.params (c.setWidth 8) with
  | none => .raised (unknownCode c) s
  | some d => andThen (pushByte d s) fun _ s => done (s.setResp ⟨.ok, d⟩)

/-- The end of `EscapeLiteral()` for a literal that was read (R202, 30_encoding.md R73). -/
def emitLiteral (l : Byte) (s : State) : Run Unit :=
  andThen (pushByte l s) fun _ s => done (s.setResp ⟨.ok, l⟩)

/-- The successful end of a decompress pass (R203, R204). -/
def endDecompress (s : State) : State :=
  ((s.setRacc BitAcc.empty).setPhase .done).setResp ⟨.eos, 0#8⟩

/-- The condition of R203 under which an escape at the end of the stream is the writer's padding escape. -/
def acceptsPadEscape (s : State) : Bool :=
  s.params.terminalEscape == .acceptPad && s.racc.count.val ≤ 2 && s.racc.bits == 0#8

/-- `TerminalEscape()` (R203, 30_encoding.md R74). -/
def terminalEscape (s : State) : Run Unit :=
  if acceptsPadEscape s then done (endDecompress s) else .raised (unexpectedEndOfStream 1#8) s

/-- `EscapeLiteral()` (R202). -/
def escapeLiteral (s : State) : Run Unit :=
  andThen (readBits 8 s) fun r s =>
    match r with
    | none => terminalEscape s
    | some l => emitLiteral l s

/-! ### The pipeline's bodies (44_pipeline.md) -/

/-- The body of C.BEGIN (R190). -/
def compressBegin (s : State) : Run Unit :=
  andThen (writeBits 5 VERSION (clearErrorAndAccs s)) fun _ s =>
    done ((s.setPhase .compress).setResp ⟨.ok, VERSION.setWidth 8⟩)

/-- C.STEP on an input byte (R191): the check of R236, the code, and after ESC the literal. -/
def compressByte (b : Byte) (s : State) : Run Unit :=
  if 0x80 ≤ b.toNat then .raised (unsupportedCharacter b) s
  else
    andThen (writeBits 5 (encodeByte s.params b) s) fun _ t =>
      andThen (if encodeByte s.params b = ESC then writeBits 8 b t else done t) fun _ u =>
        done (u.setResp ⟨.ok, (encodeByte s.params b).setWidth 8⟩)

/-- The end of the input in C.STEP (R191): flush, DONE. -/
def compressEnd (s : State) : Run Unit :=
  andThen (flushW s) fun _ s => done ((s.setPhase .done).setResp ⟨.eos, 0#8⟩)

/-- The body of C.STEP (R191). -/
def compressStep (s : State) : Run Unit :=
  andThen (srcPull s) fun r s =>
    match r with
    | .ioFail => .raised ioSource s
    | .endOfStream => compressEnd s
    | .byte b => compressByte b s

/-- The body of D.BEGIN (R200). -/
def decompressBegin (s : State) : Run Unit :=
  andThen (readBits 5 (clearErrorAndAccs s)) fun r s =>
    match r with
    | none => .raised (unexpectedEndOfStream 0#8) s
    | some v => acceptVersion v s

/-- The body of D.STEP (R201, R204). -/
def decompressStep (s : State) : Run Unit :=
  andThen (readBits 5 s) fun r s =>
    match r with
    | none => done (endDecompress s)
    | some c => if c = ESC then escapeLiteral s else emitSymbol c s

/-- `while PHASE == p: step` (R192, R205), at most `fuel` times round. A pass that would go round once more never
ends (log 5). -/
def passLoop (p : Phase) (body : State → Run Unit) (fuel : Nat) (s : State) : Run Unit :=
  if s.phase = p then
    match fuel with
    | 0 => .stuck .passNeverEnds
    | n + 1 => andThen (body s) fun _ s => passLoop p body n s
  else done s

/-- A number of rounds that no pass which ends goes beyond (log 5): every round of C.PASS pulls an answer and writes
at least 5 bits, every round of D.PASS pushes a byte or ends and takes at least 5 bits, and once the lists of answers
are used up every answer is the same. -/
def passRounds (s : State) : Nat :=
  2 * (s.host.src.queued.length + s.host.snk.queued.length) + s.host.resetAfter.getD 0 + 16

/-- The body of C.PASS (R192). -/
def compressPass (s : State) : Run Unit :=
  andThen (compressBegin s) fun _ t => passLoop .compress compressStep (passRounds s) t

/-- The body of D.PASS (R205). -/
def decompressPass (s : State) : Run Unit :=
  andThen (decompressBegin s) fun _ t => passLoop .decompress decompressStep (passRounds s) t

end Sys2Proof.Machine
end

