-- ==== Sys2Proof/Machine/Accumulator.lean ====
section
/-! DEFINITION. The bit accumulator commands (40_accumulator.md R100 to R104). -/

namespace Sys2Proof.Machine

/-- The body of ACC.PUSH (R102): a full accumulator raises IllegalCommand(2). -/
def pushCommand (sel : Sel) (bit : Bool) (s : State) : Run Unit :=
  if fullFlag (readAcc sel s) then .raised (illegalCommand 2#8) s
  else
    done ((writeAcc sel (pushBit (readAcc sel s) bit) s).setResp
      ⟨.ok, countByte (pushBit (readAcc sel s) bit)⟩)

/-- ACC.PUSH (R102). -/
def execAccPush (sel : Sel) (bit : Bool) (s : State) : Host.Outcome State Fault Refusal :=
  guarded .raw (pushCommand sel bit) s

/-- ACC.ISFULL (R103). -/
def execAccIsFull (sel : Sel) (s : State) : Host.Outcome State Fault Refusal :=
  guarded .raw (fun s => done (s.setResp ⟨.ok, if fullFlag (readAcc sel s) then 1#8 else 0#8⟩)) s

/-- ACC.CLEAR (R104): the pending bits are thrown away. -/
def execAccClear (sel : Sel) (s : State) : Host.Outcome State Fault Refusal :=
  guarded .raw (fun s => done ((writeAcc sel BitAcc.empty s).setResp ⟨.ok, 0#8⟩)) s

end Sys2Proof.Machine
end

