-- ==== Sys2Proof/Machine/Pipeline.lean ====
section
/-! DEFINITION. The compress and decompress commands and CTL.IDLE (44_pipeline.md R190 to R210). -/

namespace Sys2Proof.Machine

/-- C.BEGIN (R190). -/
def execCBegin (s : State) : Host.Outcome State Fault Refusal := guarded .begin compressBegin s

/-- C.STEP (R191). -/
def execCStep (s : State) : Host.Outcome State Fault Refusal := guarded .cStep compressStep s

/-- C.PASS (R192). -/
def execCPass (s : State) : Host.Outcome State Fault Refusal := guarded .begin compressPass s

/-- D.BEGIN (R200). -/
def execDBegin (s : State) : Host.Outcome State Fault Refusal := guarded .begin decompressBegin s

/-- D.STEP (R201). -/
def execDStep (s : State) : Host.Outcome State Fault Refusal := guarded .dStep decompressStep s

/-- D.PASS (R205). -/
def execDPass (s : State) : Host.Outcome State Fault Refusal := guarded .begin decompressPass s

/-- CTL.IDLE (R210): no I/O, no flush. -/
def execCtlIdle (s : State) : Host.Outcome State Fault Refusal :=
  guarded .idle (fun s => done (((clearErrorAndAccs s).setPhase .idle).setResp ⟨.ok, 0#8⟩)) s

end Sys2Proof.Machine
end

