-- ==== Sys2Proof/Machine/Reader.lean ====
section
/-! DEFINITION. The bit reader commands (42_reader.md R150, R151). -/

namespace Sys2Proof.Machine

/-- RD.READ5 (R150). -/
def execRdRead5 (s : State) : Host.Outcome State Fault Refusal :=
  guarded .raw (fun s => andThen (readBits 5 s) fun r t => done (t.setResp (readResponse r))) s

/-- RD.READ8 (R151). -/
def execRdRead8 (s : State) : Host.Outcome State Fault Refusal :=
  guarded .raw (fun s => andThen (readBits 8 s) fun r t => done (t.setResp (readResponse r))) s

end Sys2Proof.Machine
end

