-- ==== Sys2Proof/Machine/Stream.lean ====
section
/-! DEFINITION. The tokens of the compressed stream (30_encoding.md R71 to R74): what the decompressor does once it
has read the token (44_pipeline.md R200 to R203). D.BEGIN and D.STEP, which read tokens, run the same operations
(log 7). A token is no command, so it meets no phase guard (00_scope.md R14). -/

namespace Sys2Proof.Machine

/-- STREAM.VERSION: the version check passes and the decompress pass goes on (44_pipeline.md R200). -/
def execStreamVersion (s : State) : Host.Outcome State Fault Refusal := settle (acceptVersion VERSION s)

/-- STREAM.SYM: the token stands for the byte `REV[c]` (R72, R201). -/
def execStreamSym (c : Code) (s : State) : Host.Outcome State Fault Refusal := settle (emitSymbol c s)

/-- STREAM.ESC: the token stands for its literal (R73, R202). -/
def execStreamEsc (l : Byte) (s : State) : Host.Outcome State Fault Refusal := settle (emitLiteral l s)

/-- STREAM.PADESC: the end of the stream, or an error, as P_TERMINAL_ESCAPE says (R74, R203). -/
def execStreamPadEsc (s : State) : Host.Outcome State Fault Refusal := settle (terminalEscape s)

end Sys2Proof.Machine
end

