-- ==== Sys2Proof/Machine/Table.lean ====
section
/-! DEFINITION. The symbol table lookup commands (43_symbol_table.md R175, R176). -/

namespace Sys2Proof.Machine

/-- TBL.ENCODE (R175): every byte has an answer, 31 outside the alphabet. -/
def execTblEncode (byte : Byte) (s : State) : Host.Outcome State Fault Refusal :=
  guarded .table (fun s => done (s.setResp ⟨.ok, (encodeByte s.params byte).setWidth 8⟩)) s

/-- The response of TBL.DECODE (R176): NONE for a code with no entry. -/
def decodeResponse (d : Option Byte) : Resp :=
  match d with
  | some x => ⟨.ok, x⟩
  | none => ⟨.none, 0#8⟩

/-- TBL.DECODE (R176): the code is the whole of imm8. -/
def execTblDecode (code : Byte) (s : State) : Host.Outcome State Fault Refusal :=
  guarded .table (fun s => done (s.setResp (decodeResponse (decodeCode s.params code)))) s

end Sys2Proof.Machine
end

