-- ==== Sys2Proof/Machine/Writer.lean ====
section
/-! DEFINITION. The bit writer commands (41_writer.md R125 to R127). -/

namespace Sys2Proof.Machine

/-- The response of every WR.* command: the count WACC is left with (R125 to R127). -/
def writerResponse (s : State) : Run Unit := done (s.setResp ⟨.ok, countByte s.wacc⟩)

/-- WR.WRITE5 (R125). -/
def execWrWrite5 (value : Code) (s : State) : Host.Outcome State Fault Refusal :=
  guarded .raw (fun s => andThen (writeBits 5 value s) fun _ t => writerResponse t) s

/-- WR.WRITE8 (R126). -/
def execWrWrite8 (value : Byte) (s : State) : Host.Outcome State Fault Refusal :=
  guarded .raw (fun s => andThen (writeBits 8 value s) fun _ t => writerResponse t) s

/-- WR.FLUSH (R127). -/
def execWrFlush (s : State) : Host.Outcome State Fault Refusal :=
  guarded .raw (fun s => andThen (flushW s) fun _ t => writerResponse t) s

end Sys2Proof.Machine
end

