-- ==== Sys2Proof/Machine/Dispatch.lean ====
section
/-! DEFINITION. The meaning of each instruction: one arm per constructor. -/

namespace Sys2Proof.Machine

def exec (i : Instr) (s : State) : Host.Outcome State Fault Refusal :=
  match i with
  | .accPush sel bit => Sys2Proof.Machine.execAccPush sel bit s
  | .accIsFull sel => Sys2Proof.Machine.execAccIsFull sel s
  | .accClear sel => Sys2Proof.Machine.execAccClear sel s
  | .wrWrite5 value => Sys2Proof.Machine.execWrWrite5 value s
  | .wrWrite8 value => Sys2Proof.Machine.execWrWrite8 value s
  | .wrFlush => Sys2Proof.Machine.execWrFlush s
  | .rdRead5 => Sys2Proof.Machine.execRdRead5 s
  | .rdRead8 => Sys2Proof.Machine.execRdRead8 s
  | .tblEncode byte => Sys2Proof.Machine.execTblEncode byte s
  | .tblDecode code => Sys2Proof.Machine.execTblDecode code s
  | .cBegin => Sys2Proof.Machine.execCBegin s
  | .cStep => Sys2Proof.Machine.execCStep s
  | .cPass => Sys2Proof.Machine.execCPass s
  | .dBegin => Sys2Proof.Machine.execDBegin s
  | .dStep => Sys2Proof.Machine.execDStep s
  | .dPass => Sys2Proof.Machine.execDPass s
  | .ctlIdle => Sys2Proof.Machine.execCtlIdle s
  | .streamVersion => Sys2Proof.Machine.execStreamVersion s
  | .streamSym c => Sys2Proof.Machine.execStreamSym c s
  | .streamEsc l => Sys2Proof.Machine.execStreamEsc l s
  | .streamPadEsc => Sys2Proof.Machine.execStreamPadEsc s

end Sys2Proof.Machine
end

