-- ==== Sys2Proof/Machine/CommandPort.lean ====
section
/-! DEFINITION. The command port, the response port and the reset line (70_reset_and_hazards.md R260, R262): what one
step of the machine does with the host's next event, and how an instruction is placed where the next step takes it. -/

namespace Sys2Proof.Machine

/-- Run a command word: the encoding check comes first (60_exceptions.md R236), then the command. -/
def runWord (w : CmdWord) (s : State) : Host.Outcome State Fault Refusal :=
  match decode (.command w) with
  | .ok i => exec i s
  | .error _ => illegalWord s

/-- `s` with the event taken from the host's list, and the number of answers after which the host will assert reset. -/
def acceptEvent (rest : List HostEvent) (resetAfter : Option Nat) (s : State) : State :=
  s.setHost { s.host with events := rest, resetAfter := resetAfter }

/-- The response goes to the host at the end of the command (10_state.md R32, R262). -/
def returnResponse (s : State) : State :=
  s.setHost { s.host with resps := s.host.resps ++ [s.resp] }

/-- The reset that cut the command off (R260): the registers take their reset values, and no response is returned. -/
def endByReset (s : State) : State :=
  (resetBlock s).setHost { s.host with resetAfter := none }

/-- Apply `f` to a next state. -/
def mapNext (f : State → State) (o : Host.Outcome State Fault Refusal) : Host.Outcome State Fault Refusal :=
  match o with
  | .next s => .next (f s)
  | .fault r => .fault r
  | .refused r => .refused r

/-- One transaction: the host's next event (R260, R262). With none the block stays at rest and keeps all its state
(60_exceptions.md R247; log 8). -/
def takeEvent (s : State) : Host.Outcome State Fault Refusal :=
  match s.host.events with
  | [] => .next s
  | .command w :: rest => mapNext returnResponse (runWord w (acceptEvent rest none s))
  | .reset :: rest => .next (resetBlock (acceptEvent rest none s))
  | .commandCutByReset w n :: rest => mapNext endByReset (runWord w (acceptEvent rest (some n) s))

/-- `s` with a command word offered next. -/
def offerCommand (w : CmdWord) (s : State) : State :=
  s.setHost { s.host with events := .command w :: s.host.events }

/-- `s` with an answer put before the ones the source will give. -/
def queueSrc (r : SrcReply) (s : State) : State :=
  s.setHost { s.host with src := { s.host.src with queued := r :: s.host.src.queued } }

/-- `s` in a decompress pass with the 5 bits of a token's code held in RACC, and D.STEP offered, which reads them. -/
def placeToken (c : Code) (s : State) : State :=
  offerCommand 0x7800#16 ((s.setPhase .decompress).setRacc ⟨c.setWidth 8, 5⟩)

/-- `s` with an instruction placed where the next step runs it (log 8): a command word is offered on the command port;
a token is put into the stream, and the command that reads it is offered (D.BEGIN for the version token, D.STEP
for the others), in the phase in which that command is legal. -/
def placeInstruction (i : Option Instr) (word : CmdWord) (s : State) : State :=
  match i with
  | some .streamVersion => offerCommand 0x7000#16 (queueSrc ⟨0#2, VERSION ++ 0#3⟩ (s.setPhase .idle))
  | some (.streamSym c) => placeToken c s
  | some (.streamEsc l) => placeToken ESC (queueSrc ⟨0#2, l⟩ s)
  | some .streamPadEsc => placeToken ESC (queueSrc SrcReply.endReply s)
  | _ => offerCommand word s

end Sys2Proof.Machine
end

