-- ==== Sys2Proof/Machine/Step.lean ====
section
/-! DEFINITION. One step of the machine: one transaction of the host with the block (00_scope.md R16). -/

namespace Sys2Proof.Machine

/-- One step: the host's next event, run to completion (00_scope.md R16, 70_reset_and_hazards.md R262). -/
def step (s : State) : Host.Outcome State Fault Refusal := takeEvent s

/-- `s` with the instruction whose table bits are `w` placed so that the very next step runs it (log 8). -/
def State.withFetchWord (s : State) (nbits w : Nat) : State :=
  placeInstruction (decodeTableWord nbits w) (BitVec.ofNat 16 w) s

end Sys2Proof.Machine
end

