-- ==== Sys2Proof/Safety.lean ====
section
/-! DEFINITION. The terms claims use: the bits an accumulator holds, the compressed stream as a bit string
(30_encoding.md R70 to R79), hosts that answer, and what a safe state is (10_state.md R23, R29, R30, R33). -/

namespace Sys2Proof.Machine

/-! ### Bits held in an accumulator -/

/-- The valid bits, oldest first: `bits[count-1:0]` (10_state.md R23). -/
def validBits (a : BitAcc) : List Bool := msbBits a.count.val a.bits

/-- The invariant of 10_state.md R23: `bits < 2^count`. -/
abbrev accOk (a : BitAcc) : Prop := a.bits.toNat < 2 ^ a.count.val

/-- The accumulator that holds at most 8 given bits, oldest first. -/
def accOf (bs : List Bool) : BitAcc := ⟨ofMsbBits 8 bs, ⟨min bs.length 8, by omega⟩⟩

/-! ### The stream as bits and bytes -/

/-- The whole bytes of a bit string: byte k holds bits 8k to 8k+7, most significant first (20_memory.md R54). -/
def wholeBytes (bs : List Bool) : List Byte :=
  (List.range (bs.length / 8)).map fun k => ofMsbBits 8 ((bs.drop (8 * k)).take 8)

/-- The bits after the last whole byte. -/
def leftover (bs : List Bool) : List Bool := bs.drop (8 * (bs.length / 8))

/-- The bits of a byte sequence (R54). -/
def bitsOf (bytes : List Byte) : List Bool := bytes.flatMap (msbBits 8)

/-- The bits of a token; a command has none. -/
def tokenBits (i : Instr) : List Bool :=
  match encode i with
  | .token _ bs => bs
  | .command _ => []

/-- The data token that stands for an input byte (30_encoding.md R79). -/
def tokenOfByte (p : Params) (b : Byte) : Instr :=
  if encodeByte p b = ESC then .streamEsc b else .streamSym (encodeByte p b)

/-- The version token and one data token for each input byte (R70). -/
def dataBits (p : Params) (xs : List Byte) : List Bool :=
  tokenBits .streamVersion ++ xs.flatMap fun b => tokenBits (tokenOfByte p b)

/-- The terminal part for a leftover count of k bits (R75). -/
def terminalBits (k : Nat) : List Bool :=
  if k = 0 then []
  else if inPadEscSet k then msbBits 5 ESC ++ List.replicate (3 - k) false
  else List.replicate (8 - k) false

/-- The compressed stream of an input (R70 to R75). -/
def compressed (p : Params) (xs : List Byte) : List Byte :=
  wholeBytes (dataBits p xs ++ terminalBits ((dataBits p xs).length % 8))

/-- How many bytes of an input are escaped (R77). -/
def escapedCount (p : Params) (xs : List Byte) : Nat := xs.countP fun b => encodeByte p b == ESC

/-- Every byte is an ASCII byte (00_scope.md R15). -/
abbrev Ascii (xs : List Byte) : Prop := ∀ b ∈ xs, b.toNat < 0x80

/-! ### Hosts (60_exceptions.md R243, 92_eei_decisions.md D15) -/

/-- The host lets the running command finish: it asserts no reset during it. -/
abbrev HostWaits (s : State) : Prop := s.host.resetAfter = none

/-- The sink answers Ok to every push. -/
abbrev SinkAccepts (s : State) : Prop :=
  (∀ r ∈ s.host.snk.queued, r.fail = false) ∧ s.host.snk.after.map SnkReply.fail = some false

/-- The source answers these, in order, and then the last one for ever. -/
abbrev SourceGives (s : State) (xs : List SrcAnswer) (last : SrcAnswer) : Prop :=
  s.host.src.queued.map srcAnswer = xs ∧ s.host.src.after.map srcAnswer = some last

/-- The next answer of the source, and the answers left after it. -/
abbrev NextPull (s : State) (a : SrcAnswer) (rest : Answers SrcReply) : Prop :=
  ∃ r, nextAnswer s.host.src = some (r, rest) ∧ srcAnswer r = a

/-- The next answer of the sink is IoFail, and `rest` are the answers left after it. -/
abbrev NextPushFails (s : State) (rest : Answers SnkReply) : Prop :=
  ∃ r, nextAnswer s.host.snk = some (r, rest) ∧ r.fail = true

/-- The sink accepts the next push and refuses the one after it, and `rest` are the answers left after that. -/
abbrev SecondPushFails (s : State) (rest : Answers SnkReply) : Prop :=
  ∃ r more q, nextAnswer s.host.snk = some (r, more) ∧ r.fail = false ∧ nextAnswer more = some (q, rest) ∧ q.fail = true

/-- The sink accepts the next push and never answers the one after it. -/
abbrev SecondPushSilent (s : State) : Prop :=
  ∃ r more, nextAnswer s.host.snk = some (r, more) ∧ r.fail = false ∧ nextAnswer more = none

/-- The sink accepts n pushes and never answers the one after them. -/
abbrev SinkSilentAfter (n : Nat) (s : State) : Prop :=
  s.host.snk.queued.length = n ∧ (∀ r ∈ s.host.snk.queued, r.fail = false) ∧ s.host.snk.after = none

/-- A port's answers after n more have been used. -/
def dropAnswers {α : Type} (n : Nat) (a : Answers α) : Answers α := { a with queued := a.queued.drop n }

/-- The first n answers a port gives: those of its list, then the last one for ever; fewer where it falls silent
(60_exceptions.md R243). -/
def takeAnswers {α : Type} (n : Nat) (a : Answers α) : List α :=
  (a.queued ++ a.after.toList.flatMap (List.replicate n)).take n

/-- The answers to the pulls of a record, in order. -/
def pulledAnswers (es : List IoEvent) : List SrcAnswer :=
  es.filterMap fun e =>
    match e with
    | .pull a => some a
    | .push _ _ => none

/-- The answers to the pushes of a record, in order: was it Ok? -/
def pushedAnswers (es : List IoEvent) : List Bool :=
  es.filterMap fun e =>
    match e with
    | .pull _ => none
    | .push _ accepted => some accepted

/-- The host's side after one pull, in a command that no reset cuts off. -/
def afterPull (a : SrcAnswer) (rest : Answers SrcReply) (h : HostSide) : HostSide :=
  { h with src := rest, trace := h.trace ++ [.pull a] }

/-- The host's side after these bytes were pushed and accepted, in a command that no reset cuts off. -/
def afterPushes (bytes : List Byte) (h : HostSide) : HostSide :=
  { h with snk := dropAnswers bytes.length h.snk, trace := h.trace ++ bytes.map fun b => .push b true }

/-- The host's side after one refused push, in a command that no reset cuts off. -/
def afterRefusal (b : Byte) (rest : Answers SnkReply) (h : HostSide) : HostSide :=
  { h with snk := rest, trace := h.trace ++ [.push b false] }

/-- The host's side after one accepted push and then a refused one, in a command that no reset cuts off. -/
def afterSecondRefusal (b c : Byte) (rest : Answers SnkReply) (h : HostSide) : HostSide :=
  { h with snk := rest, trace := h.trace ++ [.push b true, .push c false] }

/-- The state after the bits were written and the sink accepted every byte they completed (41_writer.md R124). -/
def written (bs : List Bool) (s : State) : State :=
  (s.setWacc (accOf (leftover (validBits s.wacc ++ bs)))).setHost
    (afterPushes (wholeBytes (validBits s.wacc ++ bs)) s.host)

/-- The byte or none that FlushW emits for the pending bits (41_writer.md R123). -/
def flushedBytes (pending : List Bool) : List Byte :=
  wholeBytes (pending ++ terminalBits (pending.length % 8))

/-- The state after FlushW with a sink that accepts (41_writer.md R122, R123). -/
def flushed (s : State) : State :=
  (s.setWacc BitAcc.empty).setHost (afterPushes (flushedBytes (validBits s.wacc)) s.host)

/-! ### Reading in terms of the stream's bits (42_reader.md) -/

/-- What ReadBits(w) does when it returns a value, in terms of the held bits: the w oldest of them, or of them and one
refill byte (R141 to R143). -/
def Reads (w : Nat) (s : State) (v : BitVec w) (t : State) : Prop :=
  (w ≤ s.racc.count.val ∧ v = ofMsbBits w ((validBits s.racc).take w) ∧
    t = s.setRacc (accOf ((validBits s.racc).drop w))) ∨
  (s.racc.count.val < w ∧ ∃ B rest, NextPull s (.byte B) rest ∧
    v = ofMsbBits w ((validBits s.racc ++ msbBits 8 B).take w) ∧
    t = (s.setHost (afterPull (.byte B) rest s.host)).setRacc
      (match s.params.readerMode with
       | .retain => accOf ((validBits s.racc ++ msbBits 8 B).drop w)
       | .discard => BitAcc.empty))

/-- Successive reads of the given widths: for each, the bits of the value or none at the end of the stream. -/
def readMany (widths : List Nat) (s : State) : Run (List (Option (List Bool))) :=
  match widths with
  | [] => .ok [] s
  | w :: ws =>
    andThen (readBits w s) fun r t => andThen (readMany ws t) fun rs u => .ok (r.map (msbBits w) :: rs) u

/-- A bit string cut into consecutive pieces of the given widths; a piece that would run past the end is none, and takes
nothing (42_reader.md R145). -/
def cutPieces (widths : List Nat) (bits : List Bool) : List (Option (List Bool)) :=
  match widths with
  | [] => []
  | w :: ws =>
    if bits.length < w then none :: cutPieces ws bits else some (bits.take w) :: cutPieces ws (bits.drop w)

/-! ### Commands -/

/-- The row of the table of 60_exceptions.md R237 that a command stands in; a token stands in none. -/
def groupOf (i : Instr) : Option Group :=
  match i with
  | .accPush _ _ => some .raw
  | .accIsFull _ => some .raw
  | .accClear _ => some .raw
  | .wrWrite5 _ => some .raw
  | .wrWrite8 _ => some .raw
  | .wrFlush => some .raw
  | .rdRead5 => some .raw
  | .rdRead8 => some .raw
  | .tblEncode _ => some .table
  | .tblDecode _ => some .table
  | .cBegin => some .begin
  | .cStep => some .cStep
  | .cPass => some .begin
  | .dBegin => some .begin
  | .dStep => some .dStep
  | .dPass => some .begin
  | .ctlIdle => some .idle
  | .streamVersion => none
  | .streamSym _ => none
  | .streamEsc _ => none
  | .streamPadEsc => none

/-- Run one command, and go on from the state it leaves. -/
def thenRun (o : Host.Outcome State Fault Refusal) (k : State → Host.Outcome State Fault Refusal) :
    Host.Outcome State Fault Refusal :=
  match o with
  | .next t => k t
  | .fault f => .fault f
  | .refused r => .refused r

/-- `while PHASE == p: i` in whole commands (44_pipeline.md R192, R205), at most n times round. -/
def runWhile (p : Phase) (i : Instr) (n : Nat) (s : State) : Host.Outcome State Fault Refusal :=
  if s.phase = p then
    match n with
    | 0 => .fault .passNeverEnds
    | m + 1 => thenRun (exec i s) fun t => runWhile p i m t
  else .next s

/-- One command n times over. -/
def runTimes (i : Instr) (n : Nat) (s : State) : Host.Outcome State Fault Refusal :=
  match n with
  | 0 => .next s
  | m + 1 => thenRun (exec i s) fun t => runTimes i m t

/-! ### Safe states -/

/-- ERR holds a value some raise writes, or none (60_exceptions.md R230); UnknownCode is not among them (44_pipeline.md
R206). -/
abbrev errOk (e : Err) : Prop :=
  (e.code = 0#3 ∧ e.iodir = 0#1 ∧ e.info = 0#8) ∨
  (e.code = 1#3 ∧ e.iodir = 0#1 ∧ 0x80 ≤ e.info.toNat) ∨
  (e.code = 2#3 ∧ e.iodir = 0#1 ∧ e.info.toNat < 32 ∧ e.info ≠ 1#8) ∨
  (e.code = 4#3 ∧ e.iodir = 0#1 ∧ e.info.toNat ≤ 1) ∨
  (e.code = 5#3 ∧ e.info = 0#8) ∨
  (e.code = 6#3 ∧ e.iodir = 0#1 ∧ e.info.toNat ≤ 2)

/-- What the accumulators hold between commands in each phase (10_state.md R33, 70_reset_and_hazards.md R270,
92_eei_decisions.md D19). -/
abbrev accsOk (s : State) : Prop :=
  accOk s.wacc ∧ accOk s.racc ∧
  (s.phase = .compress → s.wacc.count.val < 8 ∧ s.racc = BitAcc.empty) ∧
  (s.phase = .decompress → s.wacc = BitAcc.empty ∧ s.racc.count.val < 8 ∧
    (s.params.readerMode = .discard → s.racc = BitAcc.empty)) ∧
  (s.phase = .done → s.wacc = BitAcc.empty ∧ s.racc = BitAcc.empty)

/-- RESP holds what some command returns: EOS and NONE come with 0, and ERROR with ERR.code, in PHASE = ERROR
(10_state.md R32). -/
abbrev respOk (s : State) : Prop :=
  (s.resp.status = .none → s.resp.value = 0#8) ∧
  (s.resp.status = .eos → s.resp.value = 0#8) ∧
  (s.resp.status = .error → s.phase = .error ∧ s.resp.value = s.err.code.setWidth 8)

/-- A safe state: what holds at reset and every step keeps. The alphabet meets 00_scope.md R7 (a) and (b) (log 2). -/
abbrev Inv (s : State) : Prop :=
  accsOk s ∧ errOk s.err ∧ (s.phase = .error ↔ s.err.code ≠ 0#3) ∧ respOk s ∧ alphabetOk s.params.alphabet = true

end Sys2Proof.Machine
end

