-- ==== Sys2Proof/Certificates/Slice0/Obligations.lean ====
section
/-! DEFINITION. The statements for the provers. Each docstring names the rules of spec/ it comes from. -/

open Sys2Proof Sys2Proof.Machine

/-! ### Encodings (30_encoding.md) -/

/-- Every well-formed instruction is read back from its encoding (R71 to R74, R81 to R87). -/
def Obligations.EncodeThenDecode : Prop :=
  ∀ i : Instr, wellFormed i = true → decode (encode i) = .ok i

/-- A token is read off the front of the stream, and what follows it is left (R71 to R74, R78). -/
def Obligations.TokenReadOffTheStream : Prop :=
  (∀ rest, decodeToken true (tokenBits .streamVersion ++ rest) = .ok (.streamVersion, rest)) ∧
  (∀ c rest, c ≠ ESC → decodeToken false (tokenBits (.streamSym c) ++ rest) = .ok (.streamSym c, rest)) ∧
  (∀ l rest, decodeToken false (tokenBits (.streamEsc l) ++ rest) = .ok (.streamEsc l, rest)) ∧
  (∀ rest, isPadTail rest = true →
    decodeToken false (tokenBits .streamPadEsc ++ rest) = .ok (.streamPadEsc, []))

/-- R86: a word decodes by the row it selects, whatever the order of the rows; no word selects two; a word that selects
none is illegal. -/
def Obligations.DecodeFollowsTheSelectedRow : Prop :=
  ∀ w : CmdWord,
    (∀ r ∈ commandRows, r.selects w = true → decodeWord w = .ok (r.build w)) ∧
    (∀ q ∈ commandRows, ∀ r ∈ commandRows, q.selects w = true → r.selects w = true → q.pattern = r.pattern) ∧
    ((∀ r ∈ commandRows, r.selects w = false) → ∃ e, decodeWord w = .error e)

/-- R85: which words are illegal, and what an illegal word does. -/
def Obligations.IllegalWords : Prop :=
  (∀ w : CmdWord, (∃ e, decodeWord w = .error e) ↔
    (opField w).toNat = 0 ∨ 0x12 ≤ (opField w).toNat ∨ rsvField w ≠ 0#2 ∨
    (selField w = .racc ∧ 4 ≤ (opField w).toNat) ∨
    ((opField w).toNat = 1 ∧ 2 ≤ (imm8Field w).toNat) ∨
    ((opField w).toNat ∈ [2, 3, 6, 7, 8, 11, 12, 13, 14, 15, 16, 17] ∧ imm8Field w ≠ 0#8)) ∧
  (∀ w : CmdWord, w &&& 0xFF00#16 = 0x2000#16 → decodeWord w = .ok (.wrWrite5 (w.setWidth 5))) ∧
  (∀ (w : CmdWord) (e : Illegal) (s : State), decodeWord w = .error e →
    runWord w s = .next (if s.phase = .error then { s with resp := ⟨.error, s.err.code.setWidth 8⟩ }
      else { s with err := ⟨6#3, 0#1, 0#8⟩, phase := .error, resp := ⟨.error, 6#8⟩ }))

/-- Words written out from R81 and R84, and tokens written out from R71 to R74, decode to what they stand for (R88,
95_test_vectors.md 3.1). -/
def Obligations.WordsOfTheSpecDecode : Prop :=
  decodeWord 0x0801#16 = .ok (.accPush .wacc true) ∧ decodeWord 0x0C00#16 = .ok (.accPush .racc false) ∧
  decodeWord 0x1400#16 = .ok (.accIsFull .racc) ∧ decodeWord 0x201F#16 = .ok (.wrWrite5 31#5) ∧
  decodeWord 0x20E2#16 = .ok (.wrWrite5 2#5) ∧ decodeWord 0x2841#16 = .ok (.wrWrite8 0x41#8) ∧
  decodeWord 0x3000#16 = .ok .wrFlush ∧ decodeWord 0x3800#16 = .ok .rdRead5 ∧
  decodeWord 0x48C3#16 = .ok (.tblEncode 0xC3#8) ∧ decodeWord 0x501F#16 = .ok (.tblDecode 31#8) ∧
  decodeWord 0x6800#16 = .ok .cPass ∧ decodeWord 0x8000#16 = .ok .dPass ∧ decodeWord 0x8800#16 = .ok .ctlIdle ∧
  decode (.token true [false, false, false, false, true]) = .ok .streamVersion ∧
  decode (.token false [false, false, true, true, false]) = .ok (.streamSym 6#5) ∧
  decode (.token false [true, true, true, true, true, false, true, false, false, true, false, false, false]) =
    .ok (.streamEsc 0x48#8) ∧
  decode (.token false [true, true, true, true, true, false, false]) = .ok .streamPadEsc

/-- R54: stream bit i is in stream byte i div 8, at bit position 7 - (i mod 8). -/
def Obligations.StreamBitPositions : Prop :=
  ∀ (bs : List Bool) (i : Nat), i < 8 * (wholeBytes bs).length →
    ((wholeBytes bs)[i / 8]?).map (fun B => B.getLsbD (7 - i % 8)) = bs[i]?

/-- R77: the length of a compressed stream, in bits before the terminal part and in bytes. -/
def Obligations.CompressedLength : Prop :=
  ∀ (p : Params) (xs : List Byte),
    (dataBits p xs).length = 5 + 5 * xs.length + 8 * escapedCount p xs ∧
    (compressed p xs).length = (5 + 5 * xs.length + 8 * escapedCount p xs + 7) / 8 ∧
    ∀ k, k = (dataBits p xs).length % 8 → 1 ≤ k → k ≤ 3 → k + 5 ≤ 8

/-! ### One step of the machine -/

/-- One step (00_scope.md R16, 70_reset_and_hazards.md R262). An offered word that decodes runs its command with the event
taken, and RESP is returned: it joins the responses. An offered word that is illegal raises IllegalCommand(0), or in
PHASE = ERROR is ignored (30_encoding.md R85, 60_exceptions.md R236, R242), and RESP is returned. With a reset that cuts the
command off the registers take their reset values and no response is returned (R260, log 6). Where a command does not end,
neither does the step. With no event the block is at rest (60_exceptions.md R247, log 8). -/
def Obligations.StepRunsTheDecodedCommand : Prop :=
  ∀ (s : State) (w : CmdWord) (rest : List HostEvent),
    (s.host.events = [] → step s = .next s) ∧
    (s.host.events = .command w :: rest → ∀ i, decode (.command w) = .ok i →
      step s =
        (match exec i { s with host := { s.host with events := rest, resetAfter := none } } with
         | .next t => .next { t with host := { t.host with resps := t.host.resps ++ [t.resp] } }
         | .fault f => .fault f
         | .refused r => .refused r)) ∧
    (s.host.events = .command w :: rest → ∀ e, decode (.command w) = .error e →
      step s = .next (if s.phase = .error then { s with
          resp := ⟨.error, s.err.code.setWidth 8⟩
          host := { s.host with
            events := rest, resetAfter := none, resps := s.host.resps ++ [⟨.error, s.err.code.setWidth 8⟩] } }
        else { s with
          err := ⟨6#3, 0#1, 0#8⟩, phase := .error, resp := ⟨.error, 6#8⟩
          host := { s.host with events := rest, resetAfter := none, resps := s.host.resps ++ [⟨.error, 6#8⟩] } })) ∧
    (∀ n, s.host.events = .commandCutByReset w n :: rest → ∀ i, decode (.command w) = .ok i →
      step s =
        (match exec i { s with host := { s.host with events := rest, resetAfter := some n } } with
         | .next t => .next { t with
             wacc := ⟨0#8, 0⟩, racc := ⟨0#8, 0⟩, phase := .idle, err := ⟨0#3, 0#1, 0#8⟩, resp := ⟨.ok, 0#8⟩
             host := { t.host with resetAfter := none } }
         | .fault f => .fault f
         | .refused r => .refused r)) ∧
    (∀ n, s.host.events = .commandCutByReset w n :: rest → ∀ e, decode (.command w) = .error e →
      step s = .next { s with
        wacc := ⟨0#8, 0⟩, racc := ⟨0#8, 0⟩, phase := .idle, err := ⟨0#3, 0#1, 0#8⟩, resp := ⟨.ok, 0#8⟩
        host := { s.host with events := rest, resetAfter := none } })

/-- D.BEGIN and D.STEP run the token they read off the stream (44_pipeline.md R200 to R203; the model's choice of what a
token's own meaning is, log 7). -/
def Obligations.DecompressorRunsTheTokenItReads : Prop :=
  (∀ s t, legal .begin s.phase = true → Reads 5 (clearErrorAndAccs s) VERSION t → HostWaits s →
    exec .dBegin s = exec .streamVersion t) ∧
  (∀ s t c, s.phase = .decompress → Reads 5 s c t → HostWaits s → c ≠ ESC → exec .dStep s = exec (.streamSym c) t) ∧
  (∀ s t u l, s.phase = .decompress → Reads 5 s ESC t → Reads 8 t l u → HostWaits s →
    exec .dStep s = exec (.streamEsc l) u) ∧
  (∀ s t rest, s.phase = .decompress → Reads 5 s ESC t → HostWaits s → t.racc.count.val < 8 →
    NextPull t .endOfStream rest →
    exec .dStep s = exec .streamPadEsc (t.setHost (afterPull .endOfStream rest t.host)))

/-! ### Reset (10_state.md R35, 70_reset_and_hazards.md R260) -/

/-- R35: every register's value at reset; reset between commands gives it and keeps the ROMs. -/
def Obligations.ResetValues : Prop :=
  State.reset.wacc = ⟨0#8, 0⟩ ∧ State.reset.racc = ⟨0#8, 0⟩ ∧ State.reset.phase = .idle ∧
  State.reset.err = ⟨0#3, 0#1, 0#8⟩ ∧ State.reset.resp = ⟨.ok, 0#8⟩ ∧ statusWord State.reset = 0#16 ∧
  ∀ (s : State) (rest : List HostEvent), s.host.events = .reset :: rest →
    step s = .next { State.reset with
      params := s.params, host := { s.host with events := rest, resetAfter := none } }

/-- Reset between commands and during one (R260): the reset state, no response, and the pulls and pushes done so far kept: the
first n of the command's, for every n. That the host names n in an event is the model's choice of form (log 6). A command
that does not end has its own statements, `ResetEndsAPassThatNeverEnds` and `ResetEndsAWaitForASilentHost`. -/
def Obligations.ResetCutsTheCommandOff : Prop :=
  (∀ (s : State) (rest : List HostEvent), s.host.events = .reset :: rest →
    step s = .next { s with
      wacc := BitAcc.empty, racc := BitAcc.empty, phase := .idle, err := ⟨0#3, 0#1, 0#8⟩, resp := ⟨.ok, 0#8⟩,
      host := { s.host with events := rest, resetAfter := none } }) ∧
  ∀ (s t : State) (w : CmdWord) (rest : List HostEvent) (n : Nat),
    s.host.events = .command w :: rest → step s = .next t →
    ∃ u, step { s with host := { s.host with events := .commandCutByReset w n :: rest } } = .next u ∧
      u.wacc = BitAcc.empty ∧ u.racc = BitAcc.empty ∧ u.phase = .idle ∧ u.err = ⟨0#3, 0#1, 0#8⟩ ∧ u.resp = ⟨.ok, 0#8⟩ ∧
      u.params = s.params ∧ u.host.events = rest ∧ u.host.resps = s.host.resps ∧
      u.host.trace = t.host.trace.take (s.host.trace.length + n) ∧
      u.host.src = dropAnswers (pullCount (u.host.trace.drop s.host.trace.length)) s.host.src ∧
      u.host.snk = dropAnswers (pushCount (u.host.trace.drop s.host.trace.length)) s.host.snk

/-- A reset ends a pass that would never end, after any number of its pulls and pushes (R260, R271; the form of the cut and
the fault's name are the model's, logs 5 and 6). -/
def Obligations.ResetEndsAPassThatNeverEnds : Prop :=
  ∀ (s : State) (w : CmdWord) (rest : List HostEvent) (n : Nat),
    s.host.events = .command w :: rest → step s = .fault .passNeverEnds →
    ∃ u, step { s with host := { s.host with events := .commandCutByReset w n :: rest } } = .next u ∧
      u.wacc = BitAcc.empty ∧ u.racc = BitAcc.empty ∧ u.phase = .idle ∧ u.err = ⟨0#3, 0#1, 0#8⟩ ∧ u.resp = ⟨.ok, 0#8⟩ ∧
      u.host.resps = s.host.resps ∧ u.host.trace.length = s.host.trace.length + n

/-- A reset ends a wait for a host that never answers, and nothing else does (R260, 60_exceptions.md R243,
93_implementation_defined.md I12; the form of the cut and the fault's name are the model's, logs 4 and 6): for the pulls and
pushes `es` the host did answer, the reset may come after any number of them, the last one among them; a reset that would
come only after more answers never comes. -/
def Obligations.ResetEndsAWaitForASilentHost : Prop :=
  ∀ (s : State) (w : CmdWord) (rest : List HostEvent), s.host.events = .command w :: rest →
    step s = .fault .hostSilent →
    ∃ es : List IoEvent,
      (∀ n, n ≤ es.length →
        ∃ u, step { s with host := { s.host with events := .commandCutByReset w n :: rest } } = .next u ∧
          u.wacc = BitAcc.empty ∧ u.racc = BitAcc.empty ∧ u.phase = .idle ∧ u.err = ⟨0#3, 0#1, 0#8⟩ ∧
          u.resp = ⟨.ok, 0#8⟩ ∧ u.params = s.params ∧ u.host.events = rest ∧ u.host.resps = s.host.resps ∧
          u.host.trace = s.host.trace ++ es.take n) ∧
      ∀ n, es.length < n →
        step { s with host := { s.host with events := .commandCutByReset w n :: rest } } = .fault .hostSilent

/-! ### Errors and the phase guard (60_exceptions.md) -/

/-- R233: what a raise writes, and that it writes nothing else; no later line of the command runs. The kinds' codes are those
of R230. -/
def Obligations.RaiseWritesErrPhaseResp : Prop :=
  ∀ (e : Raised) (s : State),
    settle (.raised e s) = .next { s with
      err := ⟨errCode e.kind, if e.kind = .io then e.iodir else 0#1, e.info⟩
      phase := .error
      resp := ⟨.error, (errCode e.kind).setWidth 8⟩ } ∧
    (∀ later : Unit → State → Run Unit, settle (andThen (.raised e s) later) = settle (.raised e s)) ∧
    errCode .unsupportedCharacter = 1#3 ∧ errCode .invalidFormatVersion = 2#3 ∧ errCode .unknownCode = 3#3 ∧
    errCode .unexpectedEndOfStream = 4#3 ∧ errCode .io = 5#3 ∧ errCode .illegalCommand = 6#3

/-- R237 and R240: which commands are legal in which phase, and what one that is not does: ignored in ERROR (R242),
IllegalCommand(1) elsewhere. -/
def Obligations.PhaseGuard : Prop :=
  (∀ p, legal .raw p = decide (p = .idle)) ∧ (∀ p, legal .table p = true) ∧
  (∀ p, legal .begin p = decide (p = .idle ∨ p = .done ∨ p = .error)) ∧
  (∀ p, legal .cStep p = decide (p = .compress)) ∧ (∀ p, legal .dStep p = decide (p = .decompress)) ∧
  (∀ p, legal .idle p = true) ∧
  ∀ (i : Instr) (g : Group) (s : State), groupOf i = some g → legal g s.phase = false →
    exec i s = .next (if s.phase = .error then { s with resp := ⟨.error, s.err.code.setWidth 8⟩ }
      else { s with err := ⟨6#3, 0#1, 1#8⟩, phase := .error, resp := ⟨.error, 6#8⟩ })

/-- R234: PHASE = ERROR is left only by C.BEGIN, D.BEGIN, C.PASS, D.PASS, CTL.IDLE and reset, each of which clears ERR. -/
def Obligations.ErrorIsLeftOnlyByRestarting : Prop :=
  ∀ s t : State, s.phase = .error → step s = .next t → t.phase ≠ .error →
    t.err = ⟨0#3, 0#1, 0#8⟩ ∧
    ((∃ rest, s.host.events = .reset :: rest) ∨
     (∃ w n rest, s.host.events = .commandCutByReset w n :: rest) ∨
     (∃ w i rest, s.host.events = .command w :: rest ∧ decodeWord w = .ok i ∧
       i ∈ [Instr.cBegin, .dBegin, .cPass, .dPass, .ctlIdle]))

/-- R235 and R242: in PHASE = ERROR every other word leaves ERR, PHASE and the accumulators as they are and does no I/O, so
ERR keeps the first error. -/
def Obligations.FirstErrorIsKept : Prop :=
  ∀ (s t : State) (w : CmdWord) (rest : List HostEvent), s.phase = .error → s.host.events = .command w :: rest →
    (∀ i, decodeWord w = .ok i → i ∉ [Instr.cBegin, .dBegin, .cPass, .dPass, .ctlIdle]) → step s = .next t →
    t.err = s.err ∧ t.phase = .error ∧ t.wacc = s.wacc ∧ t.racc = s.racc ∧ t.host.trace = s.host.trace ∧
    ((∀ b, decodeWord w ≠ .ok (.tblEncode b)) → (∀ c, decodeWord w ≠ .ok (.tblDecode c)) →
      t.resp = ⟨.error, s.err.code.setWidth 8⟩)

/-- R241: TBL.ENCODE, TBL.DECODE and CTL.IDLE are legal in every phase, and the lookups change only RESP. -/
def Obligations.AlwaysLegalCommands : Prop :=
  ∀ s : State,
    (∀ b, ∃ v, exec (.tblEncode b) s = .next { s with resp := ⟨.ok, v⟩ }) ∧
    (∀ c, ∃ r, exec (.tblDecode c) s = .next { s with resp := r } ∧ r.status ≠ .error) ∧
    (∃ t, exec .ctlIdle s = .next t ∧ t.resp = ⟨.ok, 0#8⟩)

/-- R31: the layout of STATUS with the numbers of R29, and its value at reset; the numbers of RESP.status (R32). -/
def Obligations.StatusLayout : Prop :=
  statusWord State.reset = 0#16 ∧
  (∀ s : State,
    (statusWord s).extractLsb' 0 3 =
      (match s.phase with
       | .idle => 0#3
       | .compress => 1#3
       | .decompress => 2#3
       | .done => 3#3
       | .error => 4#3) ∧
    (statusWord s).getLsbD 3 = false ∧
    (statusWord s).extractLsb' 4 3 = s.err.code ∧ (statusWord s).extractLsb' 7 1 = s.err.iodir ∧
    (statusWord s).extractLsb' 8 8 = s.err.info) ∧
  respStatusCode .ok = 0#2 ∧ respStatusCode .none = 1#2 ∧ respStatusCode .eos = 2#2 ∧ respStatusCode .error = 3#2

/-! ### Whole-machine rules -/

/-- Every step from a safe state leads to a safe state: `bits < 2^count` (10_state.md R23), what the accumulators hold in
each phase (R33, 70_reset_and_hazards.md R270), ERR's values (R29, R30, 60_exceptions.md R230), RESP's values (R32), the alphabet's constraints (00_scope.md R7 (a), (b)). -/
def Obligations.EveryStepKeepsInv : Prop :=
  ∀ s t : State, Inv s → step s = .next t → Inv t

/-- The state after reset is safe (R35); its alphabet, whatever the free value is, meets R7 (a) and (b) (the model's choice,
log 2). -/
def Obligations.InvHoldsAtReset : Prop :=
  Inv State.reset

/-- R28: no step changes the ROMs (nor the other parameters, R34), so every lookup answers as before. -/
def Obligations.RomsAreReadOnly : Prop :=
  ∀ s t : State, step s = .next t →
    t.params = s.params ∧ (∀ b, encodeByte t.params b = encodeByte s.params b) ∧
    (∀ c, decodeCode t.params c = decodeCode s.params c)

/-- The sink is append-only and the source is consumed in order: the record of pulls and pushes only grows, and the answers in
it are the host's, in order, none skipped or repeated (20_memory.md R51, R52, R58, 60_exceptions.md R233). -/
def Obligations.IoRecordOnlyGrows : Prop :=
  ∀ s t : State, step s = .next t →
    ∃ es, t.host.trace = s.host.trace ++ es ∧ sinkBytes t = sinkBytes s ++ acceptedBytes es ∧
      pulledAnswers es = (takeAnswers (pullCount es) s.host.src).map srcAnswer ∧
      pushedAnswers es = (takeAnswers (pushCount es) s.host.snk).map (fun r => !r.fail) ∧
      t.host.src = dropAnswers (pullCount es) s.host.src ∧ t.host.snk = dropAnswers (pushCount es) s.host.snk

/-- 44_pipeline.md R206: no step raises UnknownCode. -/
def Obligations.UnknownCodeIsUnreachable : Prop :=
  ∀ s t : State, step s = .next t → t.err.code = 3#3 → s.err.code = 3#3

/-- With a source that comes to End or IoFail for ever and a sink that always answers, every step ends (60_exceptions.md
R243, 70_reset_and_hazards.md R271). -/
def Obligations.EveryStepEndsUnderTheLaunchPremise : Prop :=
  ∀ (s : State) (r : SrcReply) (q : SnkReply), s.host.src.after = some r → (∀ b, srcAnswer r ≠ .byte b) →
    s.host.snk.after = some q → ∃ t, step s = .next t

/-- The model's bound on a pass's rounds is no choice of outcome: more rounds change nothing (log 5; R192, R205, R271). -/
def Obligations.MoreRoundsChangeNothing : Prop :=
  ∀ (s : State) (n : Nat), passRounds s ≤ n →
    passLoop .compress compressStep n s = passLoop .compress compressStep (passRounds s) s ∧
    passLoop .decompress decompressStep n s = passLoop .decompress decompressStep (passRounds s) s

/-- R192 and R205: C.PASS is C.BEGIN and then C.STEP while PHASE is COMPRESS, and D.PASS is D.BEGIN and then D.STEP while
PHASE is DECOMPRESS, for every host and every reader mode; `passRounds` bounds the rounds of a pass that ends (log 5). -/
def Obligations.PassesRunTheirSteps : Prop :=
  ∀ s : State, legal .begin s.phase = true →
    exec .cPass s = thenRun (exec .cBegin s) (fun t => runWhile .compress .cStep (passRounds t) t) ∧
    exec .dPass s = thenRun (exec .dBegin s) (fun t => runWhile .decompress .dStep (passRounds t) t)

/-- R271: with a source that keeps answering bytes and a sink that accepts, C.PASS (on ASCII bytes) and D.PASS (on a stream
that begins with the version code) never end. -/
def Obligations.NeverEndingSource : Prop :=
  (∀ (s : State) (xs : List Byte) (b : Byte), legal .begin s.phase = true → HostWaits s → SinkAccepts s →
    SourceGives s (xs.map .byte) (.byte b) → Ascii xs → b.toNat < 0x80 →
    exec .cPass s = .fault .passNeverEnds) ∧
  (∀ (s : State) (xs : List Byte) (b B : Byte) (rest : Answers SrcReply), legal .begin s.phase = true → HostWaits s →
    SinkAccepts s → SourceGives s (xs.map .byte) (.byte b) → NextPull s (.byte B) rest → B.toNat / 8 = 1 →
    exec .dPass s = .fault .passNeverEnds)

/-- 60_exceptions.md R243: a command that asks a port whose host does not answer does not end (its name in the model is the
fault `hostSilent`, log 4). On the source: each read of 5 and of 8 bits that needs a byte, the literal read of D.STEP among
them, whether its code was held or refilled. On the sink: the first push of each command that pushes, and the second of
WR.WRITE8 and of C.STEP. The passes have `SilentHostLeavesAPassStuck`. -/
def Obligations.SilentHostLeavesTheBlockStuck : Prop :=
  ∀ s : State, HostWaits s →
    (nextAnswer s.host.src = none →
      (s.phase = .idle → s.racc.count.val < 5 → exec .rdRead5 s = .fault .hostSilent) ∧
      (s.phase = .idle → s.racc.count.val < 8 → exec .rdRead8 s = .fault .hostSilent) ∧
      (s.phase = .compress → exec .cStep s = .fault .hostSilent) ∧
      (legal .begin s.phase = true → exec .dBegin s = .fault .hostSilent) ∧
      (s.phase = .decompress → s.racc.count.val < 5 → exec .dStep s = .fault .hostSilent)) ∧
    (∀ t, s.phase = .decompress → Reads 5 s ESC t → t.racc.count.val < 8 → nextAnswer t.host.src = none →
      exec .dStep s = .fault .hostSilent) ∧
    (nextAnswer s.host.snk = none →
      (∀ v, s.phase = .idle → 3 ≤ s.wacc.count.val → exec (.wrWrite5 v) s = .fault .hostSilent) ∧
      (∀ v, s.phase = .idle → exec (.wrWrite8 v) s = .fault .hostSilent) ∧
      (s.phase = .idle → 1 ≤ s.wacc.count.val → exec .wrFlush s = .fault .hostSilent) ∧
      (∀ b rest, s.phase = .compress → NextPull s (.byte b) rest → b.toNat < 0x80 →
        8 ≤ s.wacc.count.val + (tokenBits (tokenOfByte s.params b)).length → exec .cStep s = .fault .hostSilent) ∧
      (∀ rest, s.phase = .compress → NextPull s .endOfStream rest → 1 ≤ s.wacc.count.val →
        exec .cStep s = .fault .hostSilent) ∧
      (∀ c t, s.phase = .decompress → Reads 5 s c t → c ≠ ESC → exec .dStep s = .fault .hostSilent) ∧
      (∀ t l u, s.phase = .decompress → Reads 5 s ESC t → Reads 8 t l u → exec .dStep s = .fault .hostSilent)) ∧
    (SecondPushSilent s →
      (∀ v, s.phase = .idle → s.wacc.count.val = 8 → exec (.wrWrite8 v) s = .fault .hostSilent) ∧
      (∀ b rest, s.phase = .compress → NextPull s (.byte b) rest → b.toNat < 0x80 →
        16 ≤ s.wacc.count.val + (tokenBits (tokenOfByte s.params b)).length → exec .cStep s = .fault .hostSilent))

/-- 60_exceptions.md R243 for the passes (the fault `hostSilent`, log 4): a pass is stuck where its BEGIN is, and where one of
its steps is, after any number of steps, in every mode. So C.PASS is stuck on a source that falls silent after ASCII bytes,
and on a sink that falls silent before the last byte of the stream; and D.PASS, in Retain mode on a stream the
compressor writes, on a source that falls silent after it, and on a sink that falls silent before the last byte. -/
def Obligations.SilentHostLeavesAPassStuck : Prop :=
  ∀ s : State, legal .begin s.phase = true → HostWaits s →
    (exec .dBegin s = .fault .hostSilent → exec .dPass s = .fault .hostSilent) ∧
    (∀ t n u, exec .cBegin s = .next t → runTimes .cStep n t = .next u → u.phase = .compress →
      exec .cStep u = .fault .hostSilent → exec .cPass s = .fault .hostSilent) ∧
    (∀ t n u, exec .dBegin s = .next t → runTimes .dStep n t = .next u → u.phase = .decompress →
      exec .dStep u = .fault .hostSilent → exec .dPass s = .fault .hostSilent) ∧
    ∀ xs : List Byte, Ascii xs →
      (SinkAccepts s → s.host.src.queued.map srcAnswer = xs.map .byte → s.host.src.after = none →
        exec .cPass s = .fault .hostSilent) ∧
      (∀ n, SinkSilentAfter n s → n < (compressed s.params xs).length → SourceGives s (xs.map .byte) .endOfStream →
        exec .cPass s = .fault .hostSilent) ∧
      (alphabetOk s.params.alphabet = true → s.params.readerMode = .retain →
        (SinkAccepts s → s.host.src.queued.map srcAnswer = (compressed s.params xs).map .byte →
          s.host.src.after = none → exec .dPass s = .fault .hostSilent) ∧
        ∀ n, SinkSilentAfter n s → n < xs.length → SourceGives s ((compressed s.params xs).map .byte) .endOfStream →
          exec .dPass s = .fault .hostSilent)

/-- R269: within a pass no pull follows an End, and the pass is over after it. -/
def Obligations.NoPullAfterEnd : Prop :=
  ∀ (i : Instr) (s t : State) (es xs ys : List IoEvent), i ∈ [Instr.cBegin, .cStep, .cPass, .dBegin, .dStep, .dPass] →
    exec i s = .next t → t.host.trace = s.host.trace ++ es → es = xs ++ .pull .endOfStream :: ys →
    pullCount ys = 0 ∧ t.phase ≠ .compress ∧ t.phase ≠ .decompress

/-- R209: how many bytes the commands of the pipeline pull and push. -/
def Obligations.IoCounts : Prop :=
  ∀ (s t : State) (es : List IoEvent), HostWaits s → t.host.trace = s.host.trace ++ es →
    (legal .begin s.phase = true → exec .cBegin s = .next t → es = []) ∧
    (s.phase = .compress → exec .cStep s = .next t →
      pullCount es = 1 ∧ pushCount es ≤ 2 ∧ (pushCount es = 2 → 3 ≤ s.wacc.count.val) ∧
      (.pull .endOfStream ∈ es → pushCount es ≤ 1)) ∧
    (legal .begin s.phase = true → exec .dBegin s = .next t → pullCount es = 1 ∧ pushCount es = 0) ∧
    (s.phase = .decompress → exec .dStep s = .next t → pullCount es ≤ 2 ∧ pushCount es ≤ 1)

/-! ### The accumulator (40_accumulator.md) -/

/-- R101: `Push` shifts the bit in below the bits held, drops none of them, and keeps `bits < 2^count`. -/
def Obligations.PushShiftsOneBitIn : Prop :=
  ∀ (a : BitAcc) (b : Bool), a.count.val < 8 → accOk a →
    (pushBit a b).bits.toNat = 2 * a.bits.toNat + b.toNat ∧ (pushBit a b).count.val = a.count.val + 1 ∧
    accOk (pushBit a b) ∧ validBits (pushBit a b) = validBits a ++ [b]

/-- R105: n pushes into an empty accumulator spell an n-bit number, the first bit most significant. -/
def Obligations.PushesSpellANumber : Prop :=
  ∀ bs : List Bool, bs.length ≤ 8 →
    (bs.foldl pushBit BitAcc.empty).count.val = bs.length ∧
    (bs.foldl pushBit BitAcc.empty).bits.toNat = natOfBits bs ∧
    ∀ k, k < bs.length → (bs.foldl pushBit BitAcc.empty).bits.getLsbD (bs.length - 1 - k) = bs.getD k false

/-- ACC.PUSH, its result and its frame (R82, R100, R102): sel picks WACC or RACC, and that accumulator and RESP change; a full
one raises IllegalCommand(2). -/
def Obligations.AccPushRuns : Prop :=
  ∀ (s : State) (bit : Bool), s.phase = .idle →
    (∀ a : BitAcc, s.wacc.count.val < 8 → a.bits = s.wacc.bits <<< 1 ||| (if bit then 1#8 else 0#8) →
      a.count.val = s.wacc.count.val + 1 →
      exec (.accPush .wacc bit) s =
        .next { s with wacc := a, resp := ⟨.ok, BitVec.ofNat 8 (s.wacc.count.val + 1)⟩ }) ∧
    (∀ a : BitAcc, s.racc.count.val < 8 → a.bits = s.racc.bits <<< 1 ||| (if bit then 1#8 else 0#8) →
      a.count.val = s.racc.count.val + 1 →
      exec (.accPush .racc bit) s =
        .next { s with racc := a, resp := ⟨.ok, BitVec.ofNat 8 (s.racc.count.val + 1)⟩ }) ∧
    (s.wacc.count.val = 8 → exec (.accPush .wacc bit) s =
      .next { s with err := ⟨6#3, 0#1, 2#8⟩, phase := .error, resp := ⟨.error, 6#8⟩ }) ∧
    (s.racc.count.val = 8 → exec (.accPush .racc bit) s =
      .next { s with err := ⟨6#3, 0#1, 2#8⟩, phase := .error, resp := ⟨.error, 6#8⟩ })

/-- ACC.ISFULL and ACC.CLEAR (R82, R100, R103, R104): results and frames, for WACC and for RACC. -/
def Obligations.AccIsFullAndClearRun : Prop :=
  ∀ s : State, s.phase = .idle →
    exec (.accIsFull .wacc) s = .next { s with resp := ⟨.ok, if s.wacc.count.val = 8 then 1#8 else 0#8⟩ } ∧
    exec (.accIsFull .racc) s = .next { s with resp := ⟨.ok, if s.racc.count.val = 8 then 1#8 else 0#8⟩ } ∧
    exec (.accClear .wacc) s = .next { s with wacc := ⟨0#8, 0⟩, resp := ⟨.ok, 0#8⟩ } ∧
    exec (.accClear .racc) s = .next { s with racc := ⟨0#8, 0⟩, resp := ⟨.ok, 0#8⟩ }

/-! ### The writer (41_writer.md) -/

/-- WR.WRITE5 and WR.WRITE8 append their bits, most significant first; the bytes this completes go to the sink, the bits
left stay in WACC, and only RESP changes besides (R121, R125, R126). -/
def Obligations.WriteCommandsAppendTheirBits : Prop :=
  ∀ s : State, s.phase = .idle → accOk s.wacc → HostWaits s → SinkAccepts s →
    (∀ v : Code, exec (.wrWrite5 v) s = .next { s with
      wacc := accOf (leftover (validBits s.wacc ++ msbBits 5 v))
      resp := ⟨.ok, BitVec.ofNat 8 ((s.wacc.count.val + 5) % 8)⟩
      host := afterPushes (wholeBytes (validBits s.wacc ++ msbBits 5 v)) s.host }) ∧
    (∀ v : Byte, exec (.wrWrite8 v) s = .next { s with
      wacc := accOf (leftover (validBits s.wacc ++ msbBits 8 v))
      resp := ⟨.ok, BitVec.ofNat 8 (s.wacc.count.val % 8)⟩
      host := afterPushes (wholeBytes (validBits s.wacc ++ msbBits 8 v)) s.host })

/-- R124: how many drains WriteBits makes, what they drain, and what stays; after WriteBits and FlushW at most 7 bits are
pending. -/
def Obligations.WriterArithmetic : Prop :=
  ∀ (s : State) (w : Nat) (v : BitVec w), (w = 5 ∨ w = 8) → accOk s.wacc → HostWaits s → SinkAccepts s →
    ∃ t, writeBits w v s = .ok () t ∧ t.wacc.count.val ≤ 7 ∧ accOk t.wacc ∧
      (s.wacc.count.val ≤ 7 →
        (sinkBytes t).length = (sinkBytes s).length + (s.wacc.count.val + w) / 8 ∧
        (s.wacc.count.val + w) / 8 ≤ 1 ∧
        t.wacc.count.val = (s.wacc.count.val + w) % 8 ∧
        (8 ≤ s.wacc.count.val + w →
          sinkBytes t = sinkBytes s ++ [ofMsbBits 8 ((validBits s.wacc ++ msbBits w v).take 8)] ∧
          validBits t.wacc = (validBits s.wacc ++ msbBits w v).drop 8) ∧
        (s.wacc.count.val + w < 8 → validBits t.wacc = validBits s.wacc ++ msbBits w v)) ∧
      (s.wacc.count.val = 8 →
        (sinkBytes t).length = (sinkBytes s).length + (1 + w / 8) ∧ t.wacc.count.val = w % 8) ∧
      ∃ u, flushW t = .ok () u ∧ u.wacc.count.val = 0

/-- A push that the sink refuses ends WR.WRITE5, WR.WRITE8 and WR.FLUSH with Io(iodir = 1), nothing appended by it; WACC is
left full at a drain, and with the bits it held at the flush's own push. WR.WRITE8 from a full WACC drains twice, so there
the second push can be the refused one: the first byte is then at the sink (R120 to R122, R125 to R127, 60_exceptions.md
R233). -/
def Obligations.RefusedDrainRaisesIo : Prop :=
  ∀ (s : State) (rest : Answers SnkReply), s.phase = .idle → accOk s.wacc → HostWaits s →
    (NextPushFails s rest →
      (∀ v : Code, 8 ≤ s.wacc.count.val + 5 → exec (.wrWrite5 v) s = .next { s with
        wacc := accOf ((validBits s.wacc ++ msbBits 5 v).take 8)
        err := ⟨5#3, 1#1, 0#8⟩, phase := .error, resp := ⟨.error, 5#8⟩
        host := afterRefusal (ofMsbBits 8 ((validBits s.wacc ++ msbBits 5 v).take 8)) rest s.host }) ∧
      (∀ v : Byte, exec (.wrWrite8 v) s = .next { s with
        wacc := accOf ((validBits s.wacc ++ msbBits 8 v).take 8)
        err := ⟨5#3, 1#1, 0#8⟩, phase := .error, resp := ⟨.error, 5#8⟩
        host := afterRefusal (ofMsbBits 8 ((validBits s.wacc ++ msbBits 8 v).take 8)) rest s.host }) ∧
      (1 ≤ s.wacc.count.val → exec .wrFlush s = .next { s with
        wacc := accOf (validBits s.wacc ++ if s.wacc.count.val ≤ 3 then msbBits 5 ESC else [])
        err := ⟨5#3, 1#1, 0#8⟩, phase := .error, resp := ⟨.error, 5#8⟩
        host := afterRefusal (ofMsbBits 8 (validBits s.wacc ++ terminalBits (s.wacc.count.val % 8))) rest s.host })) ∧
    (SecondPushFails s rest → s.wacc.count.val = 8 →
      ∀ v : Byte, exec (.wrWrite8 v) s = .next { s with
        wacc := ⟨v, 8⟩
        err := ⟨5#3, 1#1, 0#8⟩, phase := .error, resp := ⟨.error, 5#8⟩
        host := afterSecondRefusal s.wacc.bits v rest s.host })

/-- WR.FLUSH for every leftover count (R122, R123, R127): the byte it emits, WACC empty, RESP = {OK, 0}, nothing else
changed. -/
def Obligations.FlushTable : Prop :=
  ∀ (s : State) (k : Nat) (p : List Bool), s.phase = .idle → accOk s.wacc → HostWaits s → SinkAccepts s →
    k = s.wacc.count.val → p = validBits s.wacc →
    ∃ t, exec .wrFlush s = .next t ∧
      sinkBytes t = sinkBytes s ++
        (if k = 0 then []
         else if k ≤ 3 then [ofMsbBits 8 (p ++ [true, true, true, true, true] ++ List.replicate (3 - k) false)]
         else [ofMsbBits 8 (p ++ List.replicate (8 - k) false)]) ∧
      t = { s with
        wacc := BitAcc.empty, resp := ⟨.ok, 0#8⟩
        host := { s.host with snk := t.host.snk, trace := t.host.trace } }

/-! ### The reader (42_reader.md) -/

/-- RD.READ5 and RD.READ8 (R140 to R144, R150, R151): the value read and what stays in RACC, in both modes; at the end of
the stream EOS, and on a failing source Io(iodir = 0), with RACC unchanged. -/
def Obligations.ReadCommandsRun : Prop :=
  ∀ s : State, s.phase = .idle → HostWaits s →
    (∀ v t, Reads 5 s v t → exec .rdRead5 s = .next (t.setResp ⟨.ok, v.setWidth 8⟩)) ∧
    (∀ v t, Reads 8 s v t → exec .rdRead8 s = .next (t.setResp ⟨.ok, v⟩)) ∧
    (∀ rest, NextPull s .endOfStream rest →
      (s.racc.count.val < 5 → exec .rdRead5 s =
        .next { s with resp := ⟨.eos, 0#8⟩, host := afterPull .endOfStream rest s.host }) ∧
      (s.racc.count.val < 8 → exec .rdRead8 s =
        .next { s with resp := ⟨.eos, 0#8⟩, host := afterPull .endOfStream rest s.host })) ∧
    (∀ rest, NextPull s .ioFail rest →
      (s.racc.count.val < 5 → exec .rdRead5 s = .next { s with
        err := ⟨5#3, 0#1, 0#8⟩, phase := .error, resp := ⟨.error, 5#8⟩, host := afterPull .ioFail rest s.host }) ∧
      (s.racc.count.val < 8 → exec .rdRead8 s = .next { s with
        err := ⟨5#3, 0#1, 0#8⟩, phase := .error, resp := ⟨.error, 5#8⟩, host := afterPull .ioFail rest s.host }))

/-- 70_reset_and_hazards.md R263 and 93_implementation_defined.md I9: the four values of src_kind are Byte, End, IoFail, and
IoFail again; and RD.READ8 with an empty RACC does what each of them says. -/
def Obligations.SourceAnswerKinds : Prop :=
  (∀ b, srcAnswer ⟨0#2, b⟩ = .byte b ∧ srcAnswer ⟨1#2, b⟩ = .endOfStream ∧ srcAnswer ⟨2#2, b⟩ = .ioFail ∧
    srcAnswer ⟨3#2, b⟩ = .ioFail) ∧
  ∀ (s : State) (k : BitVec 2) (b : Byte) (rest : List SrcReply), s.phase = .idle → HostWaits s →
    s.racc = ⟨0#8, 0⟩ → s.host.src.queued = ⟨k, b⟩ :: rest →
    ∃ t, exec .rdRead8 s = .next t ∧ t.racc = s.racc ∧ t.host.src = { s.host.src with queued := rest } ∧
      (k = 0#2 → t.resp = ⟨.ok, b⟩ ∧ t.phase = .idle ∧ t.err = s.err ∧ t.host.trace = s.host.trace ++ [.pull (.byte b)]) ∧
      (k = 1#2 → t.resp = ⟨.eos, 0#8⟩ ∧ t.phase = .idle ∧ t.err = s.err ∧
        t.host.trace = s.host.trace ++ [.pull .endOfStream]) ∧
      (k = 2#2 ∨ k = 3#2 → t.resp = ⟨.error, 5#8⟩ ∧ t.phase = .error ∧ t.err = ⟨5#3, 0#1, 0#8⟩ ∧
        t.host.trace = s.host.trace ++ [.pull .ioFail])

/-- R145: a refill in Retain mode: the value, the count and the bits that stay; and successive reads cut the bits held and
the source's bits into consecutive pieces, with EOS where a piece would run past the end. -/
def Obligations.RetainArithmetic : Prop :=
  (∀ (s : State) (w : Nat) (B : Byte) (rest : Answers SrcReply), (w = 5 ∨ w = 8) → s.params.readerMode = .retain →
    HostWaits s → s.racc.count.val < w → NextPull s (.byte B) rest →
    ∃ t, readBits w s =
        .ok (some (ofMsbBits w (validBits s.racc ++ (msbBits 8 B).take (w - s.racc.count.val)))) t ∧
      t.racc.count.val = s.racc.count.val + 8 - w ∧
      t.racc.bits.toNat = B.toNat % 2 ^ (8 - (w - s.racc.count.val))) ∧
  (∀ (s : State) (widths : List Nat) (bytes : List Byte), (∀ w ∈ widths, w = 5 ∨ w = 8) →
    s.params.readerMode = .retain → HostWaits s → s.racc.count.val ≤ 7 →
    SourceGives s (bytes.map .byte) .endOfStream →
    ∃ t, readMany widths s = .ok (cutPieces widths (validBits s.racc ++ bitsOf bytes)) t ∧ t.racc.count.val ≤ 7)

/-- R143 and R146: a refill in Discard mode leaves RACC empty, and from an empty RACC every read takes one whole byte and
returns its top bits. -/
def Obligations.DiscardArithmetic : Prop :=
  ∀ (s : State) (w : Nat) (B : Byte) (rest : Answers SrcReply), (w = 5 ∨ w = 8) → s.params.readerMode = .discard →
    HostWaits s → s.racc.count.val < w → NextPull s (.byte B) rest →
    ∃ v t, readBits w s = .ok (some v) t ∧ t.racc = BitAcc.empty ∧ t.host = afterPull (.byte B) rest s.host ∧
      v = ofMsbBits w (validBits s.racc ++ (msbBits 8 B).take (w - s.racc.count.val)) ∧
      (s.racc = BitAcc.empty → v.toNat = B.toNat / 2 ^ (8 - w))

/-! ### The symbol table (43_symbol_table.md) -/

/-- TBL.ENCODE and TBL.DECODE (R172, R173, R175, R176): the answers in every phase; only RESP changes. -/
def Obligations.TableCommandsRun : Prop :=
  ∀ s : State, alphabetOk s.params.alphabet = true →
    (∀ (c : Nat) (b : Byte), s.params.alphabet.toList[c]? = some b →
      exec (.tblEncode b) s = .next { s with resp := ⟨.ok, BitVec.ofNat 8 c⟩ } ∧
      exec (.tblDecode (BitVec.ofNat 8 c)) s = .next { s with resp := ⟨.ok, b⟩ }) ∧
    (∀ b, b ∉ s.params.alphabet.toList → exec (.tblEncode b) s = .next { s with resp := ⟨.ok, 31#8⟩ }) ∧
    (∀ c : Byte, 31 ≤ c.toNat → exec (.tblDecode c) s = .next { s with resp := ⟨.none, 0#8⟩ })

/-- R174 and 10_state.md R27: the table's lemmas. -/
def Obligations.TableLemmas : Prop :=
  ∀ p : Params, alphabetOk p.alphabet = true →
    (∀ (c : Nat) (b : Byte), p.alphabet.toList[c]? = some b →
      encodeByte p b = BitVec.ofNat 5 c ∧ decodeCode p ((encodeByte p b).setWidth 8) = some b) ∧
    (∀ b, encodeByte p b = ESC ↔ b ∉ p.alphabet.toList) ∧
    decodeCode p (ESC.setWidth 8) = none ∧
    ((List.range 256).countP fun n => encodeByte p (BitVec.ofNat 8 n) == ESC) = 225

/-! ### The compress pass (44_pipeline.md) -/

/-- C.BEGIN (R190): it writes the version code into an empty WACC, without I/O. -/
def Obligations.CBeginRuns : Prop :=
  ∀ s : State, legal .begin s.phase = true →
    exec .cBegin s = .next { s with
      wacc := ⟨1#8, 5⟩, racc := BitAcc.empty, phase := .compress, err := ⟨0#3, 0#1, 0#8⟩, resp := ⟨.ok, 1#8⟩ }

/-- C.STEP (R191, 60_exceptions.md R236): an ASCII byte is written as its token; at the end of the input the writer is
flushed and the pass ends; a byte of 0x80 or more and a failing source raise before anything is written. -/
def Obligations.CStepRuns : Prop :=
  ∀ (s : State) (rest : Answers SrcReply), s.phase = .compress → HostWaits s → accOk s.wacc →
    (∀ b, NextPull s (.byte b) rest → b.toNat < 0x80 → SinkAccepts s →
      exec .cStep s = .next { s with
        wacc := accOf (leftover (validBits s.wacc ++ tokenBits (tokenOfByte s.params b)))
        resp := ⟨.ok, (encodeByte s.params b).setWidth 8⟩
        host := afterPushes (wholeBytes (validBits s.wacc ++ tokenBits (tokenOfByte s.params b)))
          (afterPull (.byte b) rest s.host) }) ∧
    (NextPull s .endOfStream rest → SinkAccepts s →
      exec .cStep s = .next { s with
        wacc := BitAcc.empty, phase := .done, resp := ⟨.eos, 0#8⟩
        host := afterPushes (flushedBytes (validBits s.wacc)) (afterPull .endOfStream rest s.host) }) ∧
    (∀ b, NextPull s (.byte b) rest → 0x80 ≤ b.toNat →
      exec .cStep s = .next { s with
        err := ⟨1#3, 0#1, b⟩, phase := .error, resp := ⟨.error, 1#8⟩, host := afterPull (.byte b) rest s.host }) ∧
    (NextPull s .ioFail rest →
      exec .cStep s = .next { s with
        err := ⟨5#3, 0#1, 0#8⟩, phase := .error, resp := ⟨.error, 5#8⟩, host := afterPull .ioFail rest s.host })

/-- A push that the sink refuses ends C.STEP with Io(iodir = 1) after the pull, nothing appended by it: at a drain WACC is
left full, at the flush with the bits it held. An escape token that completes two bytes can have its second push refused: the
first byte is then at the sink (R191, R209, 41_writer.md R120, R122, 60_exceptions.md R233, R236). -/
def Obligations.CStepRefusedPush : Prop :=
  ∀ (s : State) (rest : Answers SrcReply) (more : Answers SnkReply), s.phase = .compress → HostWaits s →
    accOk s.wacc →
    (∀ b, NextPushFails s more → NextPull s (.byte b) rest → b.toNat < 0x80 →
      8 ≤ s.wacc.count.val + (tokenBits (tokenOfByte s.params b)).length →
      exec .cStep s = .next { s with
        wacc := accOf ((validBits s.wacc ++ tokenBits (tokenOfByte s.params b)).take 8)
        err := ⟨5#3, 1#1, 0#8⟩, phase := .error, resp := ⟨.error, 5#8⟩
        host := afterRefusal (ofMsbBits 8 ((validBits s.wacc ++ tokenBits (tokenOfByte s.params b)).take 8)) more
          (afterPull (.byte b) rest s.host) }) ∧
    (NextPushFails s more → NextPull s .endOfStream rest → 1 ≤ s.wacc.count.val →
      exec .cStep s = .next { s with
        wacc := accOf (validBits s.wacc ++ if s.wacc.count.val ≤ 3 then msbBits 5 ESC else [])
        err := ⟨5#3, 1#1, 0#8⟩, phase := .error, resp := ⟨.error, 5#8⟩
        host := afterRefusal (ofMsbBits 8 (validBits s.wacc ++ terminalBits (s.wacc.count.val % 8))) more
          (afterPull .endOfStream rest s.host) }) ∧
    (∀ b, SecondPushFails s more → NextPull s (.byte b) rest → b.toNat < 0x80 →
      16 ≤ s.wacc.count.val + (tokenBits (tokenOfByte s.params b)).length →
      exec .cStep s = .next { s with
        wacc := accOf (((validBits s.wacc ++ tokenBits (tokenOfByte s.params b)).drop 8).take 8)
        err := ⟨5#3, 1#1, 0#8⟩, phase := .error, resp := ⟨.error, 5#8⟩
        host := afterSecondRefusal (ofMsbBits 8 ((validBits s.wacc ++ tokenBits (tokenOfByte s.params b)).take 8))
          (ofMsbBits 8 (((validBits s.wacc ++ tokenBits (tokenOfByte s.params b)).drop 8).take 8)) more
          (afterPull (.byte b) rest s.host) })

/-- R193, the compress output law: C.PASS pushes exactly the stream of 30_encoding.md R70 to R75, `ceil(T/8)` bytes, and
ends DONE with both accumulators empty. -/
def Obligations.CompressOutputLaw : Prop :=
  ∀ (s : State) (xs : List Byte), legal .begin s.phase = true → HostWaits s → SinkAccepts s → Ascii xs →
    SourceGives s (xs.map .byte) .endOfStream →
    ∃ t, exec .cPass s = .next t ∧ sinkBytes t = sinkBytes s ++ compressed s.params xs ∧
      (compressed s.params xs).length = (5 + 5 * xs.length + 8 * escapedCount s.params xs + 7) / 8 ∧
      t = { s with
        wacc := BitAcc.empty, racc := BitAcc.empty, phase := .done, err := ⟨0#3, 0#1, 0#8⟩, resp := ⟨.eos, 0#8⟩
        host := { s.host with src := t.host.src, snk := t.host.snk, trace := t.host.trace } }

/-- R194: after an error in C.PASS the sink holds the first bytes of the stream: the whole bytes of the bits written before
an unsupported byte or a failing source, and the bytes answered Ok before a refused push. -/
def Obligations.CompressErrorLeavesAPrefix : Prop :=
  ∀ (s : State) (xs : List Byte), legal .begin s.phase = true → HostWaits s → Ascii xs →
    (∀ (b : Byte) (more : List SrcAnswer), SinkAccepts s → 0x80 ≤ b.toNat →
      s.host.src.queued.map srcAnswer = xs.map .byte ++ .byte b :: more →
      ∃ t, exec .cPass s = .next t ∧ t.phase = .error ∧ t.err = ⟨1#3, 0#1, b⟩ ∧
        sinkBytes t = sinkBytes s ++ wholeBytes (dataBits s.params xs)) ∧
    (∀ more : List SrcAnswer, SinkAccepts s →
      s.host.src.queued.map srcAnswer = xs.map .byte ++ .ioFail :: more →
      ∃ t, exec .cPass s = .next t ∧ t.phase = .error ∧ t.err = ⟨5#3, 0#1, 0#8⟩ ∧
        sinkBytes t = sinkBytes s ++ wholeBytes (dataBits s.params xs)) ∧
    (∀ oks bad more, s.host.snk.queued = oks ++ bad :: more → (∀ r ∈ oks, r.fail = false) → bad.fail = true →
      oks.length < (compressed s.params xs).length → SourceGives s (xs.map .byte) .endOfStream →
      ∃ t, exec .cPass s = .next t ∧ t.phase = .error ∧ t.err = ⟨5#3, 1#1, 0#8⟩ ∧
        sinkBytes t = sinkBytes s ++ (compressed s.params xs).take oks.length) ∧
    (∀ ys, wholeBytes (dataBits s.params xs) <+: compressed s.params (xs ++ ys)) ∧
    (wholeBytes (dataBits s.params xs)).length = (dataBits s.params xs).length / 8

/-! ### The decompress pass (44_pipeline.md) -/

/-- D.BEGIN (R200, 60_exceptions.md R236): the version check, and what stays in RACC in each mode. -/
def Obligations.DBeginRuns : Prop :=
  ∀ (s : State) (rest : Answers SrcReply), legal .begin s.phase = true → HostWaits s →
    (∀ B : Byte, NextPull s (.byte B) rest → B.toNat / 8 = 1 →
      exec .dBegin s = .next { s with
        wacc := BitAcc.empty
        racc := (match s.params.readerMode with
          | .retain => accOf (msbBits 3 B)
          | .discard => BitAcc.empty)
        phase := .decompress, err := ⟨0#3, 0#1, 0#8⟩, resp := ⟨.ok, 1#8⟩
        host := afterPull (.byte B) rest s.host }) ∧
    (∀ B : Byte, NextPull s (.byte B) rest → B.toNat / 8 ≠ 1 →
      exec .dBegin s = .next { s with
        wacc := BitAcc.empty
        racc := (match s.params.readerMode with
          | .retain => accOf (msbBits 3 B)
          | .discard => BitAcc.empty)
        phase := .error, err := ⟨2#3, 0#1, BitVec.ofNat 8 (B.toNat / 8)⟩, resp := ⟨.error, 2#8⟩
        host := afterPull (.byte B) rest s.host }) ∧
    (NextPull s .endOfStream rest →
      exec .dBegin s = .next { s with
        wacc := BitAcc.empty, racc := BitAcc.empty, err := ⟨4#3, 0#1, 0#8⟩, phase := .error, resp := ⟨.error, 4#8⟩
        host := afterPull .endOfStream rest s.host }) ∧
    (NextPull s .ioFail rest →
      exec .dBegin s = .next { s with
        wacc := BitAcc.empty, racc := BitAcc.empty, err := ⟨5#3, 0#1, 0#8⟩, phase := .error, resp := ⟨.error, 5#8⟩
        host := afterPull .ioFail rest s.host })

/-- D.STEP (R201, R202): a symbol token emits its entry of REV, an escape token its literal. -/
def Obligations.DStepEmitsOneByte : Prop :=
  ∀ s : State, s.phase = .decompress → HostWaits s → SinkAccepts s →
    (∀ c t d, Reads 5 s c t → c ≠ ESC → s.params.alphabet.toList[c.toNat]? = some d →
      exec .dStep s = .next ((t.setHost (afterPushes [d] t.host)).setResp ⟨.ok, d⟩)) ∧
    (∀ t l u, Reads 5 s ESC t → Reads 8 t l u →
      exec .dStep s = .next ((u.setHost (afterPushes [l] u.host)).setResp ⟨.ok, l⟩))

/-- R204: a 5-bit read that meets the end of the stream ends the pass successfully, whatever bits are held. -/
def Obligations.DStepEndsAtTheEnd : Prop :=
  ∀ (s : State) (rest : Answers SrcReply), s.phase = .decompress → HostWaits s → s.racc.count.val < 5 →
    NextPull s .endOfStream rest →
    exec .dStep s = .next { s with
      racc := BitAcc.empty, phase := .done, resp := ⟨.eos, 0#8⟩, host := afterPull .endOfStream rest s.host }

/-- R203: an escape at the end of the stream ends the pass in AcceptPad mode with at most 2 held bits, all zero, and raises
UnexpectedEndOfStream(1) otherwise. -/
def Obligations.TerminalEscape : Prop :=
  ∀ (s t : State) (rest : Answers SrcReply), s.phase = .decompress → HostWaits s → Reads 5 s ESC t →
    t.racc.count.val < 8 → NextPull t .endOfStream rest →
    exec .dStep s = .next
      (if s.params.terminalEscape = .acceptPad ∧ t.racc.count.val ≤ 2 ∧ t.racc.bits = 0#8 then
        { t with racc := BitAcc.empty, phase := .done, resp := ⟨.eos, 0#8⟩, host := afterPull .endOfStream rest t.host }
       else
        { t with
          err := ⟨4#3, 0#1, 1#8⟩, phase := .error, resp := ⟨.error, 4#8⟩
          host := afterPull .endOfStream rest t.host })

/-- D.STEP when a port fails (R201, R202, 60_exceptions.md R233, R236): Io(0) on the code read and on the literal read, Io(1)
on the push, and what was done before stays done. -/
def Obligations.DStepPortFailures : Prop :=
  ∀ s : State, s.phase = .decompress → HostWaits s →
    (∀ rest, s.racc.count.val < 5 → NextPull s .ioFail rest →
      exec .dStep s = .next { s with
        err := ⟨5#3, 0#1, 0#8⟩, phase := .error, resp := ⟨.error, 5#8⟩, host := afterPull .ioFail rest s.host }) ∧
    (∀ t rest, Reads 5 s ESC t → t.racc.count.val < 8 → NextPull t .ioFail rest →
      exec .dStep s = .next { t with
        err := ⟨5#3, 0#1, 0#8⟩, phase := .error, resp := ⟨.error, 5#8⟩, host := afterPull .ioFail rest t.host }) ∧
    (∀ c t d more, Reads 5 s c t → c ≠ ESC → s.params.alphabet.toList[c.toNat]? = some d → NextPushFails t more →
      exec .dStep s = .next { t with
        err := ⟨5#3, 1#1, 0#8⟩, phase := .error, resp := ⟨.error, 5#8⟩, host := afterRefusal d more t.host }) ∧
    (∀ t l u more, Reads 5 s ESC t → Reads 8 t l u → NextPushFails u more →
      exec .dStep s = .next { u with
        err := ⟨5#3, 1#1, 0#8⟩, phase := .error, resp := ⟨.error, 5#8⟩, host := afterRefusal l more u.host })

/-- D.PASS decodes every stream the compressor writes, in the default modes (R203 to R205). -/
def Obligations.DPassDecodesCompressedStreams : Prop :=
  ∀ (u : State) (xs : List Byte), legal .begin u.phase = true → HostWaits u → SinkAccepts u → Ascii xs →
    alphabetOk u.params.alphabet = true → u.params.readerMode = .retain → u.params.terminalEscape = .acceptPad →
    SourceGives u ((compressed u.params xs).map .byte) .endOfStream →
    ∃ v, exec .dPass u = .next v ∧ sinkBytes v = sinkBytes u ++ xs ∧
      v = { u with
        wacc := BitAcc.empty, racc := BitAcc.empty, phase := .done, err := ⟨0#3, 0#1, 0#8⟩, resp := ⟨.eos, 0#8⟩
        host := { u.host with src := v.host.src, snk := v.host.snk, trace := v.host.trace } }

/-- R207, the round-trip law: what D.PASS makes of the bytes C.PASS pushed is the input. -/
def Obligations.RoundTrip : Prop :=
  ∀ (s t u : State) (xs ys : List Byte),
    legal .begin s.phase = true → HostWaits s → SinkAccepts s → Ascii xs → alphabetOk s.params.alphabet = true →
    s.params.readerMode = .retain → s.params.terminalEscape = .acceptPad →
    SourceGives s (xs.map .byte) .endOfStream → exec .cPass s = .next t → sinkBytes t = sinkBytes s ++ ys →
    u.params = s.params → legal .begin u.phase = true → HostWaits u → SinkAccepts u →
    SourceGives u (ys.map .byte) .endOfStream →
    ∃ v, exec .dPass u = .next v ∧ sinkBytes v = sinkBytes u ++ xs ∧ v.phase = .done

/-- CTL.IDLE (R210): in every phase, no I/O and no flush. -/
def Obligations.CtlIdleRuns : Prop :=
  ∀ s : State, exec .ctlIdle s = .next { s with
    wacc := ⟨0#8, 0⟩, racc := ⟨0#8, 0⟩, err := ⟨0#3, 0#1, 0#8⟩, phase := .idle, resp := ⟨.ok, 0#8⟩ }

/-! ### The stream tokens (30_encoding.md R71 to R74; the model's choice of their own meanings, log 7) -/

/-- What each token does once it has been read (R71 to R74, 44_pipeline.md R200 to R203). -/
def Obligations.TokensRun : Prop :=
  ∀ s : State,
    exec .streamVersion s = .next { s with phase := .decompress, resp := ⟨.ok, 1#8⟩ } ∧
    (∀ c d, c ≠ ESC → s.params.alphabet.toList[c.toNat]? = some d → HostWaits s → SinkAccepts s →
      exec (.streamSym c) s = .next { s with resp := ⟨.ok, d⟩, host := afterPushes [d] s.host }) ∧
    (∀ l, HostWaits s → SinkAccepts s →
      exec (.streamEsc l) s = .next { s with resp := ⟨.ok, l⟩, host := afterPushes [l] s.host }) ∧
    (s.params.terminalEscape = .acceptPad → s.racc.count.val ≤ 2 → s.racc.bits = 0#8 →
      exec .streamPadEsc s = .next { s with racc := BitAcc.empty, phase := .done, resp := ⟨.eos, 0#8⟩ }) ∧
    (s.params.terminalEscape = .strict ∨ 3 ≤ s.racc.count.val ∨ s.racc.bits ≠ 0#8 →
      exec .streamPadEsc s =
        .next { s with err := ⟨4#3, 0#1, 1#8⟩, phase := .error, resp := ⟨.error, 4#8⟩ })
end

