-- ==== Sys2Proof/Laws/State.lean ====
section
/-! SUPPORT. One lemma per field per update of State, each true by rfl, and the fields of the small shared state
changes built from the updates. -/

namespace Sys2Proof.Machine

section setWacc
variable (s : State) (x : BitAcc)

@[simp] theorem setWacc_wacc : (s.setWacc x).wacc = x := rfl
@[simp] theorem setWacc_racc : (s.setWacc x).racc = s.racc := rfl
@[simp] theorem setWacc_phase : (s.setWacc x).phase = s.phase := rfl
@[simp] theorem setWacc_err : (s.setWacc x).err = s.err := rfl
@[simp] theorem setWacc_resp : (s.setWacc x).resp = s.resp := rfl
@[simp] theorem setWacc_params : (s.setWacc x).params = s.params := rfl
@[simp] theorem setWacc_host : (s.setWacc x).host = s.host := rfl

end setWacc

section setRacc
variable (s : State) (x : BitAcc)

@[simp] theorem setRacc_wacc : (s.setRacc x).wacc = s.wacc := rfl
@[simp] theorem setRacc_racc : (s.setRacc x).racc = x := rfl
@[simp] theorem setRacc_phase : (s.setRacc x).phase = s.phase := rfl
@[simp] theorem setRacc_err : (s.setRacc x).err = s.err := rfl
@[simp] theorem setRacc_resp : (s.setRacc x).resp = s.resp := rfl
@[simp] theorem setRacc_params : (s.setRacc x).params = s.params := rfl
@[simp] theorem setRacc_host : (s.setRacc x).host = s.host := rfl

end setRacc

section setPhase
variable (s : State) (x : Phase)

@[simp] theorem setPhase_wacc : (s.setPhase x).wacc = s.wacc := rfl
@[simp] theorem setPhase_racc : (s.setPhase x).racc = s.racc := rfl
@[simp] theorem setPhase_phase : (s.setPhase x).phase = x := rfl
@[simp] theorem setPhase_err : (s.setPhase x).err = s.err := rfl
@[simp] theorem setPhase_resp : (s.setPhase x).resp = s.resp := rfl
@[simp] theorem setPhase_params : (s.setPhase x).params = s.params := rfl
@[simp] theorem setPhase_host : (s.setPhase x).host = s.host := rfl

end setPhase

section setErr
variable (s : State) (x : Err)

@[simp] theorem setErr_wacc : (s.setErr x).wacc = s.wacc := rfl
@[simp] theorem setErr_racc : (s.setErr x).racc = s.racc := rfl
@[simp] theorem setErr_phase : (s.setErr x).phase = s.phase := rfl
@[simp] theorem setErr_err : (s.setErr x).err = x := rfl
@[simp] theorem setErr_resp : (s.setErr x).resp = s.resp := rfl
@[simp] theorem setErr_params : (s.setErr x).params = s.params := rfl
@[simp] theorem setErr_host : (s.setErr x).host = s.host := rfl

end setErr

section setResp
variable (s : State) (x : Resp)

@[simp] theorem setResp_wacc : (s.setResp x).wacc = s.wacc := rfl
@[simp] theorem setResp_racc : (s.setResp x).racc = s.racc := rfl
@[simp] theorem setResp_phase : (s.setResp x).phase = s.phase := rfl
@[simp] theorem setResp_err : (s.setResp x).err = s.err := rfl
@[simp] theorem setResp_resp : (s.setResp x).resp = x := rfl
@[simp] theorem setResp_params : (s.setResp x).params = s.params := rfl
@[simp] theorem setResp_host : (s.setResp x).host = s.host := rfl

end setResp

section setHost
variable (s : State) (x : HostSide)

@[simp] theorem setHost_wacc : (s.setHost x).wacc = s.wacc := rfl
@[simp] theorem setHost_racc : (s.setHost x).racc = s.racc := rfl
@[simp] theorem setHost_phase : (s.setHost x).phase = s.phase := rfl
@[simp] theorem setHost_err : (s.setHost x).err = s.err := rfl
@[simp] theorem setHost_resp : (s.setHost x).resp = s.resp := rfl
@[simp] theorem setHost_params : (s.setHost x).params = s.params := rfl
@[simp] theorem setHost_host : (s.setHost x).host = x := rfl

end setHost

@[simp] theorem takeError_wacc (e : Raised) (s : State) : (takeError e s).wacc = s.wacc := rfl
@[simp] theorem takeError_racc (e : Raised) (s : State) : (takeError e s).racc = s.racc := rfl
@[simp] theorem takeError_phase (e : Raised) (s : State) : (takeError e s).phase = .error := rfl
@[simp] theorem takeError_err (e : Raised) (s : State) : (takeError e s).err = ⟨errCode e.kind, if e.kind = .io then e.iodir else 0#1, e.info⟩ := rfl
@[simp] theorem takeError_resp (e : Raised) (s : State) : (takeError e s).resp = ⟨.error, (errCode e.kind).setWidth 8⟩ := rfl
@[simp] theorem takeError_params (e : Raised) (s : State) : (takeError e s).params = s.params := rfl
@[simp] theorem takeError_host (e : Raised) (s : State) : (takeError e s).host = s.host := rfl

@[simp] theorem clearErrorAndAccs_wacc (s : State) : (clearErrorAndAccs s).wacc = BitAcc.empty := rfl
@[simp] theorem clearErrorAndAccs_racc (s : State) : (clearErrorAndAccs s).racc = BitAcc.empty := rfl
@[simp] theorem clearErrorAndAccs_phase (s : State) : (clearErrorAndAccs s).phase = s.phase := rfl
@[simp] theorem clearErrorAndAccs_err (s : State) : (clearErrorAndAccs s).err = Err.clear := rfl
@[simp] theorem clearErrorAndAccs_resp (s : State) : (clearErrorAndAccs s).resp = s.resp := rfl
@[simp] theorem clearErrorAndAccs_params (s : State) : (clearErrorAndAccs s).params = s.params := rfl
@[simp] theorem clearErrorAndAccs_host (s : State) : (clearErrorAndAccs s).host = s.host := rfl

@[simp] theorem ignoreInError_wacc (s : State) : (ignoreInError s).wacc = s.wacc := rfl
@[simp] theorem ignoreInError_racc (s : State) : (ignoreInError s).racc = s.racc := rfl
@[simp] theorem ignoreInError_phase (s : State) : (ignoreInError s).phase = s.phase := rfl
@[simp] theorem ignoreInError_err (s : State) : (ignoreInError s).err = s.err := rfl
@[simp] theorem ignoreInError_resp (s : State) : (ignoreInError s).resp = ⟨.error, s.err.code.setWidth 8⟩ := rfl
@[simp] theorem ignoreInError_params (s : State) : (ignoreInError s).params = s.params := rfl
@[simp] theorem ignoreInError_host (s : State) : (ignoreInError s).host = s.host := rfl

@[simp] theorem resetBlock_wacc (s : State) : (resetBlock s).wacc = BitAcc.empty := rfl
@[simp] theorem resetBlock_racc (s : State) : (resetBlock s).racc = BitAcc.empty := rfl
@[simp] theorem resetBlock_phase (s : State) : (resetBlock s).phase = .idle := rfl
@[simp] theorem resetBlock_err (s : State) : (resetBlock s).err = Err.clear := rfl
@[simp] theorem resetBlock_resp (s : State) : (resetBlock s).resp = Resp.initial := rfl
@[simp] theorem resetBlock_params (s : State) : (resetBlock s).params = s.params := rfl
@[simp] theorem resetBlock_host (s : State) : (resetBlock s).host = s.host := rfl

@[simp] theorem endDecompress_wacc (s : State) : (endDecompress s).wacc = s.wacc := rfl
@[simp] theorem endDecompress_racc (s : State) : (endDecompress s).racc = BitAcc.empty := rfl
@[simp] theorem endDecompress_phase (s : State) : (endDecompress s).phase = .done := rfl
@[simp] theorem endDecompress_err (s : State) : (endDecompress s).err = s.err := rfl
@[simp] theorem endDecompress_resp (s : State) : (endDecompress s).resp = ⟨.eos, 0#8⟩ := rfl
@[simp] theorem endDecompress_params (s : State) : (endDecompress s).params = s.params := rfl
@[simp] theorem endDecompress_host (s : State) : (endDecompress s).host = s.host := rfl

@[simp] theorem written_wacc (bs : List Bool) (s : State) : (written bs s).wacc = accOf (leftover (validBits s.wacc ++ bs)) := rfl
@[simp] theorem written_racc (bs : List Bool) (s : State) : (written bs s).racc = s.racc := rfl
@[simp] theorem written_phase (bs : List Bool) (s : State) : (written bs s).phase = s.phase := rfl
@[simp] theorem written_err (bs : List Bool) (s : State) : (written bs s).err = s.err := rfl
@[simp] theorem written_resp (bs : List Bool) (s : State) : (written bs s).resp = s.resp := rfl
@[simp] theorem written_params (bs : List Bool) (s : State) : (written bs s).params = s.params := rfl
@[simp] theorem written_host (bs : List Bool) (s : State) : (written bs s).host = afterPushes (wholeBytes (validBits s.wacc ++ bs)) s.host := rfl

@[simp] theorem flushed_wacc (s : State) : (flushed s).wacc = BitAcc.empty := rfl
@[simp] theorem flushed_racc (s : State) : (flushed s).racc = s.racc := rfl
@[simp] theorem flushed_phase (s : State) : (flushed s).phase = s.phase := rfl
@[simp] theorem flushed_err (s : State) : (flushed s).err = s.err := rfl
@[simp] theorem flushed_resp (s : State) : (flushed s).resp = s.resp := rfl
@[simp] theorem flushed_params (s : State) : (flushed s).params = s.params := rfl
@[simp] theorem flushed_host (s : State) : (flushed s).host = afterPushes (flushedBytes (validBits s.wacc)) s.host := rfl

/-! ### Records of pulls and pushes -/

@[simp] theorem acceptedBytes_nil : acceptedBytes [] = [] := rfl
@[simp] theorem pullCount_nil : pullCount [] = 0 := rfl
@[simp] theorem pushCount_nil : pushCount [] = 0 := rfl
@[simp] theorem pulledAnswers_nil : pulledAnswers [] = [] := rfl
@[simp] theorem pushedAnswers_nil : pushedAnswers [] = [] := rfl

theorem acceptedBytes_append (es fs : List IoEvent) :
    acceptedBytes (es ++ fs) = acceptedBytes es ++ acceptedBytes fs := List.filterMap_append
theorem pullCount_append (es fs : List IoEvent) : pullCount (es ++ fs) = pullCount es + pullCount fs :=
  List.countP_append
theorem pushCount_append (es fs : List IoEvent) : pushCount (es ++ fs) = pushCount es + pushCount fs :=
  List.countP_append
theorem pulledAnswers_append (es fs : List IoEvent) :
    pulledAnswers (es ++ fs) = pulledAnswers es ++ pulledAnswers fs := List.filterMap_append
theorem pushedAnswers_append (es fs : List IoEvent) :
    pushedAnswers (es ++ fs) = pushedAnswers es ++ pushedAnswers fs := List.filterMap_append

/-- Two states with equal fields are equal. -/
theorem State.ext_fields {s t : State} (h1 : s.wacc = t.wacc) (h2 : s.racc = t.racc) (h3 : s.phase = t.phase)
    (h4 : s.err = t.err) (h5 : s.resp = t.resp) (h6 : s.params = t.params) (h7 : s.host = t.host) : s = t := by
  cases s
  cases t
  simp_all

end Sys2Proof.Machine
end

