-- ==== Sys2Proof/Laws/Bits.lean ====
section
/-! SUPPORT. Bit strings, values and bytes: what `msbBits`, `ofMsbBits`, `wholeBytes`, `leftover` and the
accumulator's valid bits say of one another. -/

namespace Sys2Proof

@[simp] theorem length_msbBits {w : Nat} (n : Nat) (v : BitVec w) : (msbBits n v).length = n := by
  induction n with
  | zero => rfl
  | succ n ih => simp [msbBits, ih]

theorem natOfBits_foldl (bs : List Bool) (a : Nat) :
    bs.foldl (fun acc b => 2 * acc + b.toNat) a = a * 2 ^ bs.length + natOfBits bs := by
  induction bs generalizing a with
  | nil => simp [natOfBits]
  | cons b bs ih =>
    have h0 := ih b.toNat
    simp only [natOfBits, List.foldl_cons, List.length_cons, ih (2 * a + b.toNat), Nat.mul_zero, Nat.zero_add] at *
    rw [h0, Nat.pow_succ]
    ring

@[simp] theorem natOfBits_nil : natOfBits [] = 0 := rfl

theorem natOfBits_cons (b : Bool) (bs : List Bool) :
    natOfBits (b :: bs) = b.toNat * 2 ^ bs.length + natOfBits bs := by
  simpa [natOfBits] using natOfBits_foldl bs b.toNat

theorem natOfBits_append (as bs : List Bool) :
    natOfBits (as ++ bs) = natOfBits as * 2 ^ bs.length + natOfBits bs := by
  rw [natOfBits, List.foldl_append, natOfBits_foldl]
  rfl

theorem natOfBits_lt (bs : List Bool) : natOfBits bs < 2 ^ bs.length := by
  induction bs with
  | nil => simp
  | cons b bs ih =>
    rw [natOfBits_cons, List.length_cons, Nat.pow_succ]
    cases b <;> simp <;> omega

theorem natOfBits_msbBits {w : Nat} (n : Nat) (v : BitVec w) : natOfBits (msbBits n v) = v.toNat % 2 ^ n := by
  induction n with
  | zero => simp [msbBits, Nat.mod_one]
  | succ n ih =>
    rw [msbBits, natOfBits_cons, ih, length_msbBits, Nat.pow_succ, Nat.mod_mul, ← BitVec.testBit_toNat,
      Nat.toNat_testBit]
    ring

theorem msbBits_cast {w u : Nat} (n : Nat) (v : BitVec w) (x : BitVec u)
    (h : v.toNat % 2 ^ n = x.toNat % 2 ^ n) : msbBits n v = msbBits n x := by
  induction n with
  | zero => rfl
  | succ n ih =>
    have h1 : v.getLsbD n = x.getLsbD n := by
      have := congrArg (fun k => k.testBit n) h
      simpa [Nat.testBit_mod_two_pow, ← BitVec.testBit_toNat] using this
    have h2 : v.toNat % 2 ^ n = x.toNat % 2 ^ n := by
      have := congrArg (fun k => k % 2 ^ n) h
      simpa [Nat.mod_mod_of_dvd _ (Nat.pow_dvd_pow 2 (Nat.le_succ n))] using this
    simp [msbBits, h1, ih h2]

/-- A bit string is determined by its length and its number. -/
theorem bits_ext : ∀ {as bs : List Bool}, as.length = bs.length → natOfBits as = natOfBits bs → as = bs
  | [], [], _, _ => rfl
  | a :: as, b :: bs, hl, hn => by
    have hl' : as.length = bs.length := by simpa using hl
    rw [natOfBits_cons, natOfBits_cons, hl'] at hn
    have ha := natOfBits_lt as
    have hb := natOfBits_lt bs
    rw [hl'] at ha
    have hab : a = b := by
      cases a <;> cases b <;> simp at hn ⊢ <;> omega
    subst hab
    rw [bits_ext hl' (by omega)]

theorem toNat_ofMsbBits {n : Nat} {bs : List Bool} (h : bs.length ≤ n) : (ofMsbBits n bs).toNat = natOfBits bs := by
  rw [ofMsbBits, BitVec.toNat_ofNat]
  exact Nat.mod_eq_of_lt (Nat.lt_of_lt_of_le (natOfBits_lt bs) (Nat.pow_le_pow_right (by decide) h))

theorem msbBits_ofMsbBits {n : Nat} {bs : List Bool} (h : bs.length ≤ n) :
    msbBits bs.length (ofMsbBits n bs) = bs :=
  bits_ext (by simp) (by
    rw [natOfBits_msbBits, toNat_ofMsbBits h]
    exact Nat.mod_eq_of_lt (natOfBits_lt bs))

theorem ofMsbBits_msbBits {w : Nat} (v : BitVec w) : ofMsbBits w (msbBits w v) = v := by
  apply BitVec.eq_of_toNat_eq
  rw [toNat_ofMsbBits (by simp), natOfBits_msbBits]
  exact Nat.mod_eq_of_lt v.isLt

end Sys2Proof

namespace Sys2Proof.Machine

/-! ### Valid bits -/

@[simp] theorem length_validBits (a : BitAcc) : (validBits a).length = a.count.val := by
  simp [validBits]

@[simp] theorem validBits_empty : validBits BitAcc.empty = [] := rfl

theorem accOk_empty : accOk BitAcc.empty := by decide

theorem accOf_nil : accOf [] = BitAcc.empty := by decide

theorem accOf_count {bs : List Bool} (h : bs.length ≤ 8) : (accOf bs).count.val = bs.length := by
  simp [accOf, h]

theorem validBits_accOf {bs : List Bool} (h : bs.length ≤ 8) : validBits (accOf bs) = bs := by
  rw [validBits, accOf_count h]
  exact msbBits_ofMsbBits h

theorem accOk_accOf {bs : List Bool} (h : bs.length ≤ 8) : accOk (accOf bs) := by
  have h1 : (accOf bs).bits.toNat = natOfBits bs := toNat_ofMsbBits h
  have h2 := natOfBits_lt bs
  simp only [accOk, accOf_count h, h1]
  exact h2

theorem accOf_validBits {a : BitAcc} (h : accOk a) : accOf (validBits a) = a := by
  obtain ⟨bits, count⟩ := a
  have hc : count.val ≤ 8 := by omega
  have h1 : ofMsbBits 8 (msbBits count.val bits) = bits := by
    apply BitVec.eq_of_toNat_eq
    rw [toNat_ofMsbBits (by simpa using hc), natOfBits_msbBits]
    exact Nat.mod_eq_of_lt h
  simp [accOf, validBits, h1, hc]

/-- An accumulator that keeps `bits < 2^count` is determined by its valid bits. -/
theorem acc_ext {a b : BitAcc} (ha : accOk a) (hb : accOk b) (h : validBits a = validBits b) : a = b := by
  rw [← accOf_validBits ha, ← accOf_validBits hb, h]

/-! ### Whole bytes -/

theorem wholeBytes_short {bs : List Bool} (h : bs.length < 8) : wholeBytes bs = [] := by
  simp [wholeBytes, Nat.div_eq_of_lt h]

theorem leftover_short {bs : List Bool} (h : bs.length < 8) : leftover bs = bs := by
  simp [leftover, Nat.div_eq_of_lt h]

theorem wholeBytes_byte_append {x : List Bool} (y : List Bool) (h : x.length = 8) :
    wholeBytes (x ++ y) = ofMsbBits 8 x :: wholeBytes y := by
  have hl : (x ++ y).length / 8 = y.length / 8 + 1 := by simp [h]
  rw [wholeBytes, hl, List.range_succ_eq_map, List.map_cons, List.map_map]
  congr 1
  · simp [← h]
  · rw [wholeBytes]
    apply List.map_congr_left
    intro k _
    have hk : 8 * (k + 1) = x.length + 8 * k := by omega
    simp only [Function.comp_apply, Nat.succ_eq_add_one, hk, List.drop_append_of_le_length (Nat.le_refl _),
      List.drop_drop.symm]
    simp

theorem leftover_byte_append {x : List Bool} (y : List Bool) (h : x.length = 8) :
    leftover (x ++ y) = leftover y := by
  have hl : (x ++ y).length / 8 = y.length / 8 + 1 := by simp [h]
  have hk : 8 * (y.length / 8 + 1) = x.length + 8 * (y.length / 8) := by omega
  rw [leftover, leftover, hl, hk, List.drop_append]
  simp

@[simp] theorem length_wholeBytes (bs : List Bool) : (wholeBytes bs).length = bs.length / 8 := by
  simp [wholeBytes]

@[simp] theorem length_leftover (bs : List Bool) : (leftover bs).length = bs.length % 8 := by
  simp [leftover]
  omega

/-- Cut off bytes from the front while there are any: the induction that bit strings are used with. -/
theorem byte_induction {P : List Bool → Prop} (short : ∀ bs, bs.length < 8 → P bs)
    (byte : ∀ x y, x.length = 8 → P y → P (x ++ y)) (bs : List Bool) : P bs := by
  by_cases h : bs.length < 8
  · exact short bs h
  · have hx : (bs.take 8).length = 8 := by simp; omega
    have := byte (bs.take 8) (bs.drop 8) hx (byte_induction short byte (bs.drop 8))
    simpa using this
termination_by bs.length
decreasing_by simp; omega

/-- The bytes and the bits left after them are the bit string (20_memory.md R54). -/
theorem bitsOf_wholeBytes_leftover (bs : List Bool) : bitsOf (wholeBytes bs) ++ leftover bs = bs := by
  induction bs using byte_induction with
  | short bs h => simp [wholeBytes_short h, leftover_short h, bitsOf]
  | byte x y h ih =>
    have hx : msbBits 8 (ofMsbBits 8 x) = x := by
      have := msbBits_ofMsbBits (n := 8) (bs := x) (by omega)
      rwa [h] at this
    have ih' : (wholeBytes y).flatMap (msbBits 8) ++ leftover y = y := ih
    rw [wholeBytes_byte_append y h, leftover_byte_append y h, bitsOf, List.flatMap_cons, hx, List.append_assoc, ih']

/-- Writing in two goes gives the same bytes: the leftover bits of the first are the pending bits of the second. -/
theorem wholeBytes_append (xs ys : List Bool) :
    wholeBytes (xs ++ ys) = wholeBytes xs ++ wholeBytes (leftover xs ++ ys) := by
  induction xs using byte_induction with
  | short bs h => simp [wholeBytes_short h, leftover_short h]
  | byte x y h ih =>
    rw [List.append_assoc, wholeBytes_byte_append _ h, wholeBytes_byte_append _ h, leftover_byte_append _ h, ih]
    rfl

theorem leftover_append (xs ys : List Bool) : leftover (xs ++ ys) = leftover (leftover xs ++ ys) := by
  induction xs using byte_induction with
  | short bs h => simp [leftover_short h]
  | byte x y h ih => rw [List.append_assoc, leftover_byte_append _ h, leftover_byte_append _ h, ih]

theorem leftover_leftover (xs : List Bool) : leftover (leftover xs) = leftover xs := by
  have := leftover_append xs []
  simpa using this.symm

end Sys2Proof.Machine
end

