-- ==== Sys2Proof/Laws/Ops.lean ====
section
/-! SUPPORT. What each shared operation can do, said once: sequencing, pulls, pushes, the accumulator, the writer. -/

namespace Sys2Proof.Machine

/-! ### Sequencing -/

section AndThen
variable {α β : Type}

@[simp] theorem andThen_ok (a : α) (s : State) (k : α → State → Run β) : andThen (.ok a s) k = k a s := rfl
@[simp] theorem andThen_raised (e : Raised) (s : State) (k : α → State → Run β) :
    andThen (.raised e s : Run α) k = .raised e s := rfl
@[simp] theorem andThen_cut (s : State) (k : α → State → Run β) : andThen (.cut s : Run α) k = .cut s := rfl
@[simp] theorem andThen_stuck (f : Fault) (k : α → State → Run β) : andThen (.stuck f : Run α) k = .stuck f := rfl
@[simp] theorem andThen_done (s : State) (k : Unit → State → Run β) : andThen (done s) k = k () s := rfl

/-- A sequence ends well exactly when both parts do. -/
theorem andThen_eq_ok {r : Run α} {k : α → State → Run β} {b : β} {t : State} :
    andThen r k = .ok b t ↔ ∃ a s, r = .ok a s ∧ k a s = .ok b t := by
  cases r <;> simp [andThen]

/-- A sequence raises exactly when its first part does, or its second part after the first ended well. -/
theorem andThen_eq_raised {r : Run α} {k : α → State → Run β} {e : Raised} {t : State} :
    andThen r k = .raised e t ↔ r = .raised e t ∨ ∃ a s, r = .ok a s ∧ k a s = .raised e t := by
  cases r <;> simp [andThen]

/-- A sequence is cut off by a reset exactly when one of its parts is. -/
theorem andThen_eq_cut {r : Run α} {k : α → State → Run β} {t : State} :
    andThen r k = .cut t ↔ r = .cut t ∨ ∃ a s, r = .ok a s ∧ k a s = .cut t := by
  cases r <;> simp [andThen]

/-- A sequence never ends exactly when one of its parts does not. -/
theorem andThen_eq_stuck {r : Run α} {k : α → State → Run β} {f : Fault} :
    andThen r k = .stuck f ↔ r = .stuck f ∨ ∃ a s, r = .ok a s ∧ k a s = .stuck f := by
  cases r <;> simp [andThen]

theorem andThen_assoc {γ : Type} (r : Run α) (k : α → State → Run β) (m : β → State → Run γ) :
    andThen (andThen r k) m = andThen r fun a s => andThen (k a s) m := by
  cases r <;> rfl

end AndThen

/-- Every state a run ends in, however it ends, has the property. -/
def EndsIn {α : Type} (P : State → Prop) (r : Run α) : Prop :=
  match r with
  | .ok _ s => P s
  | .raised _ s => P s
  | .cut s => P s
  | .stuck _ => True

theorem endsIn_andThen {α β : Type} {P Q : State → Prop} {r : Run α} {k : α → State → Run β}
    (hr : EndsIn P r) (hpq : ∀ s, P s → Q s) (hk : ∀ a s, P s → EndsIn Q (k a s)) : EndsIn Q (andThen r k) := by
  cases r with
  | ok a s => exact hk a s hr
  | raised e s => exact hpq s hr
  | cut s => exact hpq s hr
  | stuck f => trivial

/-- What a command's outcome says of the states its body ends in. -/
theorem settle_next {P : State → Prop} {r : Run Unit} {t : State} (hr : EndsIn P r) (h : settle r = .next t) :
    ∃ s, P s ∧ (t = s ∨ (∃ e, t = takeError e s) ∨ t = resetBlock s) := by
  cases r with
  | ok a s => exact ⟨s, hr, .inl (by simpa [settle] using h.symm)⟩
  | raised e s => exact ⟨s, hr, .inr (.inl ⟨e, by simpa [settle] using h.symm⟩)⟩
  | cut s => exact ⟨s, hr, .inr (.inr (by simpa [settle] using h.symm))⟩
  | stuck f => simp [settle] at h

/-! ### Pulls and pushes -/

theorem countDown_waits {h : HostSide} (hw : h.resetAfter = none) : countDown h = h := by
  cases h
  simp_all [countDown]

/-- `SrcPull()`: it is cut off, or takes the next answer and records it, or never ends. It never raises. -/
theorem srcPull_cases (s : State) :
    (s.host.resetAfter = some 0 ∧ srcPull s = .cut s) ∨
    (s.host.resetAfter ≠ some 0 ∧ ∃ r rest, nextAnswer s.host.src = some (r, rest) ∧
      srcPull s = .ok (srcAnswer r) (s.setHost
        { countDown s.host with src := rest, trace := s.host.trace ++ [.pull (srcAnswer r)] })) ∨
    (s.host.resetAfter ≠ some 0 ∧ nextAnswer s.host.src = none ∧ srcPull s = .stuck .hostSilent) := by
  by_cases h0 : s.host.resetAfter = some 0
  · exact .inl ⟨h0, by simp [srcPull, h0]⟩
  · cases hn : nextAnswer s.host.src with
    | none => exact .inr (.inr ⟨h0, rfl, by simp [srcPull, h0, hn]⟩)
    | some p => exact .inr (.inl ⟨h0, p.1, p.2, rfl, by simp [srcPull, h0, hn]⟩)

/-- `SinkPush(b)`: it is cut off, or takes the next answer and records it, or never ends. It never raises. -/
theorem sinkPush_cases (b : Byte) (s : State) :
    (s.host.resetAfter = some 0 ∧ sinkPush b s = .cut s) ∨
    (s.host.resetAfter ≠ some 0 ∧ ∃ r rest, nextAnswer s.host.snk = some (r, rest) ∧
      sinkPush b s = .ok (!r.fail) (s.setHost
        { countDown s.host with snk := rest, trace := s.host.trace ++ [.push b (!r.fail)] })) ∨
    (s.host.resetAfter ≠ some 0 ∧ nextAnswer s.host.snk = none ∧ sinkPush b s = .stuck .hostSilent) := by
  by_cases h0 : s.host.resetAfter = some 0
  · exact .inl ⟨h0, by simp [sinkPush, h0]⟩
  · cases hn : nextAnswer s.host.snk with
    | none => exact .inr (.inr ⟨h0, rfl, by simp [sinkPush, h0, hn]⟩)
    | some p => exact .inr (.inl ⟨h0, p.1, p.2, rfl, by simp [sinkPush, h0, hn]⟩)

/-- A pull that the host answers, in a command that no reset cuts off. -/
theorem srcPull_answered {s : State} {a : SrcAnswer} {rest : Answers SrcReply} (hw : HostWaits s)
    (hn : NextPull s a rest) : srcPull s = .ok a (s.setHost (afterPull a rest s.host)) := by
  obtain ⟨r, hr, rfl⟩ := hn
  simp [srcPull, hr, show s.host.resetAfter = none from hw, countDown_waits hw, afterPull]

/-- A push that the sink refuses, in a command that no reset cuts off. -/
theorem pushByte_refused {s : State} {b : Byte} {rest : Answers SnkReply} (hw : HostWaits s)
    (hn : NextPushFails s rest) :
    pushByte b s = .raised ioSink (s.setHost (afterRefusal b rest s.host)) := by
  obtain ⟨r, hr, hf⟩ := hn
  simp [pushByte, sinkPush, hr, hf, show s.host.resetAfter = none from hw, countDown_waits hw, afterRefusal]

/-- A pull of a source that never answers. -/
theorem srcPull_silent {s : State} (hw : HostWaits s) (hn : nextAnswer s.host.src = none) :
    srcPull s = .stuck .hostSilent := by
  simp [srcPull, hn, show s.host.resetAfter = none from hw]

/-- A push to a sink that never answers. -/
theorem pushByte_silent {s : State} (b : Byte) (hw : HostWaits s) (hn : nextAnswer s.host.snk = none) :
    pushByte b s = .stuck .hostSilent := by
  simp [pushByte, sinkPush, hn, show s.host.resetAfter = none from hw]

/-- One push that the sink accepts, whatever it answers after it. -/
theorem pushByte_answered {s : State} {b : Byte} {r : SnkReply} {more : Answers SnkReply} (hw : HostWaits s)
    (hn : nextAnswer s.host.snk = some (r, more)) (hf : r.fail = false) :
    pushByte b s = done (s.setHost { s.host with snk := more, trace := s.host.trace ++ [.push b true] }) := by
  simp [pushByte, sinkPush, hn, hf, show s.host.resetAfter = none from hw, countDown_waits hw]

theorem dropAnswers_zero {α : Type} (a : Answers α) : dropAnswers 0 a = a := rfl

theorem dropAnswers_add {α : Type} (m n : Nat) (a : Answers α) :
    dropAnswers n (dropAnswers m a) = dropAnswers (m + n) a := by
  simp [dropAnswers, List.drop_drop]

theorem dropAnswers_one {α : Type} {a rest : Answers α} {r : α} (h : nextAnswer a = some (r, rest)) :
    dropAnswers 1 a = rest := by
  obtain ⟨q, l⟩ := a
  cases q with
  | cons x q => simp [nextAnswer] at h; simp [dropAnswers, h.2]
  | nil => cases l <;> simp [nextAnswer] at h; simp [dropAnswers, ← h.2]

@[simp] theorem takeAnswers_zero {α : Type} (a : Answers α) : takeAnswers 0 a = [] := by simp [takeAnswers]

/-- The answer a port gives next is the first of its answers. -/
theorem takeAnswers_one {α : Type} {a rest : Answers α} {r : α} (h : nextAnswer a = some (r, rest)) :
    takeAnswers 1 a = [r] := by
  obtain ⟨q, l⟩ := a
  cases q with
  | cons x q => simp [nextAnswer] at h; simp [takeAnswers, h.1]
  | nil => cases l <;> simp [nextAnswer] at h; simp [takeAnswers, h.1]

theorem takeAnswers_some {α : Type} (n : Nat) (q : List α) (r : α) :
    takeAnswers n ⟨q, some r⟩ = q.take n ++ List.replicate (n - q.length) r := by
  simp [takeAnswers, List.take_append, List.take_replicate]

/-- The first m + n answers are the first m and then the first n of those left. -/
theorem takeAnswers_add {α : Type} (m n : Nat) (a : Answers α) :
    takeAnswers (m + n) a = takeAnswers m a ++ takeAnswers n (dropAnswers m a) := by
  obtain ⟨q, l⟩ := a
  cases l with
  | none => simp [takeAnswers, dropAnswers, List.take_add]
  | some r =>
    rw [dropAnswers, takeAnswers_some, takeAnswers_some, takeAnswers_some, List.length_drop]
    rcases Nat.le_total m q.length with h | h
    · rw [List.take_add, Nat.sub_eq_zero_of_le h, show m + n - q.length = n - (q.length - m) by omega]
      simp
    · rw [List.take_of_length_le (by omega : q.length ≤ m + n), List.take_of_length_le h, List.drop_of_length_le h,
        List.append_assoc, List.take_nil, List.nil_append, List.replicate_append_replicate,
        show m - q.length + (n - (q.length - m)) = m + n - q.length by omega]

theorem afterPushes_nil (h : HostSide) : afterPushes [] h = h := by
  simp [afterPushes, dropAnswers_zero]

theorem afterPushes_append (xs ys : List Byte) (h : HostSide) :
    afterPushes ys (afterPushes xs h) = afterPushes (xs ++ ys) h := by
  simp [afterPushes, dropAnswers_add]

/-- An accepting sink still accepts after some pushes. -/
theorem sinkAccepts_afterPushes {s : State} (xs : List Byte) (h : SinkAccepts s) :
    SinkAccepts (s.setHost (afterPushes xs s.host)) :=
  ⟨fun r hr => h.1 r (List.mem_of_mem_drop hr), h.2⟩

/-- A push that the sink accepts. -/
theorem pushByte_accepted {s : State} (b : Byte) (hw : HostWaits s) (hs : SinkAccepts s) :
    pushByte b s = done (s.setHost (afterPushes [b] s.host)) := by
  obtain ⟨hq, ha⟩ := hs
  have hw' : s.host.resetAfter = none := hw
  cases hl : s.host.snk.queued with
  | nil =>
    cases hr : s.host.snk.after with
    | none => simp [hr] at ha
    | some r =>
      have hf : r.fail = false := by simpa [hr] using ha
      have hn : nextAnswer s.host.snk = some (r, s.host.snk) := by simp [nextAnswer, hl, hr]
      have hd : dropAnswers 1 s.host.snk = s.host.snk := by
        cases hk : s.host.snk
        simp_all [dropAnswers]
      simp [pushByte, sinkPush, hn, hf, hw', countDown_waits hw, afterPushes, hd]
  | cons r rest =>
    have hf : r.fail = false := hq r (by simp [hl])
    have hn : nextAnswer s.host.snk = some (r, { s.host.snk with queued := rest }) := by simp [nextAnswer, hl]
    simp [pushByte, sinkPush, hn, hf, hw', countDown_waits hw, afterPushes, dropAnswers, hl]

/-! ### The accumulator -/

theorem count_pushBit {a : BitAcc} (b : Bool) (h : a.count.val < 8) :
    (pushBit a b).count.val = a.count.val + 1 := by
  simp [pushBit]
  omega

/-- The register after `Push`, as a number: the old one doubled, plus the bit, in 8 bits. -/
theorem bits_pushBit (a : BitAcc) (b : Bool) : (pushBit a b).bits = BitVec.ofNat 8 (2 * a.bits.toNat + b.toNat) := by
  have : ∀ (v : BitVec 8) (c : Bool),
      (v <<< 1 ||| BitVec.setWidth 8 (BitVec.ofBool c)) = BitVec.ofNat 8 (2 * v.toNat + c.toNat) := by decide
  exact this a.bits b

/-- `Push` appends the bit as the newest valid bit (40_accumulator.md R101, 10_state.md R23). -/
theorem validBits_pushBit {a : BitAcc} (b : Bool) (h : a.count.val < 8) :
    validBits (pushBit a b) = validBits a ++ [b] := by
  have hc := count_pushBit (a := a) b h
  apply bits_ext
  · simp [hc]
  · rw [natOfBits_append, validBits, validBits, natOfBits_msbBits, natOfBits_msbBits, hc]
    have hle : 2 ^ (a.count.val + 1) ∣ 256 := Nat.pow_dvd_pow 2 (show a.count.val + 1 ≤ 8 by omega)
    have hor : (pushBit a b).bits.toNat = (2 * a.bits.toNat + b.toNat) % 256 := by
      rw [bits_pushBit, BitVec.toNat_ofNat]
    rw [hor, Nat.mod_mod_of_dvd _ hle, Nat.pow_succ]
    cases b
    · simp only [Bool.toNat_false, natOfBits_cons, natOfBits_nil, List.length_nil, List.length_cons]
      rw [Nat.add_zero, Nat.mul_comm 2, Nat.mul_mod_mul_right]
      simp
    · simp only [Bool.toNat_true, natOfBits_cons, natOfBits_nil, List.length_nil, List.length_cons]
      have hp : 0 < 2 ^ a.count.val := Nat.two_pow_pos _
      have h2 := Nat.mod_add_div a.bits.toNat (2 ^ a.count.val)
      have h3 := Nat.mod_lt a.bits.toNat hp
      generalize a.bits.toNat % 2 ^ a.count.val = m at *
      generalize a.bits.toNat / 2 ^ a.count.val = q at *
      rw [← h2, show 2 * (m + 2 ^ a.count.val * q) + 1 = (2 * m + 1) + 2 ^ a.count.val * 2 * q by ring,
        Nat.add_mul_mod_self_left, Nat.mod_eq_of_lt (by omega)]
      ring

/-- `Push` keeps `bits < 2^count` (40_accumulator.md R101). -/
theorem accOk_pushBit {a : BitAcc} (b : Bool) (h : a.count.val < 8) (ha : accOk a) : accOk (pushBit a b) := by
  have hc := count_pushBit (a := a) b h
  have hlt : a.bits.toNat < 2 ^ a.count.val := ha
  simp only [accOk, hc, bits_pushBit, BitVec.toNat_ofNat, Nat.pow_succ]
  refine Nat.lt_of_le_of_lt (Nat.mod_le _ _) ?_
  cases b <;> simp <;> omega

/-- A push into an accumulator that keeps the invariant is the accumulator of one bit more. -/
theorem pushBit_eq_accOf {a : BitAcc} (b : Bool) (h : a.count.val < 8) (ha : accOk a) :
    pushBit a b = accOf (validBits a ++ [b]) :=
  acc_ext (accOk_pushBit b h ha) (accOk_accOf (by simp; omega)) (by
    rw [validBits_pushBit b h, validBits_accOf (by simp; omega)])

/-! ### The writer, with a sink that accepts -/

/-- `if full: Drain()` (41_writer.md R120, R121). -/
theorem drainIfFull_accepted {s : State} (ha : accOk s.wacc) (hw : HostWaits s) (hs : SinkAccepts s) :
    drainIfFull s = done (written [] s) := by
  by_cases hf : fullFlag s.wacc
  · have hc : s.wacc.count.val = 8 := by simpa [fullFlag] using hf
    have hl : (validBits s.wacc).length = 8 := by simp [hc]
    have hb : ofMsbBits 8 (validBits s.wacc) = s.wacc.bits := by
      rw [validBits, hc]
      exact ofMsbBits_msbBits _
    have h1 : wholeBytes (validBits s.wacc) = [s.wacc.bits] := by
      have := wholeBytes_byte_append [] hl
      simpa [hb, wholeBytes_short] using this
    have h2 : leftover (validBits s.wacc) = [] := by
      have := leftover_byte_append [] hl
      simpa [leftover_short] using this
    simp only [drainIfFull, if_pos hf, drain, pushByte_accepted _ hw hs, andThen_done, written, List.append_nil, h1, h2,
      accOf_nil]
    rfl
  · have hc : s.wacc.count.val < 8 := by
      have : s.wacc.count.val ≠ 8 := by simpa [fullFlag] using hf
      omega
    have hl : (validBits s.wacc).length < 8 := by simpa using hc
    have h0 : written [] s = s := by
      simp only [written, List.append_nil, wholeBytes_short hl, leftover_short hl, accOf_validBits ha, afterPushes_nil]
      rfl
    simp [drainIfFull, hf, h0]

theorem accOk_written (bs : List Bool) (s : State) : accOk (written bs s).wacc :=
  accOk_accOf (by simp; omega)

theorem count_written (bs : List Bool) (s : State) :
    (written bs s).wacc.count.val = (s.wacc.count.val + bs.length) % 8 := by
  rw [written_wacc, accOf_count (by simp; omega)]
  simp

theorem validBits_written (bs : List Bool) (s : State) :
    validBits (written bs s).wacc = leftover (validBits s.wacc ++ bs) := by
  rw [written_wacc, validBits_accOf (by simp; omega)]

theorem waits_written {bs : List Bool} {s : State} (hw : HostWaits s) : HostWaits (written bs s) := hw

theorem sinkAccepts_written {bs : List Bool} {s : State} (hs : SinkAccepts s) : SinkAccepts (written bs s) :=
  ⟨fun r hr => hs.1 r (List.mem_of_mem_drop hr), hs.2⟩

/-- Writing in two goes. -/
theorem written_written (xs ys : List Bool) (s : State) : written ys (written xs s) = written (xs ++ ys) s := by
  refine State.ext_fields ?_ rfl rfl rfl rfl rfl ?_
  · simp only [written_wacc, ← List.append_assoc]
    rw [leftover_append (validBits s.wacc ++ xs) ys, validBits_accOf (by simp; omega)]
  · simp only [written_host, written_wacc, validBits_accOf (show (leftover (validBits s.wacc ++ xs)).length ≤ 8 by simp; omega),
      afterPushes_append, ← List.append_assoc]
    rw [← wholeBytes_append]

/-- One round of the loop of `WriteBits`: push a bit, drain if full (41_writer.md R121). -/
theorem writeRound_accepted {s : State} (b : Bool) (ha : accOk s.wacc) (hc : s.wacc.count.val < 8) (hw : HostWaits s)
    (hs : SinkAccepts s) : drainIfFull (s.setWacc (pushBit s.wacc b)) = done (written [b] s) := by
  rw [drainIfFull_accepted (s := s.setWacc (pushBit s.wacc b)) (accOk_pushBit b hc ha) hw hs]
  congr 1
  refine State.ext_fields ?_ rfl rfl rfl rfl rfl ?_ <;>
    simp [validBits_pushBit b hc]

theorem writeLoop_accepted (bs : List Bool) {s : State} (ha : accOk s.wacc) (hc : s.wacc.count.val < 8) (hw : HostWaits s)
    (hs : SinkAccepts s) : writeLoop bs s = done (written bs s) := by
  induction bs generalizing s with
  | nil =>
    have hl : (validBits s.wacc).length < 8 := by simpa using hc
    rw [writeLoop]
    congr 1
    refine State.ext_fields ?_ rfl rfl rfl rfl rfl ?_
    · simp [leftover_short hl, accOf_validBits ha]
    · simp [wholeBytes_short hl, afterPushes_nil]
  | cons b bs ih =>
    rw [writeLoop, writeRound_accepted b ha hc hw hs, andThen_done,
      ih (accOk_written _ _) (by rw [count_written]; omega) (waits_written hw) (sinkAccepts_written hs), written_written]
    rfl

/-- `WriteBits(v, w)` with a sink that accepts (41_writer.md R121, R124). -/
theorem writeBits_accepted {w : Nat} (v : BitVec w) {s : State} (ha : accOk s.wacc) (hw : HostWaits s)
    (hs : SinkAccepts s) : writeBits w v s = done (written (msbBits w v) s) := by
  rw [writeBits, drainIfFull_accepted ha hw hs, andThen_done,
    writeLoop_accepted _ (accOk_written _ _) (by rw [count_written]; omega) (waits_written hw) (sinkAccepts_written hs),
    written_written]
  rfl

end Sys2Proof.Machine
end

