-- ==== Sys2Proof/Laws/Reader.lean ====
section
/-! SUPPORT. What ReadBits returns and leaves, in terms of the valid bits (42_reader.md R141 to R146). -/

namespace Sys2Proof.Machine

theorem take_msbBits {u : Nat} (n w : Nat) (v : BitVec u) (h : w ≤ n) :
    natOfBits ((msbBits n v).take w) = v.toNat / 2 ^ (n - w) % 2 ^ w := by
  have hd := List.take_append_drop w (msbBits n v)
  have h1 := natOfBits_append ((msbBits n v).take w) ((msbBits n v).drop w)
  rw [hd, natOfBits_msbBits] at h1
  have h2 := natOfBits_lt ((msbBits n v).drop w)
  have hl : ((msbBits n v).drop w).length = n - w := by simp
  rw [hl] at h1 h2
  have h3 : v.toNat % 2 ^ n / 2 ^ (n - w) = natOfBits ((msbBits n v).take w) := by
    rw [h1, Nat.mul_comm, Nat.mul_add_div (Nat.two_pow_pos _), Nat.div_eq_of_lt h2, Nat.add_zero]
  rw [← h3, show 2 ^ n = 2 ^ (n - w) * 2 ^ w by rw [← Nat.pow_add]; congr 1; omega, Nat.mod_mul_right_div_self]

theorem drop_msbBits {u : Nat} (n w : Nat) (v : BitVec u) : (msbBits n v).drop w = msbBits (n - w) v := by
  induction n generalizing w with
  | zero => simp [msbBits]
  | succ n ih =>
    cases w with
    | zero => rfl
    | succ w => simp [msbBits, ih, Nat.add_sub_add_right]

/-- The fast path's value: the w oldest valid bits (R141). -/
theorem topBits_eq {w : Nat} {a : BitAcc} (h : w ≤ a.count.val) : topBits w a = ofMsbBits w ((validBits a).take w) := by
  apply BitVec.eq_of_toNat_eq
  rw [toNat_ofMsbBits (by simp), validBits, take_msbBits _ _ _ h, topBits, BitVec.toNat_setWidth,
    BitVec.toNat_ushiftRight, Nat.shiftRight_eq_div_pow]

/-- The fast path's accumulator: the other valid bits (R141). -/
theorem dropTop_eq (w : Nat) (a : BitAcc) : dropTop w a = accOf ((validBits a).drop w) := by
  have hlt : a.count.val - w ≤ 8 := by omega
  have hok : accOk (dropTop w a) := by
    have := (a.bits.setWidth (a.count.val - w)).isLt
    simp only [accOk, dropTop, BitVec.toNat_setWidth] at *
    exact Nat.lt_of_le_of_lt (Nat.mod_le _ _) this
  refine acc_ext hok (accOk_accOf (by simp; omega)) ?_
  rw [validBits_accOf (by simp; omega), validBits, validBits, drop_msbBits]
  show msbBits (a.count.val - w) ((a.bits.setWidth (a.count.val - w)).setWidth 8) = _
  apply msbBits_cast
  have h1 := (a.bits.setWidth (a.count.val - w)).isLt
  have h2 : 2 ^ (a.count.val - w) ≤ 2 ^ 8 := Nat.pow_le_pow_right (by decide) hlt
  rw [BitVec.toNat_setWidth, Nat.mod_eq_of_lt (Nat.lt_of_lt_of_le h1 h2), BitVec.toNat_setWidth, Nat.mod_mod]

/-- The value captured when the count reaches w: the valid bits (R142, R143). -/
theorem capture_eq {w : Nat} {a : BitAcc} (h : a.count.val = w) : a.bits.setWidth w = ofMsbBits w (validBits a) := by
  apply BitVec.eq_of_toNat_eq
  rw [toNat_ofMsbBits (by simp [h]), validBits, natOfBits_msbBits, BitVec.toNat_setWidth, h]

/-- n pushes, n ≤ 8 in all, append the n bits (40_accumulator.md R105). -/
theorem foldl_pushBit {a : BitAcc} (bs : List Bool) (ha : accOk a) (h : a.count.val + bs.length ≤ 8) :
    bs.foldl pushBit a = accOf (validBits a ++ bs) := by
  induction bs generalizing a with
  | nil => simp [accOf_validBits ha]
  | cons b bs ih =>
    have hc : a.count.val < 8 := by simp at h; omega
    rw [List.foldl_cons, ih (accOk_pushBit b hc ha) (by rw [count_pushBit b hc]; simp at h; omega),
      validBits_pushBit b hc, List.append_assoc]
    rfl

theorem refillRetain_captured {w : Nat} (v : BitVec w) (bs : List Bool) (a : BitAcc) :
    refillRetain w (some v) bs a = (some v, bs.foldl pushBit a) := by
  induction bs generalizing a with
  | nil => rfl
  | cons b bs ih => simp [refillRetain, ih]

/-- The refill in Retain mode (R142, R145): the value is the first w of the held bits and the byte's bits, and the
rest stay. -/
theorem refillRetain_eq {w : Nat} {a : BitAcc} (bs : List Bool) (hw : w ≤ 8) (hc : a.count.val < w)
    (hl : w ≤ a.count.val + bs.length) (hb : bs.length ≤ 8) :
    refillRetain w none bs a =
      (some (ofMsbBits w ((validBits a ++ bs).take w)), accOf ((validBits a ++ bs).drop w)) := by
  induction bs generalizing a with
  | nil => simp at hl; omega
  | cons b bs ih =>
    have h8 : a.count.val < 8 := by omega
    have hp := count_pushBit (a := a) b h8
    by_cases he : a.count.val + 1 = w
    · have hv : (validBits (pushBit a b)).length = w := by simp [hp, he]
      have happ : validBits a ++ b :: bs = validBits (pushBit a b) ++ bs := by simp [validBits_pushBit b h8]
      have hle : bs.length ≤ 8 := by simp at hb; omega
      rw [refillRetain, if_pos (by simp [hp, he]), refillRetain_captured, capture_eq (hp.trans he),
        foldl_pushBit bs accOk_empty (by simpa [BitAcc.empty] using hle), happ, ← hv, List.take_left, List.drop_left]
      simp
    · have hne : ¬ ((none : Option (BitVec w)).isNone && (pushBit a b).count.val == w) = true := by simp [hp, he]
      rw [refillRetain, if_neg hne, ih (by omega) (by simp at hl; omega) (by simp at hb; omega), validBits_pushBit b h8]
      simp

/-- The refill in Discard mode (R143, R146): the same value, and nothing stays. -/
theorem refillDiscard_eq {w : Nat} {a : BitAcc} (bs : List Bool) (hw : w ≤ 8) (hc : a.count.val < w)
    (hl : w ≤ a.count.val + bs.length) :
    refillDiscard w bs a = (some (ofMsbBits w ((validBits a ++ bs).take w)), BitAcc.empty) := by
  induction bs generalizing a with
  | nil => simp at hl; omega
  | cons b bs ih =>
    have h8 : a.count.val < 8 := by omega
    have hp := count_pushBit (a := a) b h8
    by_cases he : a.count.val + 1 = w
    · have hv : (validBits (pushBit a b)).length = w := by simp [hp, he]
      have happ : validBits a ++ b :: bs = validBits (pushBit a b) ++ bs := by simp [validBits_pushBit b h8]
      rw [refillDiscard, if_pos (by simp [hp, he]), capture_eq (hp.trans he), happ, ← hv, List.take_left]
    · have hne : ¬ ((pushBit a b).count.val == w) = true := by simp [hp, he]
      rw [refillDiscard, if_neg hne, ih (by omega) (by simp at hl; omega), validBits_pushBit b h8]
      simp

/-- A refill's value is the first w of the held bits and the byte's bits, in both modes (R142, R143). -/
theorem refill_value (m : ReaderMode) {w : Nat} {a : BitAcc} (B : Byte) (hw : w ≤ 8) (hc : a.count.val < w) :
    (refill m w B a).1 = ofMsbBits w ((validBits a ++ msbBits 8 B).take w) := by
  cases m
  · simp [refill, refillRetain_eq (msbBits 8 B) hw hc (by simp; omega) (by simp)]
  · simp [refill, refillDiscard_eq (msbBits 8 B) hw hc (by simp; omega)]

/-- After a refill in Retain mode the other bits are held (R145). -/
theorem refill_retain_acc {w : Nat} {a : BitAcc} (B : Byte) (hw : w ≤ 8) (hc : a.count.val < w) :
    (refill .retain w B a).2 = accOf ((validBits a ++ msbBits 8 B).drop w) := by
  simp [refill, refillRetain_eq (msbBits 8 B) hw hc (by simp; omega) (by simp)]

/-- After a refill in Discard mode nothing is held (R146). -/
theorem refill_discard_acc {w : Nat} {a : BitAcc} (B : Byte) (hw : w ≤ 8) (hc : a.count.val < w) :
    (refill .discard w B a).2 = BitAcc.empty := by
  simp [refill, refillDiscard_eq (msbBits 8 B) hw hc (by simp; omega)]

/-- The fast path of ReadBits (R141): no I/O. -/
theorem readBits_fast {w : Nat} {s : State} (h : w ≤ s.racc.count.val) :
    readBits w s = .ok (some (ofMsbBits w ((validBits s.racc).take w)))
      (s.setRacc (accOf ((validBits s.racc).drop w))) := by
  rw [readBits, if_pos h, topBits_eq h, dropTop_eq]

/-- The refill path of ReadBits on `Byte(B)` (R142, R143). -/
theorem readBits_refill {w : Nat} {s : State} {B : Byte} {rest : Answers SrcReply} (hw8 : w ≤ 8)
    (h : s.racc.count.val < w) (hw : HostWaits s) (hn : NextPull s (.byte B) rest) :
    readBits w s = .ok (some (ofMsbBits w ((validBits s.racc ++ msbBits 8 B).take w)))
      ((s.setHost (afterPull (.byte B) rest s.host)).setRacc (refill s.params.readerMode w B s.racc).2) := by
  rw [readBits, if_neg (by omega), srcPull_answered hw hn, andThen_ok]
  simp [refill_value _ B hw8 h]

/-- ReadBits at the end of the stream (R144): RACC keeps its bits. -/
theorem readBits_end {w : Nat} {s : State} {rest : Answers SrcReply} (h : s.racc.count.val < w) (hw : HostWaits s)
    (hn : NextPull s .endOfStream rest) :
    readBits w s = .ok none (s.setHost (afterPull .endOfStream rest s.host)) := by
  rw [readBits, if_neg (by omega), srcPull_answered hw hn, andThen_ok]

/-- ReadBits when it needs a byte and the source never answers (60_exceptions.md R243). -/
theorem readBits_silent {w : Nat} {s : State} (h : s.racc.count.val < w) (hw : HostWaits s)
    (hn : nextAnswer s.host.src = none) : readBits w s = .stuck .hostSilent := by
  simp [readBits, Nat.not_le.mpr h, srcPull_silent hw hn]

/-- ReadBits when the source fails (R144): RACC keeps its bits. -/
theorem readBits_ioFail {w : Nat} {s : State} {rest : Answers SrcReply} (h : s.racc.count.val < w) (hw : HostWaits s)
    (hn : NextPull s .ioFail rest) :
    readBits w s = .raised ioSource (s.setHost (afterPull .ioFail rest s.host)) := by
  rw [readBits, if_neg (by omega), srcPull_answered hw hn, andThen_ok]

end Sys2Proof.Machine
end

