-- ==== Sys2Proof/Laws/Writer.lean ====
section
/-! SUPPORT. The end of a stream: FlushW with a sink that accepts (41_writer.md R122, R123). -/

namespace Sys2Proof.Machine

theorem natOfBits_replicate_false (n : Nat) : natOfBits (List.replicate n false) = 0 := by
  induction n with
  | zero => rfl
  | succ n ih => simp [List.replicate_succ, natOfBits_cons, ih]

/-- The byte that FlushW emits: the pending bits, then zeros (R122). -/
theorem flushByte_eq {a : BitAcc} (ha : accOk a) :
    flushByte a = ofMsbBits 8 (validBits a ++ List.replicate (8 - a.count.val) false) := by
  have hc : a.count.val ≤ 8 := by omega
  have hlt : a.bits.toNat < 2 ^ a.count.val := ha
  have h8 : 2 ^ a.count.val * 2 ^ (8 - a.count.val) = 256 := by
    rw [← Nat.pow_add, Nat.add_sub_of_le hc]
  apply BitVec.eq_of_toNat_eq
  rw [toNat_ofMsbBits (by simp; omega), natOfBits_append, natOfBits_replicate_false, validBits, natOfBits_msbBits,
    Nat.mod_eq_of_lt hlt, List.length_replicate, flushByte, BitVec.toNat_shiftLeft, Nat.shiftLeft_eq, Nat.add_zero]
  apply Nat.mod_eq_of_lt
  have := Nat.mul_lt_mul_of_pos_right hlt (Nat.two_pow_pos (8 - a.count.val))
  omega

/-- The bytes FlushW emits for at most 8 pending bits with no padding escape (R123). -/
theorem wholeBytes_padded {bs : List Bool} (h0 : 0 < bs.length) (h : bs.length ≤ 8) :
    wholeBytes (bs ++ List.replicate (8 - bs.length) false) =
      [ofMsbBits 8 (bs ++ List.replicate (8 - bs.length) false)] := by
  have := wholeBytes_byte_append (x := bs ++ List.replicate (8 - bs.length) false) [] (by simp; omega)
  simpa [wholeBytes_short] using this

/-- `FlushW` on 4 to 8 pending bits: one byte, no padding escape (R123). -/
theorem flushW_accepted_plain {s : State} (ha : accOk s.wacc) (h4 : 4 ≤ s.wacc.count.val) (hw : HostWaits s)
    (hs : SinkAccepts s) : flushW s = done (flushed s) := by
  have hc : s.wacc.count.val ≤ 8 := by omega
  have hne : s.wacc.count.val ≠ 0 := by omega
  have hpad : inPadEscSet s.wacc.count.val = false := by simp [inPadEscSet]; omega
  have hbytes : flushedBytes (validBits s.wacc) = [flushByte s.wacc] := by
    rw [flushByte_eq ha, flushedBytes, length_validBits]
    have hp := wholeBytes_padded (bs := validBits s.wacc) (by simp; omega) (by simpa using hc)
    rw [length_validBits] at hp
    by_cases h8 : s.wacc.count.val = 8
    · simpa [h8, terminalBits] using hp
    · have hm : s.wacc.count.val % 8 = s.wacc.count.val := Nat.mod_eq_of_lt (by omega)
      simpa [hm, terminalBits, hne, hpad] using hp
  simp only [flushW, if_neg hne, hpad, andThen_done, if_pos (show 0 < s.wacc.count.val by omega),
    pushByte_accepted _ hw hs, flushed, hbytes, Bool.false_eq_true, if_false]
  rfl

/-- `FlushW` on 1 to 3 pending bits: the padding escape completes the one byte (R122, R123). -/
theorem flushW_accepted_escape {s : State} (ha : accOk s.wacc) (h1 : 1 ≤ s.wacc.count.val) (h3 : s.wacc.count.val ≤ 3)
    (hw : HostWaits s) (hs : SinkAccepts s) : flushW s = done (flushed s) := by
  have hne : s.wacc.count.val ≠ 0 := by omega
  have hpad : inPadEscSet s.wacc.count.val = true := by simp [inPadEscSet]; omega
  have hm : s.wacc.count.val % 8 = s.wacc.count.val := Nat.mod_eq_of_lt (by omega)
  simp only [flushW, if_neg hne, hpad, if_true, writeBits_accepted ESC ha hw hs, andThen_done]
  have hct := count_written (msbBits 5 ESC) s
  rw [length_msbBits] at hct
  by_cases hk : s.wacc.count.val = 3
  · have hz : ¬ 0 < (written (msbBits 5 ESC) s).wacc.count.val := by rw [hct, hk]; decide
    rw [if_neg hz, andThen_done]
    congr 1
    refine State.ext_fields rfl rfl rfl rfl rfl rfl ?_
    simp only [setWacc_host, written_host, flushed_host, flushedBytes, length_validBits, hm]
    rw [terminalBits, if_neg hne, hpad, hk]
    simp
  · have hlen : s.wacc.count.val + 5 < 8 := by omega
    have hshort : (validBits s.wacc ++ msbBits 5 ESC).length < 8 := by simpa using hlen
    have hz : 0 < (written (msbBits 5 ESC) s).wacc.count.val := by omega
    rw [if_pos hz, pushByte_accepted _ (waits_written hw) (sinkAccepts_written hs), andThen_done,
      flushByte_eq (accOk_written _ _), validBits_written, hct, leftover_short hshort]
    congr 1
    refine State.ext_fields rfl rfl rfl rfl rfl rfl ?_
    have hb := wholeBytes_padded (bs := validBits s.wacc ++ msbBits 5 ESC) (by simp) (by simp; omega)
    have hr : 8 - (s.wacc.count.val + 5) = 3 - s.wacc.count.val := by omega
    simp only [List.length_append, length_validBits, length_msbBits, hr, List.append_assoc] at hb
    simp only [setWacc_host, setHost_host, written_host, flushed_host, flushedBytes, length_validBits, hm,
      wholeBytes_short hshort, afterPushes_nil, Nat.mod_eq_of_lt hlen, hr, List.append_assoc]
    simp [terminalBits, hpad, hne, hb]

/-- `FlushW()` with a sink that accepts (R122, R123). -/
theorem flushW_accepted {s : State} (ha : accOk s.wacc) (hw : HostWaits s) (hs : SinkAccepts s) :
    flushW s = done (flushed s) := by
  by_cases h0 : s.wacc.count.val = 0
  · have hv : validBits s.wacc = [] := List.eq_nil_of_length_eq_zero (by simpa using h0)
    have he : s.wacc = BitAcc.empty := by rw [← accOf_validBits ha, hv, accOf_nil]
    rw [flushW, if_pos h0]
    congr 1
    refine State.ext_fields he rfl rfl rfl rfl rfl ?_
    simp [hv, flushedBytes, terminalBits, wholeBytes_short, afterPushes_nil]
  · by_cases h3 : s.wacc.count.val ≤ 3
    · exact flushW_accepted_escape ha (by omega) h3 hw hs
    · exact flushW_accepted_plain ha (by omega) hw hs

end Sys2Proof.Machine
end

