-- ==== Sys2Proof/Laws/Frames.lean ====
section
/-! SUPPORT. What the shared operations leave unchanged, whatever the host answers and however they end. -/

namespace Sys2Proof.Machine

/-- Between `s` and `t` the pulls and pushes `es` were done, with the host's answers in order, and nothing else happened on
the ports (20_memory.md R51, R52, R58). -/
structure IoDone (es : List IoEvent) (s t : State) : Prop where
  trace : t.host.trace = s.host.trace ++ es
  pulled : pulledAnswers es = (takeAnswers (pullCount es) s.host.src).map srcAnswer
  pushed : pushedAnswers es = (takeAnswers (pushCount es) s.host.snk).map fun r => !r.fail
  src : t.host.src = dropAnswers (pullCount es) s.host.src
  snk : t.host.snk = dropAnswers (pushCount es) s.host.snk

theorem IoDone.trans {es fs : List IoEvent} {s t u : State} (h : IoDone es s t) (k : IoDone fs t u) :
    IoDone (es ++ fs) s u where
  trace := by rw [k.trace, h.trace, List.append_assoc]
  pulled := by rw [pulledAnswers_append, pullCount_append, takeAnswers_add, List.map_append, h.pulled, k.pulled, h.src]
  pushed := by rw [pushedAnswers_append, pushCount_append, takeAnswers_add, List.map_append, h.pushed, k.pushed, h.snk]
  src := by rw [k.src, h.src, dropAnswers_add, pullCount_append]
  snk := by rw [k.snk, h.snk, dropAnswers_add, pushCount_append]

/-- What nothing inside a command changes: the parameters, the host's events, the responses returned; and the record of
pulls and pushes only grows, by the host's answers in order. -/
def IoExtends (s t : State) : Prop :=
  t.params = s.params ∧ t.host.events = s.host.events ∧ t.host.resps = s.host.resps ∧ ∃ es, IoDone es s t

/-- A change of registers alone is such a change. -/
theorem IoExtends.of_eq {s t : State} (hp : t.params = s.params) (hh : t.host = s.host) : IoExtends s t :=
  ⟨hp, by rw [hh], by rw [hh], [],
    { trace := by rw [hh, List.append_nil], pulled := by simp, pushed := by simp, src := by rw [hh]; rfl, snk := by rw [hh]; rfl }⟩

theorem IoExtends.refl (s : State) : IoExtends s s := .of_eq rfl rfl

theorem IoExtends.trans {s t u : State} (h : IoExtends s t) (k : IoExtends t u) : IoExtends s u := by
  obtain ⟨h1, h2, h3, es, h4⟩ := h
  obtain ⟨k1, k2, k3, fs, k4⟩ := k
  exact ⟨k1.trans h1, k2.trans h2, k3.trans h3, es ++ fs, h4.trans k4⟩

/-- One answered pull. -/
theorem IoExtends.pull {s : State} {r : SrcReply} {rest : Answers SrcReply} (h : nextAnswer s.host.src = some (r, rest)) :
    IoExtends s (s.setHost { countDown s.host with src := rest, trace := s.host.trace ++ [.pull (srcAnswer r)] }) :=
  ⟨rfl, rfl, rfl, [.pull (srcAnswer r)],
    { trace := rfl, pulled := by simp [pulledAnswers, pullCount, takeAnswers_one h]
      pushed := by simp [pushedAnswers, pushCount], src := (dropAnswers_one h).symm, snk := rfl }⟩

/-- One answered push. -/
theorem IoExtends.push {s : State} {r : SnkReply} {rest : Answers SnkReply} (b : Byte)
    (h : nextAnswer s.host.snk = some (r, rest)) :
    IoExtends s (s.setHost { countDown s.host with snk := rest, trace := s.host.trace ++ [.push b (!r.fail)] }) :=
  ⟨rfl, rfl, rfl, [.push b (!r.fail)],
    { trace := rfl, pulled := by simp [pulledAnswers, pullCount]
      pushed := by
        rw [show pushCount [.push b (!r.fail)] = 1 from rfl, takeAnswers_one h]
        rfl
      src := rfl
      snk := (dropAnswers_one h).symm }⟩

/-- What the writer's operations change: WACC, the sink's answers and the record of pushes. -/
def WriterKeeps (s t : State) : Prop :=
  t.racc = s.racc ∧ t.phase = s.phase ∧ t.err = s.err ∧ t.resp = s.resp ∧ t.host.src = s.host.src ∧ IoExtends s t

theorem WriterKeeps.refl (s : State) : WriterKeeps s s := ⟨rfl, rfl, rfl, rfl, rfl, .refl s⟩

theorem WriterKeeps.trans {s t u : State} (h : WriterKeeps s t) (k : WriterKeeps t u) : WriterKeeps s u := by
  obtain ⟨h1, h2, h3, h4, h5, h6⟩ := h
  obtain ⟨k1, k2, k3, k4, k5, k6⟩ := k
  exact ⟨k1.trans h1, k2.trans h2, k3.trans h3, k4.trans h4, k5.trans h5, h6.trans k6⟩

theorem WriterKeeps.setWacc (s : State) (a : BitAcc) : WriterKeeps s (s.setWacc a) :=
  ⟨rfl, rfl, rfl, rfl, rfl, .of_eq rfl rfl⟩

/-- What the reader's operations change: RACC, the source's answers and the record of pulls. -/
def ReaderKeeps (s t : State) : Prop :=
  t.wacc = s.wacc ∧ t.phase = s.phase ∧ t.err = s.err ∧ t.resp = s.resp ∧ t.host.snk = s.host.snk ∧ IoExtends s t

/-- `SrcPull()` changes the source's answers and the record only. -/
theorem endsIn_srcPull (s : State) : EndsIn (fun t => ReaderKeeps s t ∧ t.racc = s.racc) (srcPull s) := by
  rcases srcPull_cases s with ⟨_, h⟩ | ⟨_, r, rest, hn, h⟩ | ⟨_, _, h⟩ <;> rw [h]
  · exact ⟨⟨rfl, rfl, rfl, rfl, rfl, .refl s⟩, rfl⟩
  · exact ⟨⟨rfl, rfl, rfl, rfl, rfl, .pull hn⟩, rfl⟩
  · trivial

/-- `SinkPush(b)` changes the sink's answers and the record only. -/
theorem endsIn_pushByte (b : Byte) (s : State) : EndsIn (fun t => WriterKeeps s t ∧ t.wacc = s.wacc) (pushByte b s) := by
  rcases sinkPush_cases b s with ⟨_, h⟩ | ⟨_, r, rest, hn, h⟩ | ⟨_, _, h⟩ <;> rw [pushByte, h]
  · exact ⟨.refl s, rfl⟩
  · have hk := IoExtends.push b hn
    cases hf : r.fail <;> rw [hf] at hk <;> exact ⟨⟨rfl, rfl, rfl, rfl, rfl, hk⟩, rfl⟩
  · trivial

theorem endsIn_drainIfFull (s : State) : EndsIn (WriterKeeps s) (drainIfFull s) := by
  unfold drainIfFull
  split
  · exact endsIn_andThen (P := WriterKeeps s)
      (by have := endsIn_pushByte s.wacc.bits s
          cases h : pushByte s.wacc.bits s <;> simp_all [EndsIn])
      (fun _ h => h) (fun _ t h => h.trans (.setWacc t _))
  · exact WriterKeeps.refl s

theorem endsIn_writeLoop (bs : List Bool) (s : State) : EndsIn (WriterKeeps s) (writeLoop bs s) := by
  induction bs generalizing s with
  | nil => exact WriterKeeps.refl s
  | cons b bs ih =>
    refine endsIn_andThen (P := WriterKeeps s) ?_ (fun _ h => h) (fun _ t h => ?_)
    · have h1 := endsIn_drainIfFull (s.setWacc (pushBit s.wacc b))
      have h0 := WriterKeeps.setWacc s (pushBit s.wacc b)
      cases hr : drainIfFull (s.setWacc (pushBit s.wacc b)) <;> rw [hr] at h1 <;> first | exact h0.trans h1 | trivial
    · have h1 := ih t
      cases hr : writeLoop bs t <;> rw [hr] at h1 <;> first | exact h.trans h1 | trivial

/-- `WriteBits(v, w)` changes WACC, the sink's answers and the record of pushes only (41_writer.md R121). -/
theorem endsIn_writeBits (w : Nat) (v : BitVec w) (s : State) : EndsIn (WriterKeeps s) (writeBits w v s) := by
  refine endsIn_andThen (endsIn_drainIfFull s) (fun _ h => h) (fun _ t h => ?_)
  have h1 := endsIn_writeLoop (msbBits w v) t
  cases hr : writeLoop (msbBits w v) t <;> rw [hr] at h1 <;> first | exact h.trans h1 | trivial

/-- `ReadBits(w)` changes RACC, the source's answers and the record of pulls only (42_reader.md R140). -/
theorem endsIn_readBits (w : Nat) (s : State) : EndsIn (ReaderKeeps s) (readBits w s) := by
  unfold readBits
  split
  · exact ⟨rfl, rfl, rfl, rfl, rfl, .of_eq rfl rfl⟩
  · have h1 := endsIn_srcPull s
    cases hr : srcPull s with
    | ok a t =>
      rw [hr] at h1
      obtain ⟨⟨k1, k2, k3, k4, k5, k6⟩, _⟩ := h1
      cases a with
      | byte B => exact ⟨k1, k2, k3, k4, k5, k6.trans (.of_eq rfl rfl)⟩
      | endOfStream => exact ⟨k1, k2, k3, k4, k5, k6⟩
      | ioFail => exact ⟨k1, k2, k3, k4, k5, k6⟩
    | raised e t => rw [hr] at h1; exact h1.1
    | cut t => rw [hr] at h1; exact h1.1
    | stuck f => trivial

/-- Two changes of the shared kind that leave other registers free still only extend the record. -/
theorem endsIn_mono {α : Type} {P Q : State → Prop} {r : Run α} (h : EndsIn P r) (hpq : ∀ s, P s → Q s) :
    EndsIn Q r := by
  cases r with
  | ok a s => exact hpq s h
  | raised e s => exact hpq s h
  | cut s => exact hpq s h
  | stuck f => trivial

end Sys2Proof.Machine
end

