-- ==== Sys2Proof/Laws/Guard.lean ====
section
/-! SUPPORT. What the phase guard, a rejected command, the two lookups and the effects of the tokens do, said once. -/

namespace Sys2Proof.Machine

/-- A command that is legal runs its body. -/
theorem guarded_legal {g : Group} {s : State} (body : State → Run Unit) (h : legal g s.phase = true) :
    guarded g body s = settle (body s) := by simp [guarded, h]

/-- A command that is not legal is rejected, whatever its body. -/
theorem guarded_not_legal {g : Group} {s : State} (body : State → Run Unit) (h : legal g s.phase = false) :
    guarded g body s = .next (rejectCommand 1#8 s) := by simp [guarded, h]

/-- If a guarded command answers a next state, the body ended there, or raised or was cut off, or the command was
rejected. -/
theorem guarded_next {g : Group} {body : State → Run Unit} {s t : State} (h : guarded g body s = .next t) :
    (legal g s.phase = true ∧ settle (body s) = .next t) ∨ (legal g s.phase = false ∧ t = rejectCommand 1#8 s) := by
  unfold guarded at h
  split at h
  · exact .inl ⟨‹_›, h⟩
  · exact .inr ⟨by simpa using ‹¬ legal g s.phase = true›, by cases h; rfl⟩

theorem rejectCommand_error {s : State} (info : BitVec 8) (h : s.phase = .error) :
    rejectCommand info s = ignoreInError s := by simp [rejectCommand, h]

theorem rejectCommand_raises {s : State} (info : BitVec 8) (h : s.phase ≠ .error) :
    rejectCommand info s = takeError (illegalCommand info) s := by simp [rejectCommand, h]

/-- REV as a list lookup. -/
theorem decodeCode_eq (p : Params) (c : Byte) : decodeCode p c = p.alphabet.toList[c.toNat]? := by
  unfold decodeCode
  split
  · rename_i h
    rw [List.getElem?_eq_getElem (by simpa using h)]
    simp
  · rename_i h
    rw [List.getElem?_eq_none (by simpa using h)]

/-- FWD answers a code that holds the byte, or ESC where no code does. -/
theorem encodeByte_cases (p : Params) (b : Byte) :
    (∃ c, p.alphabet.toList.findIdx? (fun x => x == b) = some c ∧ encodeByte p b = BitVec.ofNat 5 c) ∨
    (b ∉ p.alphabet.toList ∧ encodeByte p b = ESC) := by
  unfold encodeByte
  cases h : p.alphabet.toList.findIdx? (fun x => x == b) with
  | some c => exact .inl ⟨c, rfl, rfl⟩
  | none =>
    refine .inr ⟨fun hb => ?_, rfl⟩
    have := List.findIdx?_eq_none_iff.mp h b hb
    simp at this

/-- A symbol of a code that is held is pushed and answered. -/
theorem emitSymbol_some {c : Code} {d : Byte} {s : State} (h : decodeCode s.params (c.setWidth 8) = some d) :
    emitSymbol c s = andThen (pushByte d s) fun _ t => done (t.setResp ⟨.ok, d⟩) := by simp [emitSymbol, h]

/-! ### Commands in sequence -/

@[simp] theorem thenRun_next (s : State) (k : State → Host.Outcome State Fault Refusal) : thenRun (.next s) k = k s := rfl
@[simp] theorem thenRun_fault (f : Fault) (k : State → Host.Outcome State Fault Refusal) :
    thenRun (.fault f) k = .fault f := rfl
@[simp] theorem thenRun_refused (r : Refusal) (k : State → Host.Outcome State Fault Refusal) :
    thenRun (.refused r) k = .refused r := rfl

/-- A sequence that answers a next state passes through one. -/
theorem thenRun_eq_next {o : Host.Outcome State Fault Refusal} {k : State → Host.Outcome State Fault Refusal} {u : State} :
    thenRun o k = .next u ↔ ∃ t, o = .next t ∧ k t = .next u := by
  cases o <;> simp [thenRun]

@[simp] theorem runTimes_zero (i : Instr) (s : State) : runTimes i 0 s = .next s := rfl
theorem runTimes_succ (i : Instr) (n : Nat) (s : State) :
    runTimes i (n + 1) s = thenRun (exec i s) fun t => runTimes i n t := rfl

/-- The loop of a pass is over where the phase is another. -/
theorem runWhile_over {p : Phase} {s : State} (i : Instr) (n : Nat) (h : s.phase ≠ p) : runWhile p i n s = .next s := by
  cases n <;> simp [runWhile, h]

/-- The loop of a pass goes round once more. -/
theorem runWhile_round {p : Phase} {s : State} (i : Instr) (n : Nat) (h : s.phase = p) :
    runWhile p i (n + 1) s = thenRun (exec i s) fun t => runWhile p i n t := by
  simp [runWhile, h]

end Sys2Proof.Machine
end

