-- ==== Sys2Proof/Laws/PerInstr.lean ====
section
/-! SUPPORT. One family of lemmas, one for each instruction: its encoding has the length and the fixed bits that its
row of spec/opcode_table.json gives it, and no bit outside the row's word. -/

namespace Sys2Proof.Laws

/-- The length in bits and the number of an encoding, bits numbered as spec/opcode_table.json numbers them. -/
def numberOf (e : Encoded) : Nat × Nat :=
  match e with
  | .command w => (16, w.toNat)
  | .token _ bs => (bs.length, natOfBits bs)

/-- An instruction's row of spec/opcode_table.json: its length in bits, `mask` and `match`. -/
def tableRow (i : Instr) : Nat × Nat × Nat :=
  match i with
  | .accPush _ _ => (16, 0xFBFE, 0x0800)
  | .accIsFull _ => (16, 0xFBFF, 0x1000)
  | .accClear _ => (16, 0xFBFF, 0x1800)
  | .wrWrite5 _ => (16, 0xFF00, 0x2000)
  | .wrWrite8 _ => (16, 0xFF00, 0x2800)
  | .wrFlush => (16, 0xFFFF, 0x3000)
  | .rdRead5 => (16, 0xFFFF, 0x3800)
  | .rdRead8 => (16, 0xFFFF, 0x4000)
  | .tblEncode _ => (16, 0xFF00, 0x4800)
  | .tblDecode _ => (16, 0xFF00, 0x5000)
  | .cBegin => (16, 0xFFFF, 0x5800)
  | .cStep => (16, 0xFFFF, 0x6000)
  | .cPass => (16, 0xFFFF, 0x6800)
  | .dBegin => (16, 0xFFFF, 0x7000)
  | .dStep => (16, 0xFFFF, 0x7800)
  | .dPass => (16, 0xFFFF, 0x8000)
  | .ctlIdle => (16, 0xFFFF, 0x8800)
  | .streamVersion => (5, 0x1F, 0x01)
  | .streamSym _ => (5, 0x00, 0x00)
  | .streamEsc _ => (13, 0x1F00, 0x1F00)
  | .streamPadEsc => (5, 0x1F, 0x1F)

/-- The encoding of the instruction agrees with its row. -/
def EncodingMatchesRow.Statement (i : Instr) : Prop :=
  (numberOf (encode i)).1 = (tableRow i).1 ∧
  (numberOf (encode i)).2 &&& (tableRow i).2.1 = (tableRow i).2.2 ∧
  (numberOf (encode i)).2 < 2 ^ (tableRow i).1

theorem EncodingMatchesRow.accPush (sel : Sel) (bit : Bool) : EncodingMatchesRow.Statement (.accPush sel bit) := by
  cases sel <;> cases bit <;> (unfold EncodingMatchesRow.Statement; decide)

theorem EncodingMatchesRow.accIsFull (sel : Sel) : EncodingMatchesRow.Statement (.accIsFull sel) := by
  cases sel <;> (unfold EncodingMatchesRow.Statement; decide)

theorem EncodingMatchesRow.accClear (sel : Sel) : EncodingMatchesRow.Statement (.accClear sel) := by
  cases sel <;> (unfold EncodingMatchesRow.Statement; decide)

theorem EncodingMatchesRow.wrWrite5 (value : Code) : EncodingMatchesRow.Statement (.wrWrite5 value) := by
  revert value; unfold EncodingMatchesRow.Statement; decide

theorem EncodingMatchesRow.wrWrite8 (value : Byte) : EncodingMatchesRow.Statement (.wrWrite8 value) := by
  revert value; unfold EncodingMatchesRow.Statement; decide

theorem EncodingMatchesRow.wrFlush : EncodingMatchesRow.Statement .wrFlush := by
  unfold EncodingMatchesRow.Statement; decide

theorem EncodingMatchesRow.rdRead5 : EncodingMatchesRow.Statement .rdRead5 := by
  unfold EncodingMatchesRow.Statement; decide

theorem EncodingMatchesRow.rdRead8 : EncodingMatchesRow.Statement .rdRead8 := by
  unfold EncodingMatchesRow.Statement; decide

theorem EncodingMatchesRow.tblEncode (byte : Byte) : EncodingMatchesRow.Statement (.tblEncode byte) := by
  revert byte; unfold EncodingMatchesRow.Statement; decide

theorem EncodingMatchesRow.tblDecode (code : Byte) : EncodingMatchesRow.Statement (.tblDecode code) := by
  revert code; unfold EncodingMatchesRow.Statement; decide

theorem EncodingMatchesRow.cBegin : EncodingMatchesRow.Statement .cBegin := by
  unfold EncodingMatchesRow.Statement; decide

theorem EncodingMatchesRow.cStep : EncodingMatchesRow.Statement .cStep := by
  unfold EncodingMatchesRow.Statement; decide

theorem EncodingMatchesRow.cPass : EncodingMatchesRow.Statement .cPass := by
  unfold EncodingMatchesRow.Statement; decide

theorem EncodingMatchesRow.dBegin : EncodingMatchesRow.Statement .dBegin := by
  unfold EncodingMatchesRow.Statement; decide

theorem EncodingMatchesRow.dStep : EncodingMatchesRow.Statement .dStep := by
  unfold EncodingMatchesRow.Statement; decide

theorem EncodingMatchesRow.dPass : EncodingMatchesRow.Statement .dPass := by
  unfold EncodingMatchesRow.Statement; decide

theorem EncodingMatchesRow.ctlIdle : EncodingMatchesRow.Statement .ctlIdle := by
  unfold EncodingMatchesRow.Statement; decide

theorem EncodingMatchesRow.streamVersion : EncodingMatchesRow.Statement .streamVersion := by
  unfold EncodingMatchesRow.Statement; decide

theorem EncodingMatchesRow.streamSym (c : Code) : EncodingMatchesRow.Statement (.streamSym c) := by
  revert c; unfold EncodingMatchesRow.Statement; decide

theorem EncodingMatchesRow.streamEsc (l : Byte) : EncodingMatchesRow.Statement (.streamEsc l) := by
  revert l; unfold EncodingMatchesRow.Statement; decide

theorem EncodingMatchesRow.streamPadEsc : EncodingMatchesRow.Statement .streamPadEsc := by
  unfold EncodingMatchesRow.Statement; decide

end Sys2Proof.Laws
end

