-- ==== Sys2Proof/Tests/Slice0.lean ====
section
/-! SUPPORT. Tests on small states, with expected results from the examples of spec/ (30_encoding.md R88,
95_test_vectors.md and the examples of the command rules), and for each statement a state that meets its hypotheses. -/

namespace Sys2Proof.Tests

open Sys2Proof.Machine

/-! ### Small states -/

/-- The test alphabet of 95_test_vectors.md Part 2 (not the hardware's table). -/
def testAlphabet : Vector Byte 31 :=
  #v[0x20#8, 0x0A#8, 0x61#8, 0x62#8, 0x63#8, 0x64#8, 0x65#8, 0x66#8, 0x67#8, 0x68#8, 0x69#8, 0x6A#8, 0x6B#8, 0x6C#8,
    0x6D#8, 0x6E#8, 0x6F#8, 0x70#8, 0x71#8, 0x72#8, 0x73#8, 0x74#8, 0x75#8, 0x76#8, 0x77#8, 0x78#8, 0x79#8, 0x7A#8,
    0x2E#8, 0x2C#8, 0x27#8]

/-- The reset state with the test alphabet, and both accumulators and the phase given. -/
def mk (p : Phase) (w r : BitAcc) : State :=
  { State.reset with params := ⟨testAlphabet, .retain, .acceptPad⟩, phase := p, wacc := w, racc := r }

/-- `s` with a source that gives these answers and then the state's own. -/
def src (rs : List SrcReply) (s : State) : State :=
  { s with host := { s.host with src := { s.host.src with queued := rs } } }

/-- `s` with a sink that gives these answers first. -/
def snk (rs : List SnkReply) (s : State) : State :=
  { s with host := { s.host with snk := { s.host.snk with queued := rs } } }

/-- `s` with the host's events given. -/
def ev (es : List HostEvent) (s : State) : State := { s with host := { s.host with events := es } }

/-- `s` in Discard mode. -/
def disc (s : State) : State := { s with params := { s.params with readerMode := .discard } }

/-- `s` in Strict mode. -/
def strict (s : State) : State := { s with params := { s.params with terminalEscape := .strict } }

/-- The answer Byte(b). -/
def byteR (b : Byte) : SrcReply := ⟨0#2, b⟩

/-- `s` with the source's answer for ever. -/
def srcEver (r : Option SrcReply) (s : State) : State :=
  { s with host := { s.host with src := { s.host.src with after := r } } }

/-- `s` with the sink's answer for ever. -/
def snkEver (r : Option SnkReply) (s : State) : State :=
  { s with host := { s.host with snk := { s.host.snk with after := r } } }

/-- The next state of an outcome, or `s` where there is none. -/
def nextOr (o : Host.Outcome State Fault Refusal) (s : State) : State :=
  match o with
  | .next t => t
  | .fault _ => s
  | .refused _ => s

/-- Is the outcome a next state? -/
def ran (o : Host.Outcome State Fault Refusal) : Bool :=
  match o with
  | .next _ => true
  | .fault _ => false
  | .refused _ => false

theorem next_of_ran {o : Host.Outcome State Fault Refusal} (s : State) (h : ran o = true) : o = .next (nextOr o s) := by
  cases o with
  | next t => rfl
  | fault f => simp [ran] at h
  | refused r => simp [ran] at h

/-- The fault of an outcome. -/
def stopped (o : Host.Outcome State Fault Refusal) : Option Fault :=
  match o with
  | .next _ => none
  | .fault f => some f
  | .refused _ => none

theorem fault_of_stopped {o : Host.Outcome State Fault Refusal} {f : Fault} (h : stopped o = some f) : o = .fault f := by
  cases o with
  | next t => simp [stopped] at h
  | fault g => simpa [stopped] using h
  | refused r => simp [stopped] at h

/-- What a test reads of a next state: the sink, both accumulators, RESP, STATUS. -/
def seen (o : Host.Outcome State Fault Refusal) : Option (List Byte × BitAcc × BitAcc × Resp × BitVec 16) :=
  match o with
  | .next s => some (sinkBytes s, s.wacc, s.racc, s.resp, statusWord s)
  | .fault _ => none
  | .refused _ => none

abbrev E : BitAcc := BitAcc.empty

/-! ### WellFormed: the one check refuses -/

theorem test_symbol_token_31_refused : wellFormed (.streamSym 31#5) = false := by decide
theorem test_symbol_token_30_accepted : wellFormed (.streamSym 30#5) = true := by decide

/-! ### Decode: every constructor from a word or token written out from its encoding (R71 to R74, R81, R84, R88) -/

theorem test_decode_accPush : decode (.command 0b0000100000000001#16) = .ok (.accPush .wacc true) := by decide
theorem test_decode_accPush_r0 : decode (.command 0x0C00#16) = .ok (.accPush .racc false) := by decide
theorem test_decode_accIsFull : decode (.command 0b0001010000000000#16) = .ok (.accIsFull .racc) := by decide
theorem test_decode_accClear : decode (.command 0b0001100000000000#16) = .ok (.accClear .wacc) := by decide
theorem test_decode_wrWrite5 : decode (.command 0b0010000000011111#16) = .ok (.wrWrite5 31#5) := by decide
theorem test_decode_wrWrite5_ignored : decode (.command 0x20E2#16) = .ok (.wrWrite5 2#5) := by decide
theorem test_decode_wrWrite8 : decode (.command 0b0010100001000001#16) = .ok (.wrWrite8 0x41#8) := by decide
theorem test_decode_wrFlush : decode (.command 0b0011000000000000#16) = .ok .wrFlush := by decide
theorem test_decode_rdRead5 : decode (.command 0b0011100000000000#16) = .ok .rdRead5 := by decide
theorem test_decode_rdRead8 : decode (.command 0b0100000000000000#16) = .ok .rdRead8 := by decide
theorem test_decode_tblEncode : decode (.command 0b0100100011000011#16) = .ok (.tblEncode 0xC3#8) := by decide
theorem test_decode_tblDecode : decode (.command 0b0101000011111111#16) = .ok (.tblDecode 255#8) := by decide
theorem test_decode_cBegin : decode (.command 0b0101100000000000#16) = .ok .cBegin := by decide
theorem test_decode_cStep : decode (.command 0b0110000000000000#16) = .ok .cStep := by decide
theorem test_decode_cPass : decode (.command 0b0110100000000000#16) = .ok .cPass := by decide
theorem test_decode_dBegin : decode (.command 0b0111000000000000#16) = .ok .dBegin := by decide
theorem test_decode_dStep : decode (.command 0b0111100000000000#16) = .ok .dStep := by decide
theorem test_decode_dPass : decode (.command 0b1000000000000000#16) = .ok .dPass := by decide
theorem test_decode_ctlIdle : decode (.command 0b1000100000000000#16) = .ok .ctlIdle := by decide
theorem test_decode_streamVersion :
    decode (.token true [false, false, false, false, true]) = .ok .streamVersion := by decide
theorem test_decode_streamSym : decode (.token false [false, false, true, true, false]) = .ok (.streamSym 6#5) := by decide
theorem test_decode_streamEsc :
    decode (.token false [true, true, true, true, true, false, true, false, false, true, false, false, false]) =
      .ok (.streamEsc 0x48#8) := by decide
theorem test_decode_streamPadEsc :
    decode (.token false [true, true, true, true, true, false, false]) = .ok .streamPadEsc := by decide
theorem test_illegal_zero : decode (.command 0x0000#16) = .error .reservedOpcode := by decide
theorem test_illegal_push_imm : decode (.command 0x0802#16) = .error .immNotZero := by decide
theorem test_illegal_rsv : decode (.command 0x2100#16) = .error .reservedBits := by decide
theorem test_illegal_sel : decode (.command 0x2400#16) = .error .selNotZero := by decide
theorem test_illegal_op_1f : decode (.command 0xF800#16) = .error .reservedOpcode := by decide
theorem test_truncated_literal :
    decode (.token false [true, true, true, true, true, false, true]) = .error .truncatedLiteral := by decide
theorem test_table_words :
    decodeTableWord 16 0x0801 = some (.accPush .wacc true) ∧ decodeTableWord 8 1 = some .streamVersion ∧
    decodeTableWord 8 31 = some .streamPadEsc ∧ decodeTableWord 8 0 = some (.streamSym 0#5) ∧
    decodeTableWord 16 0x1F41 = some (.streamEsc 0x41#8) ∧ decodeTableWord 16 0 = none := by decide

/-! ### One command each (the examples of the rules, 95_test_vectors.md Part 3) -/

theorem test_accPush : seen (exec (.accPush .wacc true) (mk .idle ⟨0b101#8, 3⟩ E)) =
    some ([], ⟨0b1011#8, 4⟩, E, ⟨.ok, 4#8⟩, 0#16) := by decide
theorem test_accPush_full : seen (exec (.accPush .wacc false) (mk .idle ⟨0xB2#8, 8⟩ E)) =
    some ([], ⟨0xB2#8, 8⟩, E, ⟨.error, 6#8⟩, 0x0264#16) := by decide
theorem test_accIsFull : seen (exec (.accIsFull .racc) (mk .idle E ⟨0xFF#8, 8⟩)) =
    some ([], E, ⟨0xFF#8, 8⟩, ⟨.ok, 1#8⟩, 0#16) := by decide
theorem test_accClear : seen (exec (.accClear .wacc) (mk .idle ⟨0b10#8, 2⟩ E)) =
    some ([], E, E, ⟨.ok, 0#8⟩, 0#16) := by decide
theorem test_wrWrite5 : seen (exec (.wrWrite5 2#5) (mk .idle ⟨0b00001#8, 5⟩ E)) =
    some ([0x08#8], ⟨0b10#8, 2⟩, E, ⟨.ok, 2#8⟩, 0#16) := by decide
theorem test_wrWrite5_refused :
    seen (exec (.wrWrite5 31#5) (snk [⟨true⟩] (mk .idle ⟨0b1111#8, 4⟩ E))) =
    some ([], ⟨0xFF#8, 8⟩, E, ⟨.error, 5#8⟩, 0x00D4#16) := by decide
theorem test_wrWrite8 : seen (exec (.wrWrite8 0x41#8) (mk .idle ⟨0b111#8, 3⟩ E)) =
    some ([0xE8#8], ⟨0b001#8, 3⟩, E, ⟨.ok, 3#8⟩, 0#16) := by decide
theorem test_wrWrite8_full : seen (exec (.wrWrite8 0x55#8) (mk .idle ⟨0xAA#8, 8⟩ E)) =
    some ([0xAA#8, 0x55#8], E, E, ⟨.ok, 0#8⟩, 0#16) := by decide
theorem test_wrFlush : seen (exec .wrFlush (mk .idle ⟨0b10#8, 2⟩ E)) =
    some ([0xBE#8], E, E, ⟨.ok, 0#8⟩, 0#16) := by decide
theorem test_wrFlush_three : seen (exec .wrFlush (mk .idle ⟨0b101#8, 3⟩ E)) =
    some ([0xBF#8], E, E, ⟨.ok, 0#8⟩, 0#16) := by decide
theorem test_rdRead5 : seen (exec .rdRead5 (src [byteR 0xFF#8] (mk .idle E ⟨0b101#8, 3⟩))) =
    some ([], E, ⟨0b111111#8, 6⟩, ⟨.ok, 23#8⟩, 0#16) := by decide
theorem test_rdRead5_discard : seen (exec .rdRead5 (src [byteR 0xFF#8] (disc (mk .idle E ⟨0b101#8, 3⟩)))) =
    some ([], E, E, ⟨.ok, 23#8⟩, 0#16) := by decide
theorem test_rdRead8 : seen (exec .rdRead8 (src [byteR 0x00#8] (mk .idle E ⟨0b1#8, 1⟩))) =
    some ([], E, ⟨0b0#8, 1⟩, ⟨.ok, 0x80#8⟩, 0#16) := by decide
theorem test_rdRead8_end : seen (exec .rdRead8 (mk .idle E ⟨0b0#8, 1⟩)) =
    some ([], E, ⟨0b0#8, 1⟩, ⟨.eos, 0#8⟩, 0#16) := by decide
theorem test_tblEncode : seen (exec (.tblEncode 0x7A#8) (mk .compress E E)) =
    some ([], E, E, ⟨.ok, 27#8⟩, 0x0001#16) := by decide
theorem test_tblEncode_outside : seen (exec (.tblEncode 0xC3#8) (mk .idle E E)) =
    some ([], E, E, ⟨.ok, 31#8⟩, 0#16) := by decide
theorem test_tblDecode : seen (exec (.tblDecode 30#8) (mk .idle E E)) =
    some ([], E, E, ⟨.ok, 0x27#8⟩, 0#16) := by decide
theorem test_tblDecode_escape : seen (exec (.tblDecode 31#8) (mk .idle E E)) =
    some ([], E, E, ⟨.none, 0#8⟩, 0#16) := by decide
theorem test_cBegin : seen (exec .cBegin (mk .idle ⟨1#8, 1⟩ ⟨1#8, 1⟩)) =
    some ([], ⟨0b00001#8, 5⟩, E, ⟨.ok, 1#8⟩, 0x0001#16) := by decide
theorem test_cStep : seen (exec .cStep (src [byteR 0x48#8] (mk .compress ⟨0b00001#8, 5⟩ E))) =
    some ([0x0F#8, 0xD2#8], ⟨0b00#8, 2⟩, E, ⟨.ok, 31#8⟩, 0x0001#16) := by decide
theorem test_cStep_not_ascii : seen (exec .cStep (src [byteR 0xC3#8] (mk .compress ⟨0b00001#8, 5⟩ E))) =
    some ([], ⟨0b00001#8, 5⟩, E, ⟨.error, 1#8⟩, 0xC314#16) := by decide
theorem test_cPass : seen (exec .cPass (src [byteR 0x61#8] (mk .idle E E))) =
    some ([0x08#8, 0xBE#8], E, E, ⟨.eos, 0#8⟩, 0x0003#16) := by decide +kernel
theorem test_cPass_empty : seen (exec .cPass (mk .idle E E)) =
    some ([0x08#8], E, E, ⟨.eos, 0#8⟩, 0x0003#16) := by decide
theorem test_dBegin : seen (exec .dBegin (src [byteR 0x08#8] (mk .idle E E))) =
    some ([], E, ⟨0#8, 3⟩, ⟨.ok, 1#8⟩, 0x0002#16) := by decide
theorem test_dBegin_version : seen (exec .dBegin (src [byteR 0x00#8] (disc (mk .idle E E)))) =
    some ([], E, E, ⟨.error, 2#8⟩, 0x0024#16) := by decide
theorem test_dStep : seen (exec .dStep (src [byteR 0xBE#8] (mk .decompress E ⟨0#8, 3⟩))) =
    some ([0x61#8], E, ⟨0b111110#8, 6⟩, ⟨.ok, 0x61#8⟩, 0x0002#16) := by decide
theorem test_dStep_strict : seen (exec .dStep (strict (mk .decompress E ⟨0b111110#8, 6⟩))) =
    some ([], E, ⟨0#8, 1⟩, ⟨.error, 4#8⟩, 0x0144#16) := by decide
theorem test_dPass : seen (exec .dPass (src [byteR 0x08#8, byteR 0xBE#8] (mk .idle E E))) =
    some ([0x61#8], E, E, ⟨.eos, 0#8⟩, 0x0003#16) := by decide
theorem test_dPass_cut_short : seen (exec .dPass (src [byteR 0x0F#8, byteR 0xD0#8] (mk .idle E E))) =
    some ([], E, ⟨0b010000#8, 6⟩, ⟨.error, 4#8⟩, 0x0144#16) := by decide
theorem test_ctlIdle : seen (exec .ctlIdle { mk .error ⟨1#8, 1⟩ E with err := ⟨1#3, 0#1, 0xC3#8⟩ }) =
    some ([], E, E, ⟨.ok, 0#8⟩, 0#16) := by decide
theorem test_streamVersion : seen (exec .streamVersion (mk .idle E ⟨0#8, 3⟩)) =
    some ([], E, ⟨0#8, 3⟩, ⟨.ok, 1#8⟩, 0x0002#16) := by decide
theorem test_streamSym : seen (exec (.streamSym 2#5) (mk .decompress E E)) =
    some ([0x61#8], E, E, ⟨.ok, 0x61#8⟩, 0x0002#16) := by decide
theorem test_streamEsc : seen (exec (.streamEsc 0xC3#8) (mk .decompress E E)) =
    some ([0xC3#8], E, E, ⟨.ok, 0xC3#8⟩, 0x0002#16) := by decide
theorem test_streamPadEsc : seen (exec .streamPadEsc (mk .decompress E ⟨0#8, 2⟩)) =
    some ([], E, E, ⟨.eos, 0#8⟩, 0x0003#16) := by decide
theorem test_streamPadEsc_three_bits : seen (exec .streamPadEsc (mk .decompress E ⟨0#8, 3⟩)) =
    some ([], E, ⟨0#8, 3⟩, ⟨.error, 4#8⟩, 0x0144#16) := by decide

/-! ### Steps -/

theorem test_step_in_error_ignored :
    seen (step (ev [.command 0x0801#16] { mk .error E E with err := ⟨1#3, 0#1, 0xC3#8⟩ })) =
    some ([], E, E, ⟨.error, 1#8⟩, 0xC314#16) := by decide
theorem test_step_wrong_phase : seen (step (ev [.command 0x3800#16] (mk .compress ⟨1#8, 5⟩ E))) =
    some ([], ⟨1#8, 5⟩, E, ⟨.error, 6#8⟩, 0x0164#16) := by decide
theorem test_step_reset_mid_command :
    seen (step (ev [.commandCutByReset 0x6000#16 2] (src [byteR 0x48#8] (mk .compress ⟨1#8, 5⟩ E)))) =
    some ([0x0F#8], E, E, ⟨.ok, 0#8⟩, 0#16) := by decide
theorem test_step_runs_placed_token : seen (step ((mk .idle E E).withFetchWord 8 2)) =
    some ([0x61#8], E, E, ⟨.ok, 0x61#8⟩, 0x0002#16) := by decide

/-! ### For each statement, states and operands that meet its hypotheses -/

theorem witness_EncodeThenDecode : wellFormed (.streamSym 30#5) = true ∧ wellFormed (.wrWrite5 31#5) = true := by decide
theorem witness_TokenReadOffTheStream : (0#5 ≠ ESC ∧ 30#5 ≠ ESC) ∧ isPadTail [] = true ∧ isPadTail [false, false] = true := by
  decide
theorem witness_DecodeFollowsTheSelectedRow : (commandRows.any fun r => r.selects 0x0C01#16) = true ∧
    (∀ r ∈ commandRows, r.selects 0x0802#16 = false) := by decide
theorem witness_IllegalWords : 0x20FF#16 &&& 0xFF00#16 = 0x2000#16 ∧ decodeWord 0x0000#16 = .error .reservedOpcode ∧
    decodeWord 0x3400#16 = .error .selNotZero := by decide
theorem witness_StreamBitPositions : 7 < 8 * (wholeBytes [true, false, true, true, false, true, false, true]).length := by
  decide
theorem witness_CompressedLength : (dataBits (mk .idle E E).params [0x61#8, 0x61#8, 0x61#8, 0x61#8]).length % 8 = 1 ∧
    (dataBits (mk .idle E E).params [0x61#8, 0x61#8, 0x61#8, 0x61#8, 0x61#8, 0x61#8]).length % 8 = 3 := by decide
theorem witness_StepRunsTheDecodedCommand : decode (.command 0x6800#16) = .ok .cPass ∧
    decode (.command 0x0802#16) = .error .immNotZero ∧ (mk .idle E E).host.events = [] ∧
    (ev [.command 0x6800#16] (mk .idle E E)).host.events = [.command 0x6800#16] ∧
    (ev [.command 0x0802#16] (mk .error E E)).host.events = [.command 0x0802#16] ∧
    (ev [.commandCutByReset 0x6800#16 0] (mk .idle E E)).host.events = [.commandCutByReset 0x6800#16 0] ∧
    (ev [.commandCutByReset 0x0802#16 0] (mk .idle E E)).host.events = [.commandCutByReset 0x0802#16 0] := by decide

/-- A read of 5 bits that refills: version 1 and 3 bits more. -/
theorem witness_reads_refill : legal .begin .error = true ∧ HostWaits (src [byteR 0x0F#8] (mk .error E E)) ∧
    ∃ t, Reads 5 (clearErrorAndAccs (src [byteR 0x0F#8] (mk .error E E))) VERSION t :=
  ⟨by decide, by decide, _, .inr ⟨by decide, 0x0F#8, _, ⟨byteR 0x0F#8, rfl, by decide⟩, by decide, rfl⟩⟩
/-- A read of 5 held bits, at the boundary count 5: a symbol below ESC, and ESC with a literal after it. -/
theorem witness_DecompressorRunsTheTokenItReads :
    (∃ t, Reads 5 (mk .decompress E ⟨30#8, 5⟩) (30#5) t) ∧
    (∃ t u, Reads 5 (src [byteR 0x48#8] (mk .decompress E ⟨31#8, 5⟩)) ESC t ∧ Reads 8 t (0x48#8) u) ∧
    (∃ t rest, Reads 5 (mk .decompress E ⟨31#8, 5⟩) ESC t ∧ t.racc.count.val < 8 ∧ NextPull t .endOfStream rest) :=
  ⟨⟨_, .inl ⟨by decide, by decide, rfl⟩⟩,
   ⟨_, _, .inl ⟨by decide, by decide, rfl⟩,
     .inr ⟨by decide, 0x48#8, _, ⟨byteR 0x48#8, rfl, by decide⟩, by decide, rfl⟩⟩,
   ⟨_, _, .inl ⟨by decide, by decide, rfl⟩, by decide, ⟨SrcReply.endReply, rfl, by decide⟩⟩⟩
theorem witness_DStepEmitsOneByte : (mk .decompress E ⟨30#8, 5⟩).params.alphabet.toList[30]? = some (0x27#8) ∧
    HostWaits (mk .decompress E ⟨30#8, 5⟩) ∧ SinkAccepts (mk .decompress E ⟨30#8, 5⟩) := by decide

theorem witness_ResetValues : (ev [.reset] (mk .error E E)).host.events = [.reset] := by decide
theorem witness_ResetCutsTheCommandOff : step (ev [.command 0x5800#16] (mk .idle E E)) =
    .next (nextOr (step (ev [.command 0x5800#16] (mk .idle E E))) State.reset) := next_of_ran _ (by decide)
theorem witness_ResetEndsAPassThatNeverEnds :
    step (ev [.command 0x6800#16] (srcEver (some (byteR 0x61#8)) (mk .idle E E))) = .fault .passNeverEnds := by
  have h : stopped (step (ev [.command 0x6800#16] (srcEver (some (byteR 0x61#8)) (mk .idle E E)))) =
      some .passNeverEnds := by decide +kernel
  exact fault_of_stopped h
theorem witness_ResetEndsAWaitForASilentHost :
    step (ev [.command 0x3800#16] (srcEver none (mk .idle E E))) = .fault .hostSilent :=
  fault_of_stopped (by decide)
theorem witness_PhaseGuard : groupOf .cStep = some .cStep ∧ legal .cStep .error = false ∧ legal .cStep .idle = false := by
  decide
theorem witness_ErrorIsLeftOnlyByRestarting :
    (nextOr (step (ev [.command 0x8800#16] (mk .error E E))) State.reset).phase = .idle ∧
    step (ev [.command 0x8800#16] (mk .error E E)) =
      .next (nextOr (step (ev [.command 0x8800#16] (mk .error E E))) State.reset) :=
  ⟨by decide, next_of_ran _ (by decide)⟩
theorem witness_FirstErrorIsKept : (mk .error E E).phase = .error ∧
    (∀ i, decodeWord 0x0801#16 = .ok i → i ∉ [Instr.cBegin, .dBegin, .cPass, .dPass, .ctlIdle]) ∧
    (∀ b, decodeWord 0x0801#16 ≠ .ok (.tblEncode b)) ∧
    step (ev [.command 0x0801#16] (mk .error E E)) =
      .next (nextOr (step (ev [.command 0x0801#16] (mk .error E E))) State.reset) := by
  have h : decodeWord 0x0801#16 = .ok (.accPush .wacc true) := by decide
  refine ⟨by decide, fun i hi => ?_, fun b hb => ?_, next_of_ran _ (by decide)⟩
  · obtain rfl : Instr.accPush .wacc true = i := by simpa [h] using hi
    decide
  · simp [h] at hb

/-- A safe state in each phase, at the boundary counts, and a step from one. -/
theorem witness_EveryStepKeepsInv : Inv (mk .idle ⟨0xFF#8, 8⟩ ⟨0xFF#8, 8⟩) ∧ Inv (mk .compress ⟨0x7F#8, 7⟩ E) ∧
    Inv (mk .decompress E ⟨0x7F#8, 7⟩) ∧ Inv (mk .done E E) ∧
    Inv { mk .error ⟨0xFF#8, 8⟩ E with err := ⟨5#3, 1#1, 0#8⟩, resp := ⟨.error, 5#8⟩ } ∧
    step (ev [.command 0x5800#16] (mk .done E E)) =
      .next (nextOr (step (ev [.command 0x5800#16] (mk .done E E))) State.reset) :=
  ⟨by decide, by decide, by decide, by decide, by decide, next_of_ran _ (by decide)⟩
theorem witness_RomsAreReadOnly_and_IoRecordOnlyGrows :
    step (ev [.command 0x6000#16] (src [byteR 0x48#8] (mk .compress ⟨1#8, 5⟩ E))) =
      .next (nextOr (step (ev [.command 0x6000#16] (src [byteR 0x48#8] (mk .compress ⟨1#8, 5⟩ E)))) State.reset) :=
  next_of_ran _ (by decide)
theorem witness_UnknownCodeIsUnreachable :
    step (ev [.command 0x0801#16] { mk .error E E with err := ⟨3#3, 0#1, 0#8⟩ }) =
      .next (nextOr (step (ev [.command 0x0801#16] { mk .error E E with err := ⟨3#3, 0#1, 0#8⟩ })) State.reset) ∧
    (nextOr (step (ev [.command 0x0801#16] { mk .error E E with err := ⟨3#3, 0#1, 0#8⟩ })) State.reset).err.code = 3#3 :=
  ⟨next_of_ran _ (by decide), by decide⟩
theorem witness_EveryStepEndsUnderTheLaunchPremise : (mk .idle E E).host.src.after = some SrcReply.endReply ∧
    (∀ b, srcAnswer SrcReply.endReply ≠ .byte b) ∧ (mk .idle E E).host.snk.after = some SnkReply.okReply :=
  ⟨rfl, fun b => by simp [srcAnswer, SrcReply.endReply], rfl⟩
theorem witness_MoreRoundsChangeNothing : passRounds (mk .idle E E) ≤ 16 := by decide
theorem witness_PassesRunTheirSteps : legal .begin (mk .done E E).phase = true := by decide
theorem witness_NeverEndingSource : (legal .begin .idle = true) ∧
    HostWaits (src [byteR 0x08#8] (srcEver (some (byteR 0x7F#8)) (mk .idle E E))) ∧
    SinkAccepts (src [byteR 0x08#8] (srcEver (some (byteR 0x7F#8)) (mk .idle E E))) ∧
    SourceGives (src [byteR 0x08#8] (srcEver (some (byteR 0x7F#8)) (mk .idle E E))) ([0x08#8].map .byte) (.byte 0x7F#8) ∧
    Ascii [0x08#8] ∧ ∃ rest, NextPull (src [byteR 0x08#8] (srcEver (some (byteR 0x7F#8)) (mk .idle E E))) (.byte 0x08#8) rest :=
  ⟨by decide, by decide, by decide, by decide, by decide, _, byteR 0x08#8, rfl, by decide⟩
/-- A silent source, and a silent sink with each command that pushes. -/
theorem witness_SilentHostLeavesTheBlockStuck :
    HostWaits (srcEver none (mk .decompress E ⟨15#8, 4⟩)) ∧ nextAnswer (srcEver none (mk .decompress E ⟨15#8, 4⟩)).host.src = none ∧
    (mk .decompress E ⟨15#8, 4⟩).racc.count.val < 5 ∧ legal .begin .done = true ∧
    nextAnswer (snkEver none (mk .idle ⟨7#8, 3⟩ E)).host.snk = none ∧ 3 ≤ (mk .idle ⟨7#8, 3⟩ E).wacc.count.val ∧
    (∃ rest, NextPull (snkEver none (src [byteR 0x61#8] (mk .compress ⟨7#8, 3⟩ E))) (.byte 0x61#8) rest) ∧
    (∃ rest, NextPull (snkEver none (mk .compress ⟨1#8, 1⟩ E)) .endOfStream rest) ∧
    (∃ t, Reads 5 (snkEver none (mk .decompress E ⟨30#8, 5⟩)) (30#5) t) ∧
    (∃ t u, Reads 5 (snkEver none (src [byteR 0x48#8] (mk .decompress E ⟨31#8, 5⟩))) ESC t ∧ Reads 8 t (0x48#8) u)∧
    (∃ t, Reads 5 (srcEver none (mk .decompress E ⟨0x7C#8, 7⟩)) ESC t ∧ t.racc.count.val < 8 ∧
      nextAnswer t.host.src = none) ∧
    (∃ t, Reads 5 (srcEver none (src [byteR 0xFF#8] (mk .decompress E ⟨15#8, 4⟩))) ESC t ∧ t.racc.count.val < 8 ∧
      nextAnswer t.host.src = none) ∧
    (mk .idle ⟨0xFF#8, 8⟩ E).wacc.count.val = 8 ∧ SecondPushSilent (snkEver none (snk [⟨false⟩] (mk .idle ⟨0xFF#8, 8⟩ E))) ∧
    (∃ rest, NextPull (snkEver none (snk [⟨false⟩] (src [byteR 0x48#8] (mk .compress ⟨7#8, 3⟩ E)))) (.byte 0x48#8) rest) ∧
    SecondPushSilent (snkEver none (snk [⟨false⟩] (src [byteR 0x48#8] (mk .compress ⟨7#8, 3⟩ E)))) ∧
    16 ≤ 3 + (tokenBits (tokenOfByte (mk .compress ⟨7#8, 3⟩ E).params 0x48#8)).length :=
  ⟨by decide, by decide, by decide, by decide, by decide, by decide, ⟨_, byteR 0x61#8, rfl, by decide⟩,
   ⟨_, SrcReply.endReply, rfl, by decide⟩, ⟨_, .inl ⟨by decide, by decide, rfl⟩⟩,
   ⟨_, _, .inl ⟨by decide, by decide, rfl⟩,
     .inr ⟨by decide, 0x48#8, _, ⟨byteR 0x48#8, rfl, by decide⟩, by decide, rfl⟩⟩,
   ⟨_, .inl ⟨by decide, by decide, rfl⟩, by decide, by decide⟩,
   ⟨_, .inr ⟨by decide, 0xFF#8, _, ⟨byteR 0xFF#8, rfl, by decide⟩, by decide, rfl⟩, by decide, by decide⟩,
   by decide, ⟨⟨false⟩, _, rfl, rfl, rfl⟩, ⟨_, byteR 0x48#8, rfl, by decide⟩, ⟨⟨false⟩, _, rfl, rfl, rfl⟩, by decide⟩
/-- A source that falls silent after one byte; C.BEGIN and one C.STEP from there; and D.BEGIN from its like. -/
def beforeC : State := srcEver none (src [byteR 0x61#8] (mk .idle E E))
def begunC : State := nextOr (exec .cBegin beforeC) State.reset
def steppedC : State := nextOr (runTimes .cStep 1 begunC) State.reset
def beforeD : State := srcEver none (src [byteR 0x08#8] (mk .idle E E))
def begunD : State := nextOr (exec .dBegin beforeD) State.reset

/-- A pass whose BEGIN is stuck, one whose second step is, and hosts that fall silent inside the stream. -/
theorem witness_SilentHostLeavesAPassStuck :
    exec .dBegin (srcEver none (mk .idle E E)) = .fault .hostSilent ∧
    (exec .cBegin beforeC = .next begunC ∧ runTimes .cStep 1 begunC = .next steppedC ∧ steppedC.phase = .compress ∧
      exec .cStep steppedC = .fault .hostSilent) ∧
    (exec .dBegin beforeD = .next begunD ∧ runTimes .dStep 0 begunD = .next begunD ∧ begunD.phase = .decompress ∧
      exec .dStep begunD = .fault .hostSilent) ∧
    (Ascii [0x61#8] ∧ SinkAccepts beforeC ∧ beforeC.host.src.queued.map srcAnswer = [0x61#8].map .byte ∧
      SinkSilentAfter 1 (snkEver none (snk [⟨false⟩] (mk .idle E E))) ∧
      1 < (compressed (mk .idle E E).params [0x61#8]).length ∧ SinkSilentAfter 0 (snkEver none (mk .idle E E)) ∧
      (src [byteR 0x08#8, byteR 0xBE#8] (mk .idle E E)).host.src.queued.map srcAnswer =
        (compressed (mk .idle E E).params [0x61#8]).map .byte) :=
  ⟨fault_of_stopped (by decide),
   ⟨next_of_ran _ (by decide), next_of_ran _ (by decide), by decide, fault_of_stopped (by decide)⟩,
   ⟨next_of_ran _ (by decide), rfl, by decide, fault_of_stopped (by decide)⟩,
   by decide, by decide, by decide, by decide, by decide, by decide, by decide⟩
theorem witness_NoPullAfterEnd : exec .cStep (mk .compress E E) = .next (nextOr (exec .cStep (mk .compress E E)) State.reset) ∧
    (nextOr (exec .cStep (mk .compress E E)) State.reset).host.trace = [] ++ .pull .endOfStream :: [] :=
  ⟨next_of_ran _ (by decide), by decide⟩
theorem witness_IoCounts :
    exec .cBegin (mk .done E E) = .next (nextOr (exec .cBegin (mk .done E E)) State.reset) ∧
    exec .cStep (src [byteR 0x48#8] (mk .compress ⟨0#8, 3⟩ E)) =
      .next (nextOr (exec .cStep (src [byteR 0x48#8] (mk .compress ⟨0#8, 3⟩ E))) State.reset) ∧
    pushCount (nextOr (exec .cStep (src [byteR 0x48#8] (mk .compress ⟨0#8, 3⟩ E))) State.reset).host.trace = 2 ∧
    exec .dBegin (mk .idle E E) = .next (nextOr (exec .dBegin (mk .idle E E)) State.reset) ∧
    exec .dStep (mk .decompress E E) = .next (nextOr (exec .dStep (mk .decompress E E)) State.reset) :=
  ⟨next_of_ran _ (by decide), next_of_ran _ (by decide), by decide, next_of_ran _ (by decide), next_of_ran _ (by decide)⟩

theorem witness_PushShiftsOneBitIn : (7 < 8 ∧ accOk ⟨0x7F#8, 7⟩) ∧ accOk BitAcc.empty := by decide
theorem witness_PushesSpellANumber : [true, false, true, true, false, false, true, true].length ≤ 8 ∧ 7 < 8 := by decide
theorem witness_AccPushRuns : (mk .idle ⟨0x7F#8, 7⟩ ⟨0xFF#8, 8⟩).phase = .idle ∧
    (mk .idle ⟨0x7F#8, 7⟩ ⟨0xFF#8, 8⟩).wacc.count.val < 8 ∧ (mk .idle ⟨0x7F#8, 7⟩ ⟨0xFF#8, 8⟩).racc.count.val = 8 ∧
    (mk .idle ⟨0xFF#8, 8⟩ ⟨0x7F#8, 7⟩).racc.count.val < 8 ∧ (mk .idle ⟨0xFF#8, 8⟩ ⟨0x7F#8, 7⟩).wacc.count.val = 8 ∧
    (⟨0xFF#8, 8⟩ : BitAcc).bits = (0x7F#8 : BitVec 8) <<< 1 ||| 1#8 ∧ (⟨0xFF#8, 8⟩ : BitAcc).count.val = 7 + 1 := by decide
theorem witness_AccIsFullAndClearRun : (mk .idle ⟨0xFF#8, 8⟩ E).phase = .idle := by decide
theorem witness_WriteCommandsAppendTheirBits : (mk .idle ⟨0x7F#8, 7⟩ E).phase = .idle ∧ accOk (mk .idle ⟨0x7F#8, 7⟩ E).wacc ∧
    HostWaits (mk .idle ⟨0x7F#8, 7⟩ E) ∧ SinkAccepts (mk .idle ⟨0x7F#8, 7⟩ E) := by decide
theorem witness_WriterArithmetic : accOk (mk .idle E E).wacc ∧ accOk (mk .idle ⟨7#8, 3⟩ E).wacc ∧
    accOk (mk .idle ⟨0xFF#8, 8⟩ E).wacc ∧ 8 ≤ (mk .idle ⟨7#8, 3⟩ E).wacc.count.val + 5 ∧
    (mk .idle E E).wacc.count.val + 5 < 8 := by decide
theorem witness_RefusedDrainRaisesIo : accOk (mk .idle ⟨7#8, 3⟩ E).wacc ∧ HostWaits (snk [⟨true⟩] (mk .idle ⟨7#8, 3⟩ E)) ∧
    8 ≤ (mk .idle ⟨7#8, 3⟩ E).wacc.count.val + 5 ∧
    (∃ rest, NextPushFails (snk [⟨true⟩] (mk .idle ⟨7#8, 3⟩ E)) rest) ∧
    accOk (mk .idle ⟨0xFF#8, 8⟩ E).wacc ∧ HostWaits (snk [⟨false⟩, ⟨true⟩] (mk .idle ⟨0xFF#8, 8⟩ E)) ∧
    ∃ rest, SecondPushFails (snk [⟨false⟩, ⟨true⟩] (mk .idle ⟨0xFF#8, 8⟩ E)) rest :=
  ⟨by decide, by decide, by decide, ⟨_, ⟨true⟩, rfl, rfl⟩, by decide, by decide,
   _, ⟨false⟩, _, ⟨true⟩, rfl, rfl, rfl, rfl⟩
theorem witness_FlushTable : (mk .idle ⟨1#8, 1⟩ E).wacc.count.val = 1 ∧ accOk (mk .idle ⟨1#8, 1⟩ E).wacc ∧
    accOk (mk .idle ⟨7#8, 3⟩ E).wacc ∧ accOk (mk .idle ⟨0xFF#8, 8⟩ E).wacc ∧ HostWaits (mk .idle ⟨1#8, 1⟩ E) ∧
    SinkAccepts (mk .idle ⟨1#8, 1⟩ E) := by decide

/-- Reads of 5 and 8 bits with and without a refill, in both modes, and the two other answers. -/
theorem witness_ReadCommandsRun :
    (∃ t, Reads 5 (mk .idle E ⟨0xFF#8, 8⟩) (31#5) t) ∧
    (∃ t, Reads 5 (disc (src [byteR 0xF0#8] (mk .idle E ⟨0#8, 4⟩))) (1#5) t) ∧
    (∃ t, Reads 8 (mk .idle E ⟨0xA5#8, 8⟩) (0xA5#8) t) ∧
    (∃ t, Reads 8 (src [byteR 0x80#8] (mk .idle E ⟨0#8, 7⟩)) (1#8) t) ∧
    (∃ rest, NextPull (mk .idle E ⟨0#8, 4⟩) .endOfStream rest) ∧
    (∃ rest, NextPull (src [⟨2#2, 0#8⟩] (mk .idle E ⟨0#8, 7⟩)) .ioFail rest) :=
  ⟨⟨_, .inl ⟨by decide, by decide, rfl⟩⟩,
   ⟨_, .inr ⟨by decide, 0xF0#8, _, ⟨byteR 0xF0#8, rfl, by decide⟩, by decide, rfl⟩⟩,
   ⟨_, .inl ⟨by decide, by decide, rfl⟩⟩,
   ⟨_, .inr ⟨by decide, 0x80#8, _, ⟨byteR 0x80#8, rfl, by decide⟩, by decide, rfl⟩⟩,
   ⟨_, SrcReply.endReply, rfl, by decide⟩, ⟨_, ⟨2#2, 0#8⟩, rfl, by decide⟩⟩
theorem witness_SourceAnswerKinds : (src [⟨3#2, 0#8⟩] (mk .idle E E)).racc = ⟨0#8, 0⟩ ∧
    HostWaits (src [⟨3#2, 0#8⟩] (mk .idle E E)) ∧
    (src [⟨3#2, 0#8⟩] (mk .idle E E)).host.src.queued = ⟨3#2, 0#8⟩ :: [] := by decide
theorem witness_RetainArithmetic : (mk .idle E ⟨0#8, 4⟩).params.readerMode = .retain ∧
    (mk .idle E ⟨0#8, 4⟩).racc.count.val < 5 ∧ (mk .idle E ⟨0#8, 7⟩).racc.count.val < 8 ∧
    (∃ rest, NextPull (src [byteR 0x01#8] (mk .idle E ⟨0#8, 4⟩)) (.byte 0x01#8) rest) ∧
    SourceGives (src [byteR 0x01#8] (mk .idle E ⟨0#8, 7⟩)) ([0x01#8].map .byte) .endOfStream ∧
    (∀ w ∈ [5, 8, 5], w = 5 ∨ w = 8) :=
  ⟨by decide, by decide, by decide, ⟨_, byteR 0x01#8, rfl, by decide⟩, by decide, by decide⟩
theorem witness_DiscardArithmetic : (disc (mk .idle E E)).params.readerMode = .discard ∧ HostWaits (disc (mk .idle E E)) ∧
    (disc (mk .idle E E)).racc.count.val < 8 ∧
    ∃ rest, NextPull (src [byteR 0x01#8] (disc (mk .idle E E))) (.byte 0x01#8) rest :=
  ⟨by decide, by decide, by decide, _, byteR 0x01#8, rfl, by decide⟩
theorem witness_TableCommandsRun : alphabetOk testAlphabet = true ∧ testAlphabet.toList[30]? = some (0x27#8) ∧
    0x41#8 ∉ testAlphabet.toList ∧ 31 ≤ (31#8 : Byte).toNat := by decide
theorem witness_TableLemmas : alphabetOk testAlphabet = true ∧ testAlphabet.toList[0]? = some (0x20#8) := by decide

theorem witness_CBeginRuns : legal .begin (mk .error ⟨1#8, 1⟩ E).phase = true := by decide
theorem witness_CStepRuns : (mk .compress ⟨1#8, 5⟩ E).phase = .compress ∧ accOk (mk .compress ⟨1#8, 5⟩ E).wacc ∧
    (∃ rest, NextPull (src [byteR 0x7F#8] (mk .compress ⟨1#8, 5⟩ E)) (.byte 0x7F#8) rest) ∧
    (∃ rest, NextPull (src [byteR 0x80#8] (mk .compress ⟨1#8, 5⟩ E)) (.byte 0x80#8) rest) ∧
    (∃ rest, NextPull (mk .compress ⟨1#8, 5⟩ E) .endOfStream rest) ∧
    (∃ rest, NextPull (src [⟨3#2, 0#8⟩] (mk .compress ⟨1#8, 5⟩ E)) .ioFail rest) :=
  ⟨by decide, by decide, ⟨_, byteR 0x7F#8, rfl, by decide⟩, ⟨_, byteR 0x80#8, rfl, by decide⟩,
   ⟨_, SrcReply.endReply, rfl, by decide⟩, ⟨_, ⟨3#2, 0#8⟩, rfl, by decide⟩⟩
theorem witness_CStepRefusedPush : accOk (mk .compress ⟨7#8, 3⟩ E).wacc ∧
    (∃ rest, NextPull (snk [⟨true⟩] (src [byteR 0x61#8] (mk .compress ⟨7#8, 3⟩ E))) (.byte 0x61#8) rest) ∧
    (∃ more, NextPushFails (snk [⟨true⟩] (src [byteR 0x61#8] (mk .compress ⟨7#8, 3⟩ E))) more) ∧
    8 ≤ 3 + (tokenBits (tokenOfByte (mk .compress ⟨7#8, 3⟩ E).params 0x61#8)).length ∧
    (∃ rest, NextPull (snk [⟨true⟩] (mk .compress ⟨1#8, 1⟩ E)) .endOfStream rest) ∧
    (∃ rest, NextPull (snk [⟨false⟩, ⟨true⟩] (src [byteR 0x48#8] (mk .compress ⟨7#8, 3⟩ E))) (.byte 0x48#8) rest) ∧
    (∃ more, SecondPushFails (snk [⟨false⟩, ⟨true⟩] (src [byteR 0x48#8] (mk .compress ⟨7#8, 3⟩ E))) more) ∧
    16 ≤ 3 + (tokenBits (tokenOfByte (mk .compress ⟨7#8, 3⟩ E).params 0x48#8)).length :=
  ⟨by decide, ⟨_, byteR 0x61#8, rfl, by decide⟩, ⟨_, ⟨true⟩, rfl, rfl⟩, by decide,
   ⟨_, SrcReply.endReply, rfl, by decide⟩, ⟨_, byteR 0x48#8, rfl, by decide⟩,
   ⟨_, ⟨false⟩, _, ⟨true⟩, rfl, rfl, rfl, rfl⟩, by decide⟩

/-- A host with `a` and `H` to compress, and its passes. -/
theorem witness_CompressOutputLaw : HostWaits (src [byteR 0x61#8, byteR 0x48#8] (mk .idle E E)) ∧
    SinkAccepts (src [byteR 0x61#8, byteR 0x48#8] (mk .idle E E)) ∧ Ascii [0x61#8, 0x48#8] ∧
    SourceGives (src [byteR 0x61#8, byteR 0x48#8] (mk .idle E E)) ([0x61#8, 0x48#8].map .byte) .endOfStream := by decide
theorem witness_CompressErrorLeavesAPrefix :
    (src [byteR 0x61#8, byteR 0x80#8] (mk .idle E E)).host.src.queued.map srcAnswer =
      [0x61#8].map .byte ++ .byte 0x80#8 :: [] ∧
    (src [byteR 0x61#8, ⟨2#2, 0#8⟩] (mk .idle E E)).host.src.queued.map srcAnswer =
      [0x61#8].map .byte ++ .ioFail :: [] ∧
    (snk [⟨false⟩, ⟨true⟩] (src [byteR 0x61#8] (mk .idle E E))).host.snk.queued = [⟨false⟩] ++ ⟨true⟩ :: [] ∧
    [(⟨false⟩ : SnkReply)].length < (compressed (mk .idle E E).params [0x61#8]).length ∧
    SourceGives (snk [⟨false⟩, ⟨true⟩] (src [byteR 0x61#8] (mk .idle E E))) ([0x61#8].map .byte) .endOfStream := by
  decide
theorem witness_DBeginRuns : (∃ rest, NextPull (src [byteR 0x0F#8] (mk .idle E E)) (.byte 0x0F#8) rest) ∧
    (0x0F#8 : Byte).toNat / 8 = 1 ∧ (0x10#8 : Byte).toNat / 8 ≠ 1 ∧
    (∃ rest, NextPull (src [byteR 0x10#8] (disc (mk .idle E E))) (.byte 0x10#8) rest) ∧
    (∃ rest, NextPull (mk .done E E) .endOfStream rest) ∧
    (∃ rest, NextPull (src [⟨2#2, 0#8⟩] (mk .error E E)) .ioFail rest) :=
  ⟨⟨_, byteR 0x0F#8, rfl, by decide⟩, by decide, by decide, ⟨_, byteR 0x10#8, rfl, by decide⟩,
   ⟨_, SrcReply.endReply, rfl, by decide⟩, ⟨_, ⟨2#2, 0#8⟩, rfl, by decide⟩⟩
theorem witness_DStepEndsAtTheEnd : (mk .decompress E ⟨15#8, 4⟩).racc.count.val < 5 ∧ HostWaits (mk .decompress E ⟨15#8, 4⟩) ∧
    ∃ rest, NextPull (mk .decompress E ⟨15#8, 4⟩) .endOfStream rest :=
  ⟨by decide, by decide, _, SrcReply.endReply, rfl, by decide⟩
theorem witness_TerminalEscape : (∃ t rest, Reads 5 (mk .decompress E ⟨0b1111100#8, 7⟩) ESC t ∧ t.racc.count.val = 2 ∧
      t.racc.bits = 0#8 ∧ NextPull t .endOfStream rest) ∧
    (∃ t rest, Reads 5 (strict (mk .decompress E ⟨0xF9#8, 8⟩)) ESC t ∧ t.racc.count.val = 3 ∧
      NextPull t .endOfStream rest) :=
  ⟨⟨_, _, .inl ⟨by decide, by decide, rfl⟩, by decide, by decide, ⟨SrcReply.endReply, rfl, by decide⟩⟩,
   ⟨_, _, .inl ⟨by decide, by decide, rfl⟩, by decide, ⟨SrcReply.endReply, rfl, by decide⟩⟩⟩
theorem witness_DStepPortFailures : (∃ rest, NextPull (src [⟨2#2, 0#8⟩] (mk .decompress E ⟨0#8, 4⟩)) .ioFail rest) ∧
    (∃ t rest, Reads 5 (src [⟨2#2, 0#8⟩] (mk .decompress E ⟨0xFF#8, 8⟩)) ESC t ∧ t.racc.count.val < 8 ∧
      NextPull t .ioFail rest) ∧
    (∃ t more, Reads 5 (snk [⟨true⟩] (mk .decompress E ⟨0#8, 5⟩)) (0#5) t ∧ NextPushFails t more)∧
    (∃ t u more, Reads 5 (snk [⟨true⟩] (src [byteR 0x48#8] (mk .decompress E ⟨31#8, 5⟩))) ESC t ∧ Reads 8 t (0x48#8) u ∧
      NextPushFails u more) :=
  ⟨⟨_, ⟨2#2, 0#8⟩, rfl, by decide⟩,
   ⟨_, _, .inl ⟨by decide, by decide, rfl⟩, by decide, ⟨⟨2#2, 0#8⟩, rfl, by decide⟩⟩,
   ⟨_, _, .inl ⟨by decide, by decide, rfl⟩, ⟨⟨true⟩, rfl, rfl⟩⟩,
   ⟨_, _, _, .inl ⟨by decide, by decide, rfl⟩,
     .inr ⟨by decide, 0x48#8, _, ⟨byteR 0x48#8, rfl, by decide⟩, by decide, rfl⟩, ⟨⟨true⟩, rfl, rfl⟩⟩⟩
theorem witness_DPassDecodesCompressedStreams : alphabetOk (mk .idle E E).params.alphabet = true ∧ Ascii [0x61#8] ∧
    SourceGives (src [byteR 0x08#8, byteR 0xBE#8] (mk .idle E E))
      ((compressed (mk .idle E E).params [0x61#8]).map .byte) .endOfStream := by decide
theorem witness_RoundTrip :
    exec .cPass (src [byteR 0x61#8] (mk .idle E E)) =
      .next (nextOr (exec .cPass (src [byteR 0x61#8] (mk .idle E E))) State.reset) ∧
    sinkBytes (nextOr (exec .cPass (src [byteR 0x61#8] (mk .idle E E))) State.reset) = [] ++ [0x08#8, 0xBE#8] ∧
    SourceGives (src [byteR 0x61#8] (mk .idle E E)) ([0x61#8].map .byte) .endOfStream ∧
    SourceGives (src [byteR 0x08#8, byteR 0xBE#8] (mk .idle E E)) ([0x08#8, 0xBE#8].map .byte) .endOfStream :=
  have h : ran (exec .cPass (src [byteR 0x61#8] (mk .idle E E))) = true ∧
      sinkBytes (nextOr (exec .cPass (src [byteR 0x61#8] (mk .idle E E))) State.reset) = [] ++ [0x08#8, 0xBE#8] := by
    decide +kernel
  ⟨next_of_ran _ h.1, h.2, by decide, by decide⟩
theorem witness_TokensRun : testAlphabet.toList[30]? = some (0x27#8) ∧ (mk .decompress E ⟨0#8, 2⟩).racc.count.val ≤ 2 ∧
    (mk .decompress E ⟨0#8, 2⟩).racc.bits = 0#8 ∧ 3 ≤ (mk .decompress E ⟨0#8, 3⟩).racc.count.val ∧
    (strict (mk .decompress E E)).params.terminalEscape = .strict := by decide

end Sys2Proof.Tests
end

section
/-! PROOFS. One step of the machine, and the invariant that every step keeps (00_scope.md R16, 10_state.md R23, R33). -/

namespace Sys2Proof.Machine

/-! ### One step, by the host's next event -/

theorem runWord_ok {w : CmdWord} {i : Instr} (s : State) (h : decode (.command w) = .ok i) : runWord w s = exec i s := by
  simp [runWord, h]

theorem runWord_error {w : CmdWord} {e : Illegal} (s : State) (h : decode (.command w) = .error e) :
    runWord w s = .next (rejectCommand 0#8 s) := by
  simp [runWord, h, illegalWord]

theorem step_noEvent {s : State} (h : s.host.events = []) : step s = .next s := by
  simp [step, takeEvent, h]

theorem step_command {s : State} {w : CmdWord} {rest : List HostEvent} (h : s.host.events = .command w :: rest) :
    step s = mapNext returnResponse (runWord w (acceptEvent rest none s)) := by
  simp [step, takeEvent, h]

theorem step_reset {s : State} {rest : List HostEvent} (h : s.host.events = .reset :: rest) :
    step s = .next (resetBlock (acceptEvent rest none s)) := by
  simp [step, takeEvent, h]

theorem step_commandCutByReset {s : State} {w : CmdWord} {n : Nat} {rest : List HostEvent}
    (h : s.host.events = .commandCutByReset w n :: rest) :
    step s = mapNext endByReset (runWord w (acceptEvent rest (some n) s)) := by
  simp [step, takeEvent, h]

theorem mapNext_eq_next {f : State → State} {o : Host.Outcome State Fault Refusal} {t : State} :
    mapNext f o = .next t ↔ ∃ u, o = .next u ∧ f u = t := by
  cases o <;> simp [mapNext]

/-- The reset that ends a rejected command leaves nothing of the rejection. -/
theorem endByReset_rejectCommand (info : BitVec 8) (s : State) :
    endByReset (rejectCommand info s) = endByReset s := by
  unfold rejectCommand
  split <;> rfl

/-- Settles O8, by the host's next event and the decoder's answer. -/
theorem stepRunsTheDecodedCommand : Obligations.StepRunsTheDecodedCommand := by
  intro s w rest
  refine ⟨step_noEvent, fun he i hi => ?_, fun he e hd => ?_, fun n he i hi => ?_, fun n he e hd => ?_⟩
  · rw [step_command he, runWord_ok _ hi]
    cases hx : exec i (acceptEvent rest none s) <;> rw [acceptEvent, State.setHost] at hx <;> rw [hx] <;> rfl
  · rw [step_command he, runWord_error _ hd]
    by_cases hp : s.phase = .error
    · rw [if_pos hp, rejectCommand_error (s := acceptEvent rest none s) _ hp]
      rfl
    · rw [if_neg hp, rejectCommand_raises (s := acceptEvent rest none s) _ hp]
      rfl
  · rw [step_commandCutByReset he, runWord_ok _ hi]
    cases hx : exec i (acceptEvent rest (some n) s) <;> rw [acceptEvent, State.setHost] at hx <;> rw [hx] <;> rfl
  · rw [step_commandCutByReset he, runWord_error _ hd, mapNext, endByReset_rejectCommand]
    rfl

/-! ### Errors that a command can raise -/

/-- ERR after the raise holds a value of 60_exceptions.md R230 that a safe state admits. -/
def Raisable (e : Raised) : Prop := errOk ⟨errCode e.kind, if e.kind = .io then e.iodir else 0#1, e.info⟩

theorem raisable_ioSource : Raisable ioSource := by unfold Raisable; decide

theorem raisable_ioSink : Raisable ioSink := by unfold Raisable; decide

theorem raisable_illegalCommand {info : BitVec 8} (h : info.toNat ≤ 2) : Raisable (illegalCommand info) :=
  .inr (.inr (.inr (.inr (.inr ⟨rfl, rfl, h⟩))))

theorem raisable_unexpectedEndOfStream {info : BitVec 8} (h : info.toNat ≤ 1) :
    Raisable (unexpectedEndOfStream info) :=
  .inr (.inr (.inr (.inl ⟨rfl, rfl, h⟩)))

theorem raisable_unsupportedCharacter {b : Byte} (h : 0x80 ≤ b.toNat) : Raisable (unsupportedCharacter b) :=
  .inr (.inl ⟨rfl, rfl, h⟩)

theorem raisable_invalidFormatVersion {v : Code} (h : v ≠ VERSION) : Raisable (invalidFormatVersion v) := by
  have hv : v.setWidth 8 ≠ 1#8 := fun h1 => h (by unfold VERSION; bv_omega)
  have hlt : (v.setWidth 8).toNat < 32 := by bv_omega
  exact .inr (.inr (.inl ⟨rfl, rfl, hlt, hv⟩))

theorem errOk_clear : errOk Err.clear := by decide

theorem err_eq_clear {e : Err} (h : errOk e) (h0 : e.code = 0#3) : e = Err.clear := by
  obtain ⟨code, iodir, info⟩ := e
  obtain rfl : code = 0#3 := h0
  rcases h with ⟨-, rfl, rfl⟩ | ⟨h, -⟩ | ⟨h, -⟩ | ⟨h, -⟩ | ⟨h, -⟩ | ⟨h, -⟩
  · rfl
  all_goals simp at h

/-- No raise writes ERR.code = 0 (R230). -/
theorem errCode_ne_zero (k : ErrKind) : errCode k ≠ 0#3 := by cases k <;> decide

/-! ### Two halves of a safe state -/

/-- What a raise leaves of a safe state to be shown: it writes the rest (60_exceptions.md R233). -/
structure Sound (s : State) : Prop where
  wacc : accOk s.wacc
  racc : accOk s.racc
  alphabet : alphabetOk s.params.alphabet = true

/-- A safe state outside PHASE = ERROR, but for RESP, which a command writes last. -/
structure ErrorFree (s : State) : Prop where
  phase : s.phase ≠ .error
  err : s.err = Err.clear
  accs : accsOk s
  alphabet : alphabetOk s.params.alphabet = true

/-- A response that a command returns when it raises nothing (10_state.md R32). -/
def PlainResp (r : Resp) : Prop :=
  r.status ≠ .error ∧ (r.status = .none → r.value = 0#8) ∧ (r.status = .eos → r.value = 0#8)

theorem plainResp_ok (v : Byte) : PlainResp ⟨.ok, v⟩ := by simp [PlainResp]

theorem plainResp_eos : PlainResp ⟨.eos, 0#8⟩ := by simp [PlainResp]

theorem plainResp_readResponse {w : Nat} (r : Option (BitVec w)) : PlainResp (readResponse r) := by
  cases r <;> simp [PlainResp, readResponse]

theorem plainResp_decodeResponse (d : Option Byte) : PlainResp (decodeResponse d) := by
  cases d <;> simp [PlainResp, decodeResponse]

theorem Inv.sound {s : State} (h : Inv s) : Sound s := by
  obtain ⟨⟨hw, hr, -⟩, -, -, -, ha⟩ := h
  exact ⟨hw, hr, ha⟩

theorem ErrorFree.sound {s : State} (h : ErrorFree s) : Sound s := by
  obtain ⟨hw, hr, -⟩ := h.accs
  exact ⟨hw, hr, h.alphabet⟩

theorem ErrorFree.racc_empty {s : State} (h : ErrorFree s) (hp : s.phase = .compress) : s.racc = BitAcc.empty := by
  obtain ⟨-, -, hcompress, -⟩ := h.accs
  exact (hcompress hp).2

theorem ErrorFree.wacc_empty {s : State} (h : ErrorFree s) (hp : s.phase = .decompress) : s.wacc = BitAcc.empty := by
  obtain ⟨-, -, -, hdecompress, -⟩ := h.accs
  exact (hdecompress hp).1

theorem Inv.errorFree {s : State} (h : Inv s) (hp : s.phase ≠ .error) : ErrorFree s := by
  obtain ⟨haccs, herr, hiff, -, ha⟩ := h
  have hcode : s.err.code = 0#3 := by simpa [hp] using hiff
  exact ⟨hp, err_eq_clear herr hcode, haccs, ha⟩

/-- A response written where no error is recorded. -/
theorem ErrorFree.inv_setResp {s : State} {r : Resp} (h : ErrorFree s) (hr : PlainResp r) : Inv (s.setResp r) := by
  obtain ⟨hne, hnone, heos⟩ := hr
  exact ⟨h.accs, by simp [h.err, errOk_clear], by simp [h.err, h.phase, Err.clear],
    ⟨hnone, heos, fun he => absurd he hne⟩, h.alphabet⟩

/-- A response written in any phase: the table lookups (60_exceptions.md R241). -/
theorem Inv.setResp {s : State} {r : Resp} (h : Inv s) (hr : PlainResp r) : Inv (s.setResp r) := by
  obtain ⟨haccs, herr, hiff, -, ha⟩ := h
  obtain ⟨hne, hnone, heos⟩ := hr
  exact ⟨haccs, herr, hiff, ⟨hnone, heos, fun he => absurd he hne⟩, ha⟩

theorem Inv.setHost {s : State} (h : Inv s) (x : HostSide) : Inv (s.setHost x) := h

/-- A raise from a sound state leaves a safe one (R233). -/
theorem Sound.inv_takeError {s : State} {e : Raised} (h : Sound s) (he : Raisable e) : Inv (takeError e s) :=
  ⟨⟨h.wacc, h.racc, by simp, by simp, by simp⟩, he, by simp [errCode_ne_zero], by simp [respOk], h.alphabet⟩

/-- Reset leaves a safe state, whatever it finds but for the ROMs (70_reset_and_hazards.md R260). -/
theorem inv_resetBlock {s : State} (h : alphabetOk s.params.alphabet = true) : Inv (resetBlock s) :=
  ⟨by simp [accsOk, accOk_empty], errOk_clear, by simp [Err.clear], by simp [respOk, Resp.initial], h⟩

theorem Inv.ignoreInError {s : State} (h : Inv s) (hp : s.phase = .error) : Inv (ignoreInError s) := by
  obtain ⟨haccs, herr, hiff, -, ha⟩ := h
  exact ⟨haccs, herr, hiff, by simp [respOk, hp], ha⟩

theorem Inv.rejectCommand {s : State} {info : BitVec 8} (h : Inv s) (hinfo : info.toNat ≤ 2) :
    Inv (rejectCommand info s) := by
  by_cases hp : s.phase = .error
  · rw [rejectCommand_error _ hp]
    exact h.ignoreInError hp
  · rw [rejectCommand_raises _ hp]
    exact h.sound.inv_takeError (raisable_illegalCommand hinfo)

/-! ### Runs that can only end safely -/

/-- A run that ends well does so in a state with the property; it raises only what a safe state admits; and where it
raises or is cut off, the state it leaves is sound. -/
def Settles {α : Type} (P : State → Prop) (r : Run α) : Prop :=
  match r with
  | .ok _ s => P s
  | .raised e s => Raisable e ∧ Sound s
  | .cut s => Sound s
  | .stuck _ => True

theorem Settles.andThen {α β : Type} {P Q : State → Prop} {r : Run α} {k : α → State → Run β} (hr : Settles P r)
    (hk : ∀ a s, P s → Settles Q (k a s)) : Settles Q (andThen r k) := by
  cases r with
  | ok a s => exact hk a s hr
  | raised e s => exact hr
  | cut s => exact hr
  | stuck f => trivial

theorem Settles.mono {α : Type} {P Q : State → Prop} {r : Run α} (hr : Settles P r) (hpq : ∀ s, P s → Q s) :
    Settles Q r := by
  cases r with
  | ok a s => exact hpq s hr
  | raised e s => exact hr
  | cut s => exact hr
  | stuck f => trivial

theorem Settles.of_endsIn {α : Type} {P : State → Prop} {r : Run α} (hr : EndsIn P r) (hs : ∀ s, P s → Sound s)
    (he : ∀ e s, r = .raised e s → Raisable e) : Settles P r := by
  cases r with
  | ok a s => exact hr
  | raised e s => exact ⟨he e s rfl, hs s hr⟩
  | cut s => exact hs s hr
  | stuck f => trivial

/-- The outcome of such a run is a safe state. -/
theorem Settles.inv_settle {r : Run Unit} {t : State} (hr : Settles Inv r) (h : settle r = .next t) : Inv t := by
  cases r with
  | ok a s => cases h; exact hr
  | raised e s => cases h; exact hr.2.inv_takeError hr.1
  | cut s => cases h; exact inv_resetBlock hr.alphabet
  | stuck f => cases h

/-! ### The shared operations -/

theorem WriterKeeps.sound {s t : State} (h : WriterKeeps s t) (hs : Sound s) (ha : accOk t.wacc) : Sound t := by
  obtain ⟨hracc, -, -, -, -, hparams, -⟩ := h
  exact ⟨ha, hracc ▸ hs.racc, hparams ▸ hs.alphabet⟩

theorem WriterKeeps.phase_eq {s t : State} (h : WriterKeeps s t) : t.phase = s.phase := by
  obtain ⟨-, hphase, -⟩ := h
  exact hphase

theorem ReaderKeeps.phase_eq {s t : State} (h : ReaderKeeps s t) : t.phase = s.phase := by
  obtain ⟨-, hphase, -⟩ := h
  exact hphase

theorem ReaderKeeps.sound {s t : State} (h : ReaderKeeps s t) (hs : Sound s) (ha : accOk t.racc) : Sound t := by
  obtain ⟨hwacc, -, -, -, -, hparams, -⟩ := h
  exact ⟨hwacc ▸ hs.wacc, ha, hparams ▸ hs.alphabet⟩

theorem srcPull_ne_raised (s : State) (e : Raised) (t : State) : srcPull s ≠ .raised e t := by
  rcases srcPull_cases s with ⟨-, h⟩ | ⟨-, r, rest, -, h⟩ | ⟨-, -, h⟩ <;> simp [h]

theorem sinkPush_ne_raised (b : Byte) (s : State) (e : Raised) (t : State) : sinkPush b s ≠ .raised e t := by
  rcases sinkPush_cases b s with ⟨-, h⟩ | ⟨-, r, rest, -, h⟩ | ⟨-, -, h⟩ <;> simp [h]

/-- The one error of a push (41_writer.md R120). -/
theorem pushByte_raised {b : Byte} {s t : State} {e : Raised} (h : pushByte b s = .raised e t) : e = ioSink := by
  rcases andThen_eq_raised.mp h with h | ⟨accepted, u, -, h⟩
  · exact absurd h (sinkPush_ne_raised b s e t)
  · cases accepted <;> simp [done] at h
    exact h.1.symm

theorem settles_srcPull {s : State} (hs : Sound s) :
    Settles (fun t => ReaderKeeps s t ∧ t.racc = s.racc) (srcPull s) :=
  .of_endsIn (endsIn_srcPull s) (fun _ ⟨hk, hr⟩ => hk.sound hs (hr ▸ hs.racc))
    fun e t h => absurd h (srcPull_ne_raised s e t)

theorem settles_pushByte (b : Byte) {s : State} (hs : Sound s) :
    Settles (fun t => WriterKeeps s t ∧ t.wacc = s.wacc) (pushByte b s) :=
  .of_endsIn (endsIn_pushByte b s) (fun _ ⟨hk, hw⟩ => hk.sound hs (hw ▸ hs.wacc))
    fun _ _ h => pushByte_raised h ▸ raisable_ioSink

/-- What the writer leaves when it ends well: WACC is not full (41_writer.md R121). -/
structure WroteFrom (s t : State) : Prop where
  keeps : WriterKeeps s t
  ok : accOk t.wacc
  room : t.wacc.count.val < 8

theorem WroteFrom.sound {s t : State} (h : WroteFrom s t) (hs : Sound s) : Sound t := h.keeps.sound hs h.ok

theorem settles_drainIfFull {s : State} (hs : Sound s) : Settles (WroteFrom s) (drainIfFull s) := by
  unfold drainIfFull
  split
  · refine (settles_pushByte s.wacc.bits hs).andThen fun _ t ⟨hk, _⟩ => ?_
    exact ⟨hk.trans (.setWacc t _), accOk_empty, by simp [BitAcc.empty]⟩
  · rename_i hf
    have hne : s.wacc.count.val ≠ 8 := by simpa [fullFlag] using hf
    exact ⟨.refl s, hs.wacc, by omega⟩

theorem settles_writeLoop (bs : List Bool) {s : State} (hs : Sound s) (hc : s.wacc.count.val < 8) :
    Settles (WroteFrom s) (writeLoop bs s) := by
  induction bs generalizing s with
  | nil => exact ⟨.refl s, hs.wacc, hc⟩
  | cons b bs ih =>
    have hb : Sound (s.setWacc (pushBit s.wacc b)) := ⟨accOk_pushBit b hc hs.wacc, hs.racc, hs.alphabet⟩
    refine (settles_drainIfFull hb).andThen fun _ t ht => ?_
    refine (ih (ht.sound hb) ht.room).mono fun u hu => ?_
    exact ⟨((WriterKeeps.setWacc s _).trans ht.keeps).trans hu.keeps, hu.ok, hu.room⟩

theorem settles_writeBits (w : Nat) (v : BitVec w) {s : State} (hs : Sound s) :
    Settles (WroteFrom s) (writeBits w v s) := by
  refine (settles_drainIfFull hs).andThen fun _ t ht => ?_
  exact (settles_writeLoop _ (ht.sound hs) ht.room).mono fun u hu =>
    ⟨ht.keeps.trans hu.keeps, hu.ok, hu.room⟩

theorem eq_empty_of_count_eq_zero {a : BitAcc} (ha : accOk a) (h : a.count.val = 0) : a = BitAcc.empty :=
  acc_ext ha accOk_empty (List.eq_nil_of_length_eq_zero (by simpa using h))

/-- `FlushW()` leaves WACC empty when it ends well (41_writer.md R122). -/
theorem settles_flushW {s : State} (hs : Sound s) :
    Settles (fun t => WriterKeeps s t ∧ t.wacc = BitAcc.empty) (flushW s) := by
  unfold flushW
  split
  · exact ⟨.refl s, eq_empty_of_count_eq_zero hs.wacc ‹_›⟩
  · have hpad : Settles (fun t => WriterKeeps s t ∧ accOk t.wacc)
        (if inPadEscSet s.wacc.count.val then writeBits 5 ESC s else done s) := by
      split
      · exact (settles_writeBits 5 ESC hs).mono fun t ht => ⟨ht.keeps, ht.ok⟩
      · exact ⟨.refl s, hs.wacc⟩
    refine hpad.andThen fun _ t ⟨hst, hwt⟩ => ?_
    have hlast : Settles (WriterKeeps t) (if 0 < t.wacc.count.val then pushByte (flushByte t.wacc) t else done t) := by
      split
      · exact (settles_pushByte _ (hst.sound hs hwt)).mono fun u hu => hu.1
      · exact WriterKeeps.refl t
    exact hlast.andThen fun _ u hu => ⟨(hst.trans hu).trans (.setWacc u _), rfl⟩

/-- What the reader leaves when it ends well: RACC does not become full, and in Discard mode stays empty
(42_reader.md R145, R146). -/
structure ReadFrom (s t : State) : Prop where
  keeps : ReaderKeeps s t
  ok : accOk t.racc
  room : s.racc.count.val < 8 → t.racc.count.val < 8
  discard : s.params.readerMode = .discard → s.racc = BitAcc.empty → t.racc = BitAcc.empty

theorem settles_readBits {w : Nat} (h0 : 0 < w) (h8 : w ≤ 8) {s : State} (hs : Sound s) :
    Settles (ReadFrom s) (readBits w s) := by
  unfold readBits
  split
  · rename_i hc
    have hlen : ((validBits s.racc).drop w).length ≤ 8 := by simp; omega
    have hempty : s.racc ≠ BitAcc.empty := fun he => by rw [he] at hc; exact absurd hc (by simp [BitAcc.empty]; omega)
    refine ⟨⟨rfl, rfl, rfl, rfl, rfl, .of_eq rfl rfl⟩, ?_, fun h => ?_, fun _ he => absurd he hempty⟩
    · simpa [dropTop_eq] using accOk_accOf hlen
    · simp [dropTop]; omega
  · rename_i hc
    have hlt : s.racc.count.val < w := by omega
    refine (settles_srcPull hs).andThen fun a t ⟨hk, hr⟩ => ?_
    have ht : Sound t := hk.sound hs (hr ▸ hs.racc)
    cases a with
    | ioFail => exact ⟨raisable_ioSource, ht⟩
    | endOfStream => exact ⟨hk, ht.racc, fun h => hr ▸ h, fun _ h => hr.trans h⟩
    | byte B =>
      obtain ⟨hwacc, hphase, herr, hresp, hsnk, hio⟩ := hk
      have hkeeps : ReaderKeeps s (t.setRacc (refill t.params.readerMode w B t.racc).2) :=
        ⟨hwacc, hphase, herr, hresp, hsnk, hio.trans (.of_eq rfl rfl)⟩
      have hmode : t.params.readerMode = s.params.readerMode := by rw [hio.1]
      cases hm : s.params.readerMode with
      | retain =>
        have hlen : ((validBits s.racc ++ msbBits 8 B).drop w).length < 8 := by simp; omega
        have hacc : (refill t.params.readerMode w B t.racc).2 = accOf ((validBits s.racc ++ msbBits 8 B).drop w) := by
          rw [hmode, hm, hr, refill_retain_acc B h8 hlt]
        exact ⟨hkeeps, hacc ▸ accOk_accOf hlen.le, fun _ => hacc ▸ (accOf_count hlen.le).trans_lt hlen,
          fun h => absurd (hm.symm.trans h) nofun⟩
      | discard =>
        have hacc : (refill t.params.readerMode w B t.racc).2 = BitAcc.empty := by
          rw [hmode, hm, hr, refill_discard_acc B h8 hlt]
        exact ⟨hkeeps, hacc ▸ accOk_empty, fun _ => hacc ▸ show BitAcc.empty.count.val < 8 by decide, fun _ _ => hacc⟩

/-! ### The shared operations outside PHASE = ERROR -/

theorem WroteFrom.errorFree {s t : State} (h : WroteFrom s t) (hs : ErrorFree s)
    (hp : s.phase = .idle ∨ s.phase = .compress) : ErrorFree t := by
  obtain ⟨⟨hracc, hphase, herr, -, -, hparams, -⟩, hok, hc⟩ := h
  refine ⟨hphase ▸ hs.phase, herr ▸ hs.err, ⟨hok, hracc ▸ hs.sound.racc, fun hp' => ?_, fun hp' => ?_, fun hp' => ?_⟩,
    hparams ▸ hs.alphabet⟩
  · exact ⟨hc, hracc.trans (hs.racc_empty (hphase ▸ hp'))⟩
  · simp [← hphase, hp'] at hp
  · simp [← hphase, hp'] at hp

theorem ReadFrom.errorFree {s t : State} (h : ReadFrom s t) (hs : ErrorFree s)
    (hp : s.phase = .idle ∨ s.phase = .decompress) : ErrorFree t := by
  obtain ⟨⟨hwacc, hphase, herr, -, -, hparams, -⟩, hok, hc, hd⟩ := h
  obtain ⟨hw, -, -, hdecompress, -⟩ := hs.accs
  refine ⟨hphase ▸ hs.phase, herr ▸ hs.err, ⟨hwacc ▸ hw, hok, fun hp' => ?_, fun hp' => ?_, fun hp' => ?_⟩,
    hparams ▸ hs.alphabet⟩
  · simp [← hphase, hp'] at hp
  · obtain ⟨he, hlt, hmode⟩ := hdecompress (hphase ▸ hp')
    exact ⟨hwacc ▸ he, hc hlt, fun hm => hd (hparams ▸ hm) (hmode (hparams ▸ hm))⟩
  · simp [← hphase, hp'] at hp

/-- A change of RESP and of the host's side alone. -/
theorem ErrorFree.of_eq {s t : State} (hs : ErrorFree s) (hw : t.wacc = s.wacc) (hr : t.racc = s.racc)
    (hp : t.phase = s.phase) (he : t.err = s.err) (hpar : t.params = s.params) : ErrorFree t := by
  refine ⟨hp ▸ hs.phase, he ▸ hs.err, ?_, hpar ▸ hs.alphabet⟩
  simpa [accsOk, hw, hr, hp, hpar] using hs.accs

theorem settles_srcPull_errorFree {s : State} (hs : ErrorFree s) :
    Settles (fun t => ErrorFree t ∧ t.phase = s.phase) (srcPull s) :=
  (settles_srcPull hs.sound).mono fun _ ⟨⟨hwacc, hphase, herr, _, _, hio⟩, hracc⟩ =>
    ⟨hs.of_eq hwacc hracc hphase herr hio.1, hphase⟩

theorem settles_pushByte_errorFree (b : Byte) {s : State} (hs : ErrorFree s) :
    Settles ErrorFree (pushByte b s) :=
  (settles_pushByte b hs.sound).mono fun _ ⟨⟨hracc, hphase, herr, _, _, hio⟩, hwacc⟩ =>
    hs.of_eq hwacc hracc hphase herr hio.1

theorem settles_writeBits_errorFree (w : Nat) (v : BitVec w) {s : State} (hs : ErrorFree s)
    (hp : s.phase = .idle ∨ s.phase = .compress) :
    Settles (fun t => ErrorFree t ∧ t.phase = s.phase) (writeBits w v s) :=
  (settles_writeBits w v hs.sound).mono fun _ ht => ⟨ht.errorFree hs hp, ht.keeps.phase_eq⟩

theorem settles_readBits_errorFree {w : Nat} (h0 : 0 < w) (h8 : w ≤ 8) {s : State} (hs : ErrorFree s)
    (hp : s.phase = .idle ∨ s.phase = .decompress) :
    Settles (fun t => ErrorFree t ∧ t.phase = s.phase) (readBits w s) :=
  (settles_readBits h0 h8 hs.sound).mono fun _ ht => ⟨ht.errorFree hs hp, ht.keeps.phase_eq⟩

/-! ### The bodies of the raw commands, in PHASE = IDLE -/

theorem ErrorFree.writeAcc {s : State} {a : BitAcc} (sel : Sel) (hs : ErrorFree s) (hp : s.phase = .idle)
    (ha : accOk a) : ErrorFree (writeAcc sel a s) := by
  cases sel with
  | wacc => exact ⟨hs.phase, hs.err, ⟨ha, hs.sound.racc, by simp [State.setWacc, Machine.writeAcc, hp]⟩, hs.alphabet⟩
  | racc => exact ⟨hs.phase, hs.err, ⟨hs.sound.wacc, ha, by simp [Machine.writeAcc, hp]⟩, hs.alphabet⟩

theorem Sound.readAcc {s : State} (hs : Sound s) (sel : Sel) : accOk (readAcc sel s) := by
  cases sel with
  | wacc => exact hs.wacc
  | racc => exact hs.racc

theorem settles_pushCommand (sel : Sel) (bit : Bool) {s : State} (hs : ErrorFree s) (hp : s.phase = .idle) :
    Settles Inv (pushCommand sel bit s) := by
  unfold pushCommand
  split
  · exact ⟨raisable_illegalCommand (by decide), hs.sound⟩
  · rename_i hf
    have hne : (readAcc sel s).count.val ≠ 8 := by simpa [fullFlag] using hf
    have hok := accOk_pushBit bit (by omega) (hs.sound.readAcc sel)
    exact (hs.writeAcc sel hp hok).inv_setResp (plainResp_ok _)

theorem settles_writerResponse {r : Run Unit} (hr : Settles ErrorFree r) :
    Settles Inv (andThen r fun _ t => writerResponse t) :=
  hr.andThen fun _ _ ht => ht.inv_setResp (plainResp_ok _)

theorem settles_flushW_idle {s : State} (hs : ErrorFree s) (hp : s.phase = .idle) : Settles ErrorFree (flushW s) :=
  (settles_flushW hs.sound).mono fun t ⟨hk, he⟩ =>
    WroteFrom.errorFree ⟨hk, he ▸ accOk_empty, by simp [he, BitAcc.empty]⟩ hs (.inl hp)

theorem settles_readCommand {w : Nat} (h0 : 0 < w) (h8 : w ≤ 8) {s : State} (hs : ErrorFree s) (hp : s.phase = .idle) :
    Settles Inv (andThen (readBits w s) fun r t => done (t.setResp (readResponse r))) :=
  (settles_readBits_errorFree h0 h8 hs (.inl hp)).andThen fun r _ ht => ht.1.inv_setResp (plainResp_readResponse r)

/-! ### The bodies of the pipeline -/

/-- C.BEGIN, from any phase (44_pipeline.md R190): all it needs of the state before it are the ROMs. -/
theorem settles_compressBegin {s : State} (h : alphabetOk s.params.alphabet = true) : Settles Inv (compressBegin s) := by
  have hs : Sound (clearErrorAndAccs s) := ⟨accOk_empty, accOk_empty, h⟩
  refine (settles_writeBits 5 VERSION hs).andThen fun _ t ht => ?_
  have hsound := ht.sound hs
  obtain ⟨⟨hracc, -, herr, -⟩, hok, hc⟩ := ht
  have hfree : ErrorFree (t.setPhase .compress) :=
    ⟨by simp, herr, ⟨hok, hsound.racc, fun _ => ⟨hc, hracc⟩, nofun, nofun⟩, hsound.alphabet⟩
  exact hfree.inv_setResp (plainResp_ok _)

theorem settles_compressByte (b : Byte) {s : State} (hs : ErrorFree s) (hp : s.phase = .compress) :
    Settles Inv (compressByte b s) := by
  unfold compressByte
  split
  · exact ⟨raisable_unsupportedCharacter ‹_›, hs.sound⟩
  · refine (settles_writeBits_errorFree 5 _ hs (.inr hp)).andThen fun _ t ⟨ht, htp⟩ => ?_
    have hlit : Settles ErrorFree (if encodeByte s.params b = ESC then writeBits 8 b t else done t) := by
      split
      · exact (settles_writeBits_errorFree 8 b ht (.inr (htp.trans hp))).mono fun u hu => hu.1
      · exact ht
    exact hlit.andThen fun _ u hu => hu.inv_setResp (plainResp_ok _)

theorem settles_compressEnd {s : State} (hs : ErrorFree s) (hp : s.phase = .compress) : Settles Inv (compressEnd s) := by
  refine (settles_flushW hs.sound).andThen fun _ t ⟨hk, hw⟩ => ?_
  have hsound : Sound t := hk.sound hs.sound (hw ▸ accOk_empty)
  obtain ⟨hracc, -, herr, -⟩ := hk
  have hfree : ErrorFree (t.setPhase .done) :=
    ⟨by simp, herr.trans hs.err, ⟨hsound.wacc, hsound.racc, nofun, nofun, fun _ => ⟨hw, hracc.trans (hs.racc_empty hp)⟩⟩,
      hsound.alphabet⟩
  exact hfree.inv_setResp plainResp_eos

/-- C.STEP (R191). -/
theorem settles_compressStep {s : State} (hs : ErrorFree s) (hp : s.phase = .compress) :
    Settles Inv (compressStep s) := by
  refine (settles_srcPull_errorFree hs).andThen fun a t ⟨ht, htp⟩ => ?_
  cases a with
  | ioFail => exact ⟨raisable_ioSource, ht.sound⟩
  | endOfStream => exact settles_compressEnd ht (htp.trans hp)
  | byte b => exact settles_compressByte b ht (htp.trans hp)

/-- D.BEGIN, from any phase (R200). -/
theorem settles_decompressBegin {s : State} (h : alphabetOk s.params.alphabet = true) :
    Settles Inv (decompressBegin s) := by
  have hs : Sound (clearErrorAndAccs s) := ⟨accOk_empty, accOk_empty, h⟩
  refine (settles_readBits (by decide) (by decide) hs).andThen fun r t ht => ?_
  obtain ⟨hk, hok, hc, hd⟩ := ht
  have hsound : Sound t := hk.sound hs hok
  obtain ⟨hwacc, -, herr, -, -, hio⟩ := hk
  cases r with
  | none => exact ⟨raisable_unexpectedEndOfStream (by decide), hsound⟩
  | some v =>
    change Settles Inv (acceptVersion v t)
    unfold acceptVersion
    split
    · exact ⟨raisable_invalidFormatVersion ‹_›, hsound⟩
    · have hfree : ErrorFree (t.setPhase .decompress) :=
        ⟨by simp, herr, ⟨hsound.wacc, hok, nofun, fun _ => ⟨hwacc, hc (by simp [BitAcc.empty]), fun hm => hd (hio.1 ▸ hm) rfl⟩,
          nofun⟩, hsound.alphabet⟩
      exact hfree.inv_setResp (plainResp_ok _)

theorem settles_emitLiteral (l : Byte) {s : State} (hs : ErrorFree s) : Settles Inv (emitLiteral l s) :=
  (settles_pushByte_errorFree l hs).andThen fun _ _ ht => ht.inv_setResp (plainResp_ok _)

/-- Every code but ESC is held, so `UnknownCode` is not raised (R206). -/
theorem settles_emitSymbol {c : Code} {s : State} (hs : ErrorFree s) (hc : c ≠ ESC) : Settles Inv (emitSymbol c s) := by
  have hlt : (c.setWidth 8).toNat < 31 := by unfold ESC at hc; bv_omega
  have hd : decodeCode s.params (c.setWidth 8) = some s.params.alphabet[(c.setWidth 8).toNat] := by
    simp only [decodeCode, dif_pos hlt]
  rw [emitSymbol_some hd]
  exact (settles_pushByte_errorFree _ hs).andThen fun _ _ ht => ht.inv_setResp (plainResp_ok _)

theorem inv_endDecompress {s : State} (hs : ErrorFree s) (hp : s.phase = .decompress) : Inv (endDecompress s) := by
  have hfree : ErrorFree ((s.setRacc BitAcc.empty).setPhase .done) :=
    ⟨by simp, hs.err, ⟨hs.sound.wacc, accOk_empty, nofun, nofun, fun _ => ⟨hs.wacc_empty hp, rfl⟩⟩, hs.alphabet⟩
  exact hfree.inv_setResp plainResp_eos

theorem settles_terminalEscape {s : State} (hs : ErrorFree s) (hp : s.phase = .decompress) :
    Settles Inv (terminalEscape s) := by
  unfold terminalEscape
  split
  · exact inv_endDecompress hs hp
  · exact ⟨raisable_unexpectedEndOfStream (by decide), hs.sound⟩

theorem settles_escapeLiteral {s : State} (hs : ErrorFree s) (hp : s.phase = .decompress) :
    Settles Inv (escapeLiteral s) := by
  refine (settles_readBits_errorFree (by decide) (by decide) hs (.inr hp)).andThen fun r t ⟨ht, htp⟩ => ?_
  cases r with
  | none => exact settles_terminalEscape ht (htp.trans hp)
  | some l => exact settles_emitLiteral l ht

/-- D.STEP (R201, R204). -/
theorem settles_decompressStep {s : State} (hs : ErrorFree s) (hp : s.phase = .decompress) :
    Settles Inv (decompressStep s) := by
  refine (settles_readBits_errorFree (by decide) (by decide) hs (.inr hp)).andThen fun r t ⟨ht, htp⟩ => ?_
  cases r with
  | none => exact inv_endDecompress ht (htp.trans hp)
  | some c =>
    change Settles Inv (if c = ESC then escapeLiteral t else emitSymbol c t)
    split
    · exact settles_escapeLiteral ht (htp.trans hp)
    · exact settles_emitSymbol ht ‹_›

/-- The loop of a pass keeps what its round keeps (R192, R205). -/
theorem settles_passLoop {p : Phase} {body : State → Run Unit} (hp : p ≠ .error)
    (hbody : ∀ s, ErrorFree s → s.phase = p → Settles Inv (body s)) (fuel : Nat) {s : State} (hs : Inv s) :
    Settles Inv (passLoop p body fuel s) := by
  induction fuel generalizing s with
  | zero =>
    unfold passLoop
    split
    · trivial
    · exact hs
  | succ n ih =>
    unfold passLoop
    split
    · rename_i heq
      exact (hbody s (Inv.errorFree hs (heq ▸ hp)) heq).andThen fun _ t ht => ih ht
    · exact hs

theorem settles_compressPass {s : State} (h : alphabetOk s.params.alphabet = true) : Settles Inv (compressPass s) :=
  (settles_compressBegin h).andThen fun _ _ ht => settles_passLoop (by decide) (fun _ => settles_compressStep) _ ht

theorem settles_decompressPass {s : State} (h : alphabetOk s.params.alphabet = true) : Settles Inv (decompressPass s) :=
  (settles_decompressBegin h).andThen fun _ _ ht => settles_passLoop (by decide) (fun _ => settles_decompressStep) _ ht

/-! ### Commands and steps -/

/-- What an instruction does once no phase guard is in its way. -/
def bodyOf (i : Instr) : State → Run Unit :=
  match i with
  | .accPush sel bit => pushCommand sel bit
  | .accIsFull sel => fun s => done (s.setResp ⟨.ok, if fullFlag (readAcc sel s) then 1#8 else 0#8⟩)
  | .accClear sel => fun s => done ((writeAcc sel BitAcc.empty s).setResp ⟨.ok, 0#8⟩)
  | .wrWrite5 value => fun s => andThen (writeBits 5 value s) fun _ t => writerResponse t
  | .wrWrite8 value => fun s => andThen (writeBits 8 value s) fun _ t => writerResponse t
  | .wrFlush => fun s => andThen (flushW s) fun _ t => writerResponse t
  | .rdRead5 => fun s => andThen (readBits 5 s) fun r t => done (t.setResp (readResponse r))
  | .rdRead8 => fun s => andThen (readBits 8 s) fun r t => done (t.setResp (readResponse r))
  | .tblEncode byte => fun s => done (s.setResp ⟨.ok, (encodeByte s.params byte).setWidth 8⟩)
  | .tblDecode code => fun s => done (s.setResp (decodeResponse (decodeCode s.params code)))
  | .cBegin => compressBegin
  | .cStep => compressStep
  | .cPass => compressPass
  | .dBegin => decompressBegin
  | .dStep => decompressStep
  | .dPass => decompressPass
  | .ctlIdle => fun s => done (((clearErrorAndAccs s).setPhase .idle).setResp ⟨.ok, 0#8⟩)
  | .streamVersion => acceptVersion VERSION
  | .streamSym c => emitSymbol c
  | .streamEsc l => emitLiteral l
  | .streamPadEsc => terminalEscape

/-- A command runs its body under the guard of its row of 60_exceptions.md R237. -/
theorem exec_command {i : Instr} {g : Group} (h : groupOf i = some g) (s : State) :
    exec i s = guarded g (bodyOf i) s := by
  cases i <;> cases h <;> rfl

/-- A token meets no guard (log 7). -/
theorem exec_token {i : Instr} (h : groupOf i = none) (s : State) : exec i s = settle (bodyOf i s) := by
  cases i <;> cases h <;> rfl

/-- The raw commands run in PHASE = IDLE only (R237). -/
theorem phase_of_legal_raw {p : Phase} (h : legal .raw p = true) : p = .idle := by cases p <;> simp [legal] at h ⊢

theorem phase_of_legal_cStep {p : Phase} (h : legal .cStep p = true) : p = .compress := by
  cases p <;> simp [legal] at h ⊢

theorem phase_of_legal_dStep {p : Phase} (h : legal .dStep p = true) : p = .decompress := by
  cases p <;> simp [legal] at h ⊢

theorem settles_rawBody {i : Instr} {s : State} (hg : groupOf i = some .raw) (hs : ErrorFree s) (hp : s.phase = .idle) :
    Settles Inv (bodyOf i s) := by
  cases i with
  | accPush sel bit => exact settles_pushCommand sel bit hs hp
  | accIsFull sel => exact hs.inv_setResp (plainResp_ok _)
  | accClear sel => exact (hs.writeAcc sel hp accOk_empty).inv_setResp (plainResp_ok _)
  | wrWrite5 value =>
    exact settles_writerResponse ((settles_writeBits_errorFree 5 value hs (.inl hp)).mono fun _ ht => ht.1)
  | wrWrite8 value =>
    exact settles_writerResponse ((settles_writeBits_errorFree 8 value hs (.inl hp)).mono fun _ ht => ht.1)
  | wrFlush => exact settles_writerResponse (settles_flushW_idle hs hp)
  | rdRead5 => exact settles_readCommand (by decide) (by decide) hs hp
  | rdRead8 => exact settles_readCommand (by decide) (by decide) hs hp
  | _ => cases hg

theorem settles_tableBody {i : Instr} {s : State} (hg : groupOf i = some .table) (hs : Inv s) :
    Settles Inv (bodyOf i s) := by
  cases i with
  | tblEncode byte => exact Inv.setResp hs (plainResp_ok _)
  | tblDecode code => exact Inv.setResp hs (plainResp_decodeResponse _)
  | _ => cases hg

theorem settles_beginBody {i : Instr} {s : State} (hg : groupOf i = some .begin)
    (h : alphabetOk s.params.alphabet = true) : Settles Inv (bodyOf i s) := by
  cases i with
  | cBegin => exact settles_compressBegin h
  | cPass => exact settles_compressPass h
  | dBegin => exact settles_decompressBegin h
  | dPass => exact settles_decompressPass h
  | _ => cases hg

/-- CTL.IDLE, from any phase (44_pipeline.md R210). -/
theorem settles_ctlIdle {s : State} (h : alphabetOk s.params.alphabet = true) : Settles Inv (bodyOf .ctlIdle s) :=
  have hfree : ErrorFree ((clearErrorAndAccs s).setPhase .idle) :=
    ⟨by simp, rfl, ⟨accOk_empty, accOk_empty, nofun, nofun, nofun⟩, h⟩
  hfree.inv_setResp (plainResp_ok _)

/-- Every command's body keeps the invariant where the command is legal. -/
theorem settles_bodyOf {i : Instr} {g : Group} {s : State} (hg : groupOf i = some g) (hl : legal g s.phase = true)
    (hs : Inv s) : Settles Inv (bodyOf i s) := by
  cases g with
  | raw =>
    have hp := phase_of_legal_raw hl
    exact settles_rawBody hg (Inv.errorFree hs (by simp [hp])) hp
  | table => exact settles_tableBody hg hs
  | begin => exact settles_beginBody hg hs.sound.alphabet
  | cStep =>
    have hp := phase_of_legal_cStep hl
    cases i with
    | cStep => exact settles_compressStep (Inv.errorFree hs (by simp [hp])) hp
    | _ => cases hg
  | dStep =>
    have hp := phase_of_legal_dStep hl
    cases i with
    | dStep => exact settles_decompressStep (Inv.errorFree hs (by simp [hp])) hp
    | _ => cases hg
  | idle =>
    cases i with
    | ctlIdle => exact settles_ctlIdle hs.sound.alphabet
    | _ => cases hg

/-- Every command keeps the invariant: its body does where it is legal, and its rejection does elsewhere. -/
theorem inv_of_exec {i : Instr} {g : Group} {s t : State} (hg : groupOf i = some g) (hs : Inv s)
    (h : exec i s = .next t) : Inv t := by
  rw [exec_command hg] at h
  rcases guarded_next h with ⟨hl, hn⟩ | ⟨-, rfl⟩
  · exact (settles_bodyOf hg hl hs).inv_settle hn
  · exact Inv.rejectCommand hs (by decide)

/-- A command word never stands for a token of the stream (30_encoding.md R84). -/
theorem groupOf_of_decode_command {w : CmdWord} {i : Instr} (h : decode (.command w) = .ok i) :
    ∃ g, groupOf i = some g := by
  have hrows : ∀ r ∈ commandRows, ∀ w, ∃ g, groupOf (r.build w) = some g := by
    intro r hr w
    fin_cases hr <;> exact ⟨_, rfl⟩
  change decodeWord w = .ok i at h
  unfold decodeWord at h
  split at h
  · rename_i r hr
    cases h
    exact hrows r (List.mem_of_find?_eq_some hr) w
  · cases h

theorem inv_of_runWord {w : CmdWord} {s t : State} (hs : Inv s) (h : runWord w s = .next t) : Inv t := by
  cases hd : decode (.command w) with
  | ok i =>
    obtain ⟨g, hg⟩ := groupOf_of_decode_command hd
    exact inv_of_exec hg hs (runWord_ok s hd ▸ h)
  | error e =>
    cases (runWord_error s hd).symm.trans h
    exact Inv.rejectCommand hs (by decide)

/-- Settles O19: each event of the host starts a run from a safe state, and every shared operation of the run keeps what
its phase asks of the accumulators. -/
theorem everyStepKeepsInv : Obligations.EveryStepKeepsInv := by
  intro s t hs h
  cases he : s.host.events with
  | nil =>
    cases (step_noEvent he).symm.trans h
    exact hs
  | cons event rest =>
    cases event with
    | command w =>
      obtain ⟨u, hu, rfl⟩ := mapNext_eq_next.mp ((step_command he).symm.trans h)
      exact Inv.setHost (inv_of_runWord (Inv.setHost hs _) hu) _
    | reset =>
      cases (step_reset he).symm.trans h
      exact inv_resetBlock hs.sound.alphabet
    | commandCutByReset w n =>
      obtain ⟨u, hu, rfl⟩ := mapNext_eq_next.mp ((step_commandCutByReset he).symm.trans h)
      have hInv : Inv u := inv_of_runWord (Inv.setHost hs _) hu
      exact Inv.setHost (inv_resetBlock hInv.sound.alphabet) _

/-- The alphabet at reset meets 00_scope.md R7 (a) and (b), whatever the free value is (log 2). -/
theorem alphabetOk_config : alphabetOk Config.alphabet = true := by
  unfold Config.alphabet
  split
  · assumption
  · decide

/-- Settles O20: reset leaves a safe state, and the alphabet at reset meets R7. -/
theorem invHoldsAtReset : Obligations.InvHoldsAtReset :=
  inv_resetBlock (s := State.reset) alphabetOk_config

end Sys2Proof.Machine
end

section
/-! PROOFS. A command under a reset does a first part of the same command's I/O (70_reset_and_hazards.md R260), and nothing
in a step writes the ROMs (10_state.md R28). -/

namespace Sys2Proof.Machine

/-! ### One command, with and without a reset during it -/

/-- `s` with a reset to come once the record holds `total` pulls and pushes (log 6). -/
def resetAt (total : Nat) (s : State) : State :=
  s.setHost { s.host with resetAfter := some (total - s.host.trace.length) }

/-- `r'` is the run `r` of a command that no reset cuts off, but with a reset once the record holds `total` pulls and
pushes: it ends as `r` does where `r` needs no more of them, and is cut off with the first `total` of `r`'s record where
`r` does. Of an `r` that never ends nothing is said. -/
inductive CutAt {α : Type} (total : Nat) : Run α → Run α → Prop
  | ok {a : α} {t : State} (waits : HostWaits t) (fits : t.host.trace.length ≤ total) :
      CutAt total (.ok a t) (.ok a (resetAt total t))
  | raised {e : Raised} {t : State} (fits : t.host.trace.length ≤ total) :
      CutAt total (.raised e t) (.raised e (resetAt total t))
  | cut {r : Run α} {u : State}
      (record : EndsIn (fun t => total ≤ t.host.trace.length ∧ u.host.trace = t.host.trace.take total) r) :
      CutAt total r (.cut u)
  | stuck {f : Fault} {r' : Run α} : CutAt total (.stuck f) r'

/-- `r` is a run from `s` that meets the host only through its pulls and pushes, and `r'` is the same run with a reset to
come once the record holds `total` of them. -/
structure Cuttable {α : Type} (total : Nat) (s : State) (r r' : Run α) : Prop where
  io : EndsIn (IoExtends s) r
  cut : HostWaits s → s.host.trace.length ≤ total → CutAt total r r'

theorem IoExtends.trace_extends {s t : State} (h : IoExtends s t) : s.host.trace <+: t.host.trace := by
  obtain ⟨-, -, -, es, hes⟩ := h
  exact ⟨es, hes.trace.symm⟩

/-- Once the record holds `total` events its first part does not change any more. -/
theorem IoExtends.take_trace {s t : State} {total : Nat} (h : IoExtends s t) (hs : total ≤ s.host.trace.length) :
    total ≤ t.host.trace.length ∧ t.host.trace.take total = s.host.trace.take total := by
  obtain ⟨es, hes⟩ := h.trace_extends
  rw [← hes, List.take_append_of_le_length hs, List.length_append]
  exact ⟨Nat.le_add_right_of_le hs, rfl⟩

/-- A reset that is due now cuts off any run, with nothing added to the record. -/
theorem CutAt.now {α : Type} {s : State} {r : Run α} {total : Nat} (hr : EndsIn (IoExtends s) r)
    (hs : s.host.trace.length = total) : CutAt total r (.cut (resetAt total s)) := by
  refine .cut (endsIn_mono hr fun t ht => ?_)
  obtain ⟨hlen, htake⟩ := ht.take_trace hs.ge
  exact ⟨hlen, by rw [htake, ← hs, List.take_length]; rfl⟩

/-- A result reached without a pull or push. -/
theorem Cuttable.ok {α : Type} {total : Nat} {s t : State} {a : α} (hp : t.params = s.params) (hh : t.host = s.host) :
    Cuttable total s (.ok a t) (.ok a (resetAt total t)) where
  io := .of_eq hp hh
  cut hw hl := .ok (by rwa [HostWaits, hh]) (by rwa [hh])

/-- A raise reached without a pull or push. -/
theorem Cuttable.raised {α : Type} {total : Nat} {s t : State} {e : Raised} (hp : t.params = s.params)
    (hh : t.host = s.host) : Cuttable total s (.raised e t : Run α) (.raised e (resetAt total t)) where
  io := .of_eq hp hh
  cut _ hl := .raised (by rwa [hh])

theorem Cuttable.stuck {α : Type} {total : Nat} {s : State} {f : Fault} {r' : Run α} :
    Cuttable total s (.stuck f) r' where
  io := trivial
  cut _ _ := .stuck

/-- Registers may be written before the run begins. -/
theorem Cuttable.of_eq {α : Type} {total : Nat} {s t : State} {r r' : Run α} (h : Cuttable total t r r')
    (hp : t.params = s.params) (hh : t.host = s.host) : Cuttable total s r r' where
  io := endsIn_mono h.io fun _ hu => (IoExtends.of_eq hp hh).trans hu
  cut hw hl := h.cut (by rwa [HostWaits, hh]) (by rwa [hh])

/-- Two runs in sequence: a reset cuts off the first or the second. -/
theorem Cuttable.andThen {α β : Type} {total : Nat} {s : State} {r r' : Run α} {k k' : α → State → Run β}
    (hr : Cuttable total s r r') (hk : ∀ a t, Cuttable total t (k a t) (k' a (resetAt total t))) :
    Cuttable total s (andThen r k) (andThen r' k') where
  io := endsIn_andThen hr.io (fun _ h => h) fun a t ht => endsIn_mono (hk a t).io fun _ hu => ht.trans hu
  cut hw hl := by
    cases hr.cut hw hl with
    | ok waits fits => exact (hk _ _).cut waits fits
    | raised fits => exact .raised fits
    | stuck => exact .stuck
    | cut record =>
      refine .cut (endsIn_andThen record (fun _ h => h) fun a t ⟨hlen, htake⟩ => endsIn_mono (hk a t).io fun v hv => ?_)
      obtain ⟨hlen', htake'⟩ := hv.take_trace hlen
      exact ⟨hlen', htake.trans htake'.symm⟩

/-! ### Pulls and pushes -/

/-- A pull or push is cut off where the reset is due now, and otherwise done as without the reset. -/
theorem Cuttable.of_due {α : Type} {total : Nat} {s : State} {r r' : Run α} (io : EndsIn (IoExtends s) r)
    (due : s.host.trace.length = total → r' = .cut (resetAt total s))
    (later : HostWaits s → s.host.trace.length < total → CutAt total r r') : Cuttable total s r r' where
  io := io
  cut hw hl := by
    rcases Nat.lt_or_eq_of_le hl with hlt | heq
    · exact later hw hlt
    · exact due heq ▸ .now io heq

theorem cuttable_srcPull (total : Nat) (s : State) : Cuttable total s (srcPull s) (srcPull (resetAt total s)) := by
  refine .of_due (endsIn_mono (endsIn_srcPull s) fun _ ⟨⟨_, _, _, _, _, hio⟩, _⟩ => hio)
    (fun heq => by simp [srcPull, resetAt, heq]) fun hw hlt => ?_
  have hdue : total - s.host.trace.length ≠ 0 := by omega
  cases hn : nextAnswer s.host.src with
  | none =>
    rw [srcPull_silent hw hn]
    exact .stuck
  | some p =>
    have hcut : srcPull (resetAt total s) =
        .ok (srcAnswer p.1) (resetAt total (s.setHost (afterPull (srcAnswer p.1) p.2 s.host))) := by
      simp [srcPull, resetAt, hn, hdue, countDown, afterPull, State.setHost, Nat.sub_sub]
    rw [srcPull_answered hw ⟨p.1, hn, rfl⟩, hcut]
    exact .ok hw (by simpa [afterPull] using hlt)

/-- The host's side after one answered push, in a command that no reset cuts off. -/
def afterPush (b : Byte) (accepted : Bool) (rest : Answers SnkReply) (h : HostSide) : HostSide :=
  { h with snk := rest, trace := h.trace ++ [.push b accepted] }

theorem sinkPush_answered {s : State} {b : Byte} {r : SnkReply} {rest : Answers SnkReply} (hw : HostWaits s)
    (hn : nextAnswer s.host.snk = some (r, rest)) :
    sinkPush b s = .ok (!r.fail) (s.setHost (afterPush b (!r.fail) rest s.host)) := by
  simp [sinkPush, hn, show s.host.resetAfter = none from hw, countDown_waits hw, afterPush]

theorem endsIn_sinkPush (b : Byte) (s : State) : EndsIn (IoExtends s) (sinkPush b s) := by
  rcases sinkPush_cases b s with ⟨-, h⟩ | ⟨-, r, rest, hn, h⟩ | ⟨-, -, h⟩ <;> rw [h]
  · exact .refl s
  · exact .push b hn
  · trivial

theorem cuttable_sinkPush (b : Byte) (total : Nat) (s : State) :
    Cuttable total s (sinkPush b s) (sinkPush b (resetAt total s)) := by
  refine .of_due (endsIn_sinkPush b s) (fun heq => by simp [sinkPush, resetAt, heq]) fun hw hlt => ?_
  have hdue : total - s.host.trace.length ≠ 0 := by omega
  cases hn : nextAnswer s.host.snk with
  | none =>
    have hsilent : sinkPush b s = .stuck .hostSilent := by
      simp [sinkPush, hn, show s.host.resetAfter = none from hw]
    rw [hsilent]
    exact .stuck
  | some p =>
    have hcut : sinkPush b (resetAt total s) =
        .ok (!p.1.fail) (resetAt total (s.setHost (afterPush b (!p.1.fail) p.2 s.host))) := by
      simp [sinkPush, resetAt, hn, hdue, countDown, afterPush, State.setHost, Nat.sub_sub]
    rw [sinkPush_answered hw hn, hcut]
    exact .ok hw (by simpa [afterPush] using hlt)

theorem cuttable_pushByte (b : Byte) (total : Nat) (s : State) :
    Cuttable total s (pushByte b s) (pushByte b (resetAt total s)) :=
  (cuttable_sinkPush b total s).andThen fun accepted _ => by
    cases accepted with
    | true => exact .ok rfl rfl
    | false => exact .raised rfl rfl

/-! ### The writer and the reader -/

/-- A reset to come changes no register, so both runs take the same branch. -/
theorem Cuttable.ite {α : Type} {total : Nat} {s : State} {c : Prop} [Decidable c] {r₁ r₂ r₁' r₂' : Run α}
    (h₁ : c → Cuttable total s r₁ r₁') (h₂ : ¬ c → Cuttable total s r₂ r₂') :
    Cuttable total s (if c then r₁ else r₂) (if c then r₁' else r₂') := by
  split
  · exact h₁ ‹c›
  · exact h₂ ‹¬ c›

theorem cuttable_drainIfFull (total : Nat) (s : State) :
    Cuttable total s (drainIfFull s) (drainIfFull (resetAt total s)) :=
  .ite (fun _ => (cuttable_pushByte s.wacc.bits total s).andThen fun _ _ => .ok rfl rfl) fun _ => .ok rfl rfl

theorem cuttable_writeLoop (bs : List Bool) (total : Nat) (s : State) :
    Cuttable total s (writeLoop bs s) (writeLoop bs (resetAt total s)) := by
  induction bs generalizing s with
  | nil => exact .ok rfl rfl
  | cons b bs ih =>
    exact .of_eq (t := s.setWacc (pushBit s.wacc b))
      ((cuttable_drainIfFull total _).andThen fun _ t => ih t) rfl rfl

theorem cuttable_writeBits (w : Nat) (v : BitVec w) (total : Nat) (s : State) :
    Cuttable total s (writeBits w v s) (writeBits w v (resetAt total s)) :=
  (cuttable_drainIfFull total s).andThen fun _ t => cuttable_writeLoop _ total t

theorem cuttable_flushW (total : Nat) (s : State) : Cuttable total s (flushW s) (flushW (resetAt total s)) := by
  refine .ite (fun _ => .ok rfl rfl) fun _ => ?_
  have hpad : Cuttable total s (if inPadEscSet s.wacc.count.val then writeBits 5 ESC s else done s)
      (if inPadEscSet s.wacc.count.val then writeBits 5 ESC (resetAt total s) else done (resetAt total s)) :=
    .ite (fun _ => cuttable_writeBits 5 ESC total s) fun _ => .ok rfl rfl
  refine hpad.andThen fun _ t => ?_
  have hlast : Cuttable total t (if 0 < t.wacc.count.val then pushByte (flushByte t.wacc) t else done t)
      (if 0 < t.wacc.count.val then pushByte (flushByte t.wacc) (resetAt total t) else done (resetAt total t)) :=
    .ite (fun _ => cuttable_pushByte _ total t) fun _ => .ok rfl rfl
  exact hlast.andThen fun _ _ => .ok rfl rfl

theorem cuttable_readBits (w : Nat) (total : Nat) (s : State) :
    Cuttable total s (readBits w s) (readBits w (resetAt total s)) := by
  refine .ite (fun _ => .ok rfl rfl) fun _ => (cuttable_srcPull total s).andThen fun a t => ?_
  cases a with
  | byte B => exact .ok rfl rfl
  | endOfStream => exact .ok rfl rfl
  | ioFail => exact .raised rfl rfl

/-! ### The pipeline -/

theorem cuttable_compressBegin (total : Nat) (s : State) :
    Cuttable total s (compressBegin s) (compressBegin (resetAt total s)) :=
  .of_eq (t := clearErrorAndAccs s)
    ((cuttable_writeBits 5 VERSION total _).andThen fun _ _ => .ok rfl rfl) rfl rfl

theorem cuttable_compressByte (b : Byte) (total : Nat) (s : State) :
    Cuttable total s (compressByte b s) (compressByte b (resetAt total s)) := by
  refine .ite (fun _ => .raised rfl rfl) fun _ => (cuttable_writeBits 5 _ total s).andThen fun _ t => ?_
  have hliteral : Cuttable total t (if encodeByte s.params b = ESC then writeBits 8 b t else done t)
      (if encodeByte s.params b = ESC then writeBits 8 b (resetAt total t) else done (resetAt total t)) :=
    .ite (fun _ => cuttable_writeBits 8 b total t) fun _ => .ok rfl rfl
  exact hliteral.andThen fun _ _ => .ok rfl rfl

theorem cuttable_compressStep (total : Nat) (s : State) :
    Cuttable total s (compressStep s) (compressStep (resetAt total s)) :=
  (cuttable_srcPull total s).andThen fun a t => by
    cases a with
    | ioFail => exact .raised rfl rfl
    | endOfStream => exact (cuttable_flushW total t).andThen fun _ _ => .ok rfl rfl
    | byte b => exact cuttable_compressByte b total t

theorem cuttable_acceptVersion (v : Code) (total : Nat) (s : State) :
    Cuttable total s (acceptVersion v s) (acceptVersion v (resetAt total s)) :=
  .ite (fun _ => .raised rfl rfl) fun _ => .ok rfl rfl

theorem cuttable_decompressBegin (total : Nat) (s : State) :
    Cuttable total s (decompressBegin s) (decompressBegin (resetAt total s)) := by
  refine .of_eq (t := clearErrorAndAccs s) ((cuttable_readBits 5 total _).andThen fun r t => ?_) rfl rfl
  cases r with
  | none => exact .raised rfl rfl
  | some v => exact cuttable_acceptVersion v total t

theorem cuttable_emitSymbol (c : Code) (total : Nat) (s : State) :
    Cuttable total s (emitSymbol c s) (emitSymbol c (resetAt total s)) := by
  have hparams : (resetAt total s).params = s.params := rfl
  unfold emitSymbol
  rw [hparams]
  cases decodeCode s.params (c.setWidth 8) with
  | none => exact .raised rfl rfl
  | some d => exact (cuttable_pushByte d total s).andThen fun _ _ => .ok rfl rfl

theorem cuttable_emitLiteral (l : Byte) (total : Nat) (s : State) :
    Cuttable total s (emitLiteral l s) (emitLiteral l (resetAt total s)) :=
  (cuttable_pushByte l total s).andThen fun _ _ => .ok rfl rfl

theorem cuttable_terminalEscape (total : Nat) (s : State) :
    Cuttable total s (terminalEscape s) (terminalEscape (resetAt total s)) :=
  .ite (fun _ => .ok rfl rfl) fun _ => .raised rfl rfl

theorem cuttable_escapeLiteral (total : Nat) (s : State) :
    Cuttable total s (escapeLiteral s) (escapeLiteral (resetAt total s)) :=
  (cuttable_readBits 8 total s).andThen fun r t => by
    cases r with
    | none => exact cuttable_terminalEscape total t
    | some l => exact cuttable_emitLiteral l total t

theorem cuttable_decompressStep (total : Nat) (s : State) :
    Cuttable total s (decompressStep s) (decompressStep (resetAt total s)) :=
  (cuttable_readBits 5 total s).andThen fun r t => by
    cases r with
    | none => exact .ok rfl rfl
    | some c =>
      exact .ite (fun _ => cuttable_escapeLiteral total t) fun _ => cuttable_emitSymbol c total t

/-- The loop of a pass, which under a reset has a larger bound on its rounds (log 5). -/
theorem cuttable_passLoop {p : Phase} {body : State → Run Unit} {total m n : Nat} (hmn : m ≤ n)
    (hbody : ∀ s, Cuttable total s (body s) (body (resetAt total s))) (s : State) :
    Cuttable total s (passLoop p body m s) (passLoop p body n (resetAt total s)) := by
  induction m generalizing n s with
  | zero =>
    unfold passLoop
    exact .ite (fun _ => .stuck) fun _ => .ok rfl rfl
  | succ m ih =>
    obtain ⟨n, rfl⟩ : ∃ k, n = k + 1 := ⟨n - 1, by omega⟩
    unfold passLoop
    exact .ite (fun _ => (hbody s).andThen fun _ t => ih (by omega) t) fun _ => .ok rfl rfl

/-- A pass is its first command and then its loop, whatever the bound on the rounds is at its start. -/
theorem cuttable_pass {p : Phase} {start body : State → Run Unit} {total : Nat}
    (hstart : ∀ s, Cuttable total s (start s) (start (resetAt total s)))
    (hbody : ∀ s, Cuttable total s (body s) (body (resetAt total s))) (s : State) :
    Cuttable total s (andThen (start s) fun _ t => passLoop p body (passRounds s) t)
      (andThen (start (resetAt total s)) fun _ t => passLoop p body (passRounds (resetAt total s)) t) := by
  have hrounds (n : Nat) (hn : passRounds s ≤ n) :
      Cuttable total s (andThen (start s) fun _ t => passLoop p body (passRounds s) t)
        (andThen (start (resetAt total s)) fun _ t => passLoop p body n t) :=
    (hstart s).andThen fun _ t => cuttable_passLoop hn hbody t
  refine ⟨(hrounds _ le_rfl).io, fun hw hl => (hrounds _ ?_).cut hw hl⟩
  simp [passRounds, resetAt, show s.host.resetAfter = none from hw]

/-! ### Commands -/

theorem cuttable_writerResponse (total : Nat) {s : State} {r r' : Run Unit} (h : Cuttable total s r r') :
    Cuttable total s (andThen r fun _ t => writerResponse t) (andThen r' fun _ t => writerResponse t) :=
  h.andThen fun _ _ => .ok rfl rfl

theorem cuttable_readResponse {w : Nat} (total : Nat) {s : State} {r r' : Run (Option (BitVec w))}
    (h : Cuttable total s r r') :
    Cuttable total s (andThen r fun v t => done (t.setResp (readResponse v)))
      (andThen r' fun v t => done (t.setResp (readResponse v))) :=
  h.andThen fun _ _ => .ok rfl rfl

theorem cuttable_pushCommand (sel : Sel) (bit : Bool) (total : Nat) (s : State) :
    Cuttable total s (pushCommand sel bit s) (pushCommand sel bit (resetAt total s)) := by
  cases sel <;> exact .ite (fun _ => .raised rfl rfl) fun _ => .ok rfl rfl

/-- Every instruction meets the host only through its pulls and pushes, so a reset can cut it off at each of them (R260). -/
theorem cuttable_bodyOf (i : Instr) (total : Nat) (s : State) :
    Cuttable total s (bodyOf i s) (bodyOf i (resetAt total s)) := by
  cases i with
  | accPush sel bit => exact cuttable_pushCommand sel bit total s
  | accIsFull sel => cases sel <;> exact .ok rfl rfl
  | accClear sel => cases sel <;> exact .ok rfl rfl
  | wrWrite5 value => exact cuttable_writerResponse total (cuttable_writeBits 5 value total s)
  | wrWrite8 value => exact cuttable_writerResponse total (cuttable_writeBits 8 value total s)
  | wrFlush => exact cuttable_writerResponse total (cuttable_flushW total s)
  | rdRead5 => exact cuttable_readResponse total (cuttable_readBits 5 total s)
  | rdRead8 => exact cuttable_readResponse total (cuttable_readBits 8 total s)
  | tblEncode byte => exact .ok rfl rfl
  | tblDecode code => exact .ok rfl rfl
  | cBegin => exact cuttable_compressBegin total s
  | cStep => exact cuttable_compressStep total s
  | cPass => exact cuttable_pass (p := .compress) (cuttable_compressBegin total) (cuttable_compressStep total) s
  | dBegin => exact cuttable_decompressBegin total s
  | dStep => exact cuttable_decompressStep total s
  | dPass => exact cuttable_pass (p := .decompress) (cuttable_decompressBegin total) (cuttable_decompressStep total) s
  | ctlIdle => exact .ok rfl rfl
  | streamVersion => exact cuttable_acceptVersion VERSION total s
  | streamSym c => exact cuttable_emitSymbol c total s
  | streamEsc l => exact cuttable_emitLiteral l total s
  | streamPadEsc => exact cuttable_terminalEscape total s

theorem cuttable_rejectCommand (info : BitVec 8) (total : Nat) (s : State) :
    Cuttable total s (done (rejectCommand info s)) (done (rejectCommand info (resetAt total s))) := by
  by_cases hp : s.phase = .error
  · rw [rejectCommand_error _ hp, rejectCommand_error (s := resetAt total s) _ hp]
    exact .ok rfl rfl
  · rw [rejectCommand_raises _ hp, rejectCommand_raises (s := resetAt total s) _ hp]
    exact .ok rfl rfl

/-- Every word, whether it runs its command or is rejected, is a run that a reset can cut off. -/
theorem runWord_eq_settle (w : CmdWord) (total : Nat) (s : State) :
    ∃ r r', runWord w s = settle r ∧ runWord w (resetAt total s) = settle r' ∧ Cuttable total s r r' := by
  cases hd : decode (.command w) with
  | error e => exact ⟨done _, done _, runWord_error s hd, runWord_error _ hd, cuttable_rejectCommand 0#8 total s⟩
  | ok i =>
    obtain ⟨g, hg⟩ := groupOf_of_decode_command hd
    rw [runWord_ok _ hd, runWord_ok _ hd, exec_command hg, exec_command hg]
    cases hl : legal g s.phase with
    | true => exact ⟨_, _, guarded_legal _ hl, guarded_legal (s := resetAt total s) _ hl, cuttable_bodyOf i total s⟩
    | false =>
      exact ⟨done _, done _, guarded_not_legal _ hl, guarded_not_legal (s := resetAt total s) _ hl,
        cuttable_rejectCommand 1#8 total s⟩

/-- The end of a command, like its run, meets the host only through pulls and pushes. -/
theorem IoExtends.of_settle {r : Run Unit} {s t : State} (hr : EndsIn (IoExtends s) r) (h : settle r = .next t) :
    IoExtends s t := by
  obtain ⟨u, hu, rfl | ⟨e, rfl⟩ | rfl⟩ := settle_next hr h
  · exact hu
  · exact hu.trans (.of_eq rfl rfl)
  · exact hu.trans (.of_eq rfl rfl)

theorem runWord_ioExtends {w : CmdWord} {s t : State} (h : runWord w s = .next t) : IoExtends s t := by
  obtain ⟨r, r', hr, -, hcut⟩ := runWord_eq_settle w 0 s
  exact .of_settle hcut.io (hr ▸ h)

/-- A command that ends also ends under a reset, with the first part of its record. -/
theorem CutAt.settle_next {r r' : Run Unit} {t : State} {total : Nat} (h : CutAt total r r') (ht : settle r = .next t) :
    ∃ u, settle r' = .next u ∧ u.host.trace = t.host.trace.take total := by
  cases h with
  | ok waits fits =>
    cases ht
    exact ⟨_, rfl, (List.take_of_length_le fits).symm⟩
  | raised fits =>
    cases ht
    exact ⟨_, rfl, (List.take_of_length_le fits).symm⟩
  | cut record =>
    obtain ⟨v, ⟨-, hv⟩, rfl | ⟨e, rfl⟩ | rfl⟩ := Machine.settle_next record ht <;> exact ⟨_, rfl, hv⟩
  | stuck => cases ht

theorem runWord_resetAt {w : CmdWord} {s t : State} {total : Nat} (hw : HostWaits s) (hl : s.host.trace.length ≤ total)
    (h : runWord w s = .next t) :
    ∃ u, runWord w (resetAt total s) = .next u ∧ u.host.trace = t.host.trace.take total := by
  obtain ⟨r, r', hr, hr', hcut⟩ := runWord_eq_settle w total s
  rw [hr']
  exact (hcut.cut hw hl).settle_next (hr ▸ h)

/-- The host's event says after how many more pulls and pushes the reset comes. -/
theorem acceptEvent_some (rest : List HostEvent) (n : Nat) (s : State) :
    acceptEvent rest (some n) s = resetAt (s.host.trace.length + n) (acceptEvent rest none s) := by
  simp [acceptEvent, resetAt, State.setHost]

/-! ### The statements -/

/-- Settles O11: the command's run under the reset keeps the first n of its pulls and pushes, and the reset leaves nothing
else of it. -/
theorem resetCutsTheCommandOff : Obligations.ResetCutsTheCommandOff := by
  refine ⟨fun s rest he => step_reset he, fun s t w rest n he ht => ?_⟩
  obtain ⟨v, hv, rfl⟩ := mapNext_eq_next.mp ((step_command he).symm.trans ht)
  obtain ⟨u, hu, htrace⟩ : ∃ u, runWord w (acceptEvent rest (some n) s) = .next u ∧
      u.host.trace = v.host.trace.take (s.host.trace.length + n) := by
    rw [acceptEvent_some]
    exact runWord_resetAt rfl (Nat.le_add_right _ _) hv
  obtain ⟨hparams, hevents, hresps, es, hes⟩ := runWord_ioExtends hu
  have hdrop : u.host.trace.drop s.host.trace.length = es := by
    rw [hes.trace]
    exact List.drop_left
  refine ⟨endByReset u, (step_commandCutByReset rfl).trans (congrArg (mapNext endByReset) hu), rfl, rfl, rfl, rfl, rfl,
    hparams, hevents, hresps, htrace, ?_, ?_⟩
  · change u.host.src = dropAnswers (pullCount (u.host.trace.drop _)) _
    rw [hdrop]
    exact hes.src
  · change u.host.snk = dropAnswers (pushCount (u.host.trace.drop _)) _
    rw [hdrop]
    exact hes.snk

/-- No step writes the parameters, the ROMs' contents among them (10_state.md R28, R34). -/
theorem step_params {s t : State} (h : step s = .next t) : t.params = s.params := by
  cases he : s.host.events with
  | nil =>
    cases (step_noEvent he).symm.trans h
    rfl
  | cons event rest =>
    cases event with
    | command w =>
      obtain ⟨u, hu, rfl⟩ := mapNext_eq_next.mp ((step_command he).symm.trans h)
      exact (runWord_ioExtends hu).1
    | reset =>
      cases (step_reset he).symm.trans h
      rfl
    | commandCutByReset w n =>
      obtain ⟨u, hu, rfl⟩ := mapNext_eq_next.mp ((step_commandCutByReset he).symm.trans h)
      exact (runWord_ioExtends hu).1

/-- Settles O21: both lookups are functions of the parameters, which no step writes. -/
theorem romsAreReadOnly : Obligations.RomsAreReadOnly := by
  intro s t h
  rw [step_params h]
  exact ⟨rfl, fun _ => rfl, fun _ => rfl⟩

end Sys2Proof.Machine
end

section
/-! PROOFS. The block's registers: the accumulator commands, the symbol table, STATUS, and the values at reset
(10_state.md R23 to R35). -/

namespace Sys2Proof.Machine

/-! ### The accumulator -/

/-- Below a full count `Push` loses no bit of the register. -/
theorem toNat_bits_pushBit {a : BitAcc} (b : Bool) (h : a.count.val < 8) (ha : accOk a) :
    (pushBit a b).bits.toNat = 2 * a.bits.toNat + b.toNat := by
  have hpow : 2 ^ a.count.val ≤ 2 ^ 7 := Nat.pow_le_pow_right (by decide) (by omega)
  have hlt : a.bits.toNat < 2 ^ a.count.val := ha
  have hb : b.toNat ≤ 1 := Bool.toNat_le b
  rw [bits_pushBit, BitVec.toNat_ofNat]
  exact Nat.mod_eq_of_lt (by omega)

/-- Settles O30, from what `Push` does to the register, the count and the valid bits. -/
theorem pushShiftsOneBitIn : Obligations.PushShiftsOneBitIn := fun _ b h ha =>
  ⟨toNat_bits_pushBit b h ha, count_pushBit b h, accOk_pushBit b h ha, validBits_pushBit b h⟩

/-- The count and the flag of 10_state.md R24. -/
theorem ite_fullFlag {α : Type} (a : BitAcc) (x y : α) :
    (if fullFlag a then x else y) = if a.count.val = 8 then x else y := by
  simp [fullFlag]

/-- A raw command in PHASE = IDLE runs its body (60_exceptions.md R237). -/
theorem exec_raw_idle {i : Instr} {s : State} (hg : groupOf i = some .raw) (hp : s.phase = .idle) :
    exec i s = settle (bodyOf i s) := by
  rw [exec_command hg, guarded_legal _ (by rw [hp]; rfl)]

/-- ACC.ISFULL in PHASE = IDLE (40_accumulator.md R103). -/
theorem exec_accIsFull {s : State} (sel : Sel) (hp : s.phase = .idle) :
    exec (.accIsFull sel) s = .next (s.setResp ⟨.ok, if (readAcc sel s).count.val = 8 then 1#8 else 0#8⟩) := by
  rw [exec_raw_idle rfl hp]
  simp only [bodyOf, ite_fullFlag]
  rfl

/-- ACC.CLEAR in PHASE = IDLE (R104). -/
theorem exec_accClear {s : State} (sel : Sel) (hp : s.phase = .idle) :
    exec (.accClear sel) s = .next ((writeAcc sel BitAcc.empty s).setResp ⟨.ok, 0#8⟩) :=
  exec_raw_idle rfl hp

/-- Settles O33, by the accumulator that sel picks. -/
theorem accIsFullAndClearRun : Obligations.AccIsFullAndClearRun := fun _ hp =>
  ⟨exec_accIsFull .wacc hp, exec_accIsFull .racc hp, exec_accClear .wacc hp, exec_accClear .racc hp⟩

/-! ### The symbol table -/

/-- 00_scope.md R7 (a): the entries differ. -/
theorem nodup_of_alphabetOk {a : Vector Byte 31} (h : alphabetOk a = true) : a.toList.Nodup := by
  simp only [alphabetOk, Bool.and_eq_true, decide_eq_true_eq] at h
  exact h.2

/-- A code that FWD finds is the index of the byte, and so below ESC. -/
theorem getElem?_of_findIdx? {p : Params} {b : Byte} {c : Nat}
    (h : p.alphabet.toList.findIdx? (fun x => x == b) = some c) : p.alphabet.toList[c]? = some b := by
  obtain ⟨hc, hb, -⟩ := List.findIdx?_eq_some_iff_getElem.mp h
  rw [List.getElem?_eq_getElem hc, beq_iff_eq.mp hb]

theorem lt_of_getElem?_alphabet {p : Params} {b : Byte} {c : Nat} (h : p.alphabet.toList[c]? = some b) : c < 31 := by
  obtain ⟨hc, -⟩ := List.getElem?_eq_some_iff.mp h
  simpa using hc

theorem ofNat_ne_ESC {c : Nat} (h : c < 31) : BitVec.ofNat 5 c ≠ ESC := by
  unfold ESC
  bv_omega

/-- FWD finds the code of an entry, since no other entry is equal to it (10_state.md R27). -/
theorem encodeByte_getElem {p : Params} (hp : alphabetOk p.alphabet = true) {b : Byte} {c : Nat}
    (h : p.alphabet.toList[c]? = some b) : encodeByte p b = BitVec.ofNat 5 c := by
  rcases encodeByte_cases p b with ⟨d, hd, he⟩ | ⟨hb, -⟩
  · have hdb := getElem?_of_findIdx? hd
    have hlen : c < p.alphabet.toList.length := by simpa using lt_of_getElem?_alphabet h
    rw [he, (List.getElem?_inj hlen (nodup_of_alphabetOk hp)).mp (h.trans hdb.symm)]
  · exact absurd (List.mem_of_getElem? h) hb

/-- FWD answers ESC exactly for a byte with no code (R27, 43_symbol_table.md R174). -/
theorem encodeByte_eq_ESC {p : Params} {b : Byte} : encodeByte p b = ESC ↔ b ∉ p.alphabet.toList := by
  rcases encodeByte_cases p b with ⟨c, hc, he⟩ | ⟨hb, he⟩
  · have hcb := getElem?_of_findIdx? hc
    exact iff_of_false (he ▸ ofNat_ne_ESC (lt_of_getElem?_alphabet hcb)) (not_not.mpr (List.mem_of_getElem? hcb))
  · exact iff_of_true he hb

/-- REV gives the entry back that FWD found (R174). -/
theorem decodeCode_encodeByte {p : Params} (hp : alphabetOk p.alphabet = true) {b : Byte} {c : Nat}
    (h : p.alphabet.toList[c]? = some b) : decodeCode p ((encodeByte p b).setWidth 8) = some b := by
  have hc := lt_of_getElem?_alphabet h
  have hval : ((BitVec.ofNat 5 c).setWidth 8).toNat = c := by bv_omega
  rw [encodeByte_getElem hp h, decodeCode_eq, hval, h]

/-- The 256 bytes, each once. -/
def allBytes : List Byte := (List.range 256).map (BitVec.ofNat 8)

theorem nodup_allBytes : allBytes.Nodup :=
  List.nodup_range.map_on fun m hm n hn h => by
    have hm := List.mem_range.mp hm
    have hn := List.mem_range.mp hn
    bv_omega

theorem mem_allBytes (b : Byte) : b ∈ allBytes :=
  List.mem_map.mpr ⟨b.toNat, List.mem_range.mpr b.isLt, BitVec.ofNat_toNat 8 b⟩

/-- Of the 256 bytes, a list without repetitions holds as many as it is long. -/
theorem countP_mem_allBytes {l : List Byte} (h : l.Nodup) : allBytes.countP (fun b => decide (b ∈ l)) = l.length := by
  rw [List.countP_eq_length_filter]
  exact ((List.perm_ext_iff_of_nodup (nodup_allBytes.filter _) h).mpr fun b => by simp [mem_allBytes]).length_eq

/-- 256 - 31 bytes have no code (R174). -/
theorem countP_encodeByte_ESC {p : Params} (hp : alphabetOk p.alphabet = true) :
    ((List.range 256).countP fun n => encodeByte p (BitVec.ofNat 8 n) == ESC) = 225 := by
  have hsplit := List.length_eq_countP_add_countP (fun b => decide (b ∈ p.alphabet.toList)) (l := allBytes)
  have hheld : allBytes.countP (fun b => decide (b ∈ p.alphabet.toList)) = 31 := by
    simpa using countP_mem_allBytes (nodup_of_alphabetOk hp)
  have hesc : ((List.range 256).countP fun n => encodeByte p (BitVec.ofNat 8 n) == ESC) =
      allBytes.countP fun b => ¬ decide (b ∈ p.alphabet.toList) := by
    rw [allBytes, List.countP_map]
    refine List.countP_congr fun n _ => ?_
    simp [encodeByte_eq_ESC]
  have hlen : allBytes.length = 256 := by simp [allBytes]
  omega

/-- Settles O42, from the two ROMs' lemmas and the count of the bytes that the alphabet holds. -/
theorem tableLemmas : Obligations.TableLemmas := fun _ hp =>
  ⟨fun _ _ h => ⟨encodeByte_getElem hp h, decodeCode_encodeByte hp h⟩, fun _ => encodeByte_eq_ESC, rfl,
    countP_encodeByte_ESC hp⟩

/-! ### Reset and STATUS -/

/-- Settles O10: the registers at reset by their definition, and the step by what a reset between commands does. -/
theorem resetValues : Obligations.ResetValues :=
  ⟨rfl, rfl, rfl, rfl, rfl, rfl, fun _ _ he => step_reset he⟩

/-- The fields of STATUS, from the low end up: each is cut out of the word by dropping the ones below it (R31). -/
theorem statusWord_fields (s : State) :
    (statusWord s).extractLsb' 0 3 = phaseCode s.phase ∧ (statusWord s).extractLsb' 3 1 = 0#1 ∧
    (statusWord s).extractLsb' 4 3 = s.err.code ∧ (statusWord s).extractLsb' 7 1 = s.err.iodir ∧
    (statusWord s).extractLsb' 8 8 = s.err.info := by
  have habovePhase {start len : Nat} (h : 3 ≤ start) : (statusWord s).extractLsb' start len =
      (s.err.info ++ s.err.iodir ++ s.err.code ++ 0#1).extractLsb' (start - 3) len :=
    BitVec.extractLsb'_append_eq_of_le h
  have haboveZero {start len : Nat} (h : 4 ≤ start) : (statusWord s).extractLsb' start len =
      (s.err.info ++ s.err.iodir ++ s.err.code).extractLsb' (start - 3 - 1) len :=
    (habovePhase (by omega)).trans (BitVec.extractLsb'_append_eq_of_le (by omega))
  have haboveCode {start len : Nat} (h : 7 ≤ start) : (statusWord s).extractLsb' start len =
      (s.err.info ++ s.err.iodir).extractLsb' (start - 3 - 1 - 3) len :=
    (haboveZero (by omega)).trans (BitVec.extractLsb'_append_eq_of_le (by omega))
  refine ⟨BitVec.extractLsb'_append_eq_right, ?_, ?_, ?_, ?_⟩
  · exact (habovePhase (by decide)).trans BitVec.extractLsb'_append_eq_right
  · exact (haboveZero (by decide)).trans BitVec.extractLsb'_append_eq_right
  · exact (haboveCode (by decide)).trans BitVec.extractLsb'_append_eq_right
  · exact (haboveCode (by decide)).trans BitVec.extractLsb'_append_eq_left

/-- Settles O18, field by field of the word that STATUS is put together from. -/
theorem statusLayout : Obligations.StatusLayout := by
  refine ⟨rfl, fun s => ?_, rfl, rfl, rfl, rfl⟩
  obtain ⟨hphase, hzero, hcode, hiodir, hinfo⟩ := statusWord_fields s
  refine ⟨hphase.trans ?_, ?_, hcode, hiodir, hinfo⟩
  · cases s.phase <;> rfl
  · simpa using congrArg (fun v => v.getLsbD 0) hzero

end Sys2Proof.Machine
end

section
/-! PROOFS. Memory: where the bits of the stream stand in its bytes, and the source and the sink over one step
(20_memory.md R51 to R58). -/

namespace Sys2Proof

/-- Bit j of the n low bits, most significant first, stands at bit position n - 1 - j (20_memory.md R53). -/
theorem getElem?_msbBits {w n j : Nat} (v : BitVec w) (h : j < n) : (msbBits n v)[j]? = some (v.getLsbD (n - 1 - j)) := by
  induction n generalizing j with
  | zero => cases h
  | succ n ih =>
    cases j with
    | zero => rfl
    | succ j =>
      have htail : (msbBits (n + 1) v)[j + 1]? = (msbBits n v)[j]? := rfl
      rw [htail, ih (by omega), show n + 1 - 1 - (j + 1) = n - 1 - j by omega]

end Sys2Proof

namespace Sys2Proof.Machine

/-! ### Bits and bytes of the stream -/

theorem getElem?_wholeBytes {bs : List Bool} {k : Nat} (h : k < bs.length / 8) :
    (wholeBytes bs)[k]? = some (ofMsbBits 8 ((bs.drop (8 * k)).take 8)) := by
  simp [wholeBytes, h]

/-- The value of eight bits has them as its bits, most significant first. -/
theorem getLsbD_ofMsbBits_byte {x : List Bool} {j : Nat} (hx : x.length = 8) (hj : j < 8) :
    some ((ofMsbBits 8 x).getLsbD (7 - j)) = x[j]? := by
  have hbits : msbBits 8 (ofMsbBits 8 x) = x := by simpa [hx] using msbBits_ofMsbBits (n := 8) (bs := x) hx.le
  rw [← getElem?_msbBits (ofMsbBits 8 x) hj, hbits]

/-- Settles O6: byte i / 8 is the value of the eight bits from 8 * (i / 8) on, of which bit i is number i % 8. -/
theorem streamBitPositions : Obligations.StreamBitPositions := by
  intro bs i hi
  rw [length_wholeBytes] at hi
  have hchunk : ((bs.drop (8 * (i / 8))).take 8).length = 8 := by
    rw [List.length_take, List.length_drop]
    omega
  have hj : i % 8 < 8 := Nat.mod_lt i (by decide)
  rw [getElem?_wholeBytes (by omega), Option.map_some, getLsbD_ofMsbBits_byte hchunk hj, List.getElem?_take_of_lt hj,
    List.getElem?_drop, Nat.div_add_mod]

/-! ### The source and the sink over one step -/

/-- Where the record and both ports' answers stay as they are, no pull or push was done. -/
theorem IoDone.none {s t : State} (htrace : t.host.trace = s.host.trace) (hsrc : t.host.src = s.host.src)
    (hsnk : t.host.snk = s.host.snk) : IoDone [] s t where
  trace := by rw [htrace, List.append_nil]
  pulled := by simp
  pushed := by simp
  src := by rw [hsrc, pullCount_nil, dropAnswers_zero]
  snk := by rw [hsnk, pushCount_nil, dropAnswers_zero]

/-- The bytes at the sink are those there before and the accepted ones of the pushes done (20_memory.md R52). -/
theorem IoDone.sinkBytes_eq {es : List IoEvent} {s t : State} (h : IoDone es s t) :
    sinkBytes t = sinkBytes s ++ acceptedBytes es := by
  rw [sinkBytes, h.trace, acceptedBytes_append]
  rfl

/-- A command that the host's event starts does its I/O from the state the event found. -/
theorem ioDone_of_runWord {w : CmdWord} {rest : List HostEvent} {resetAfter : Option Nat} {s t : State}
    (h : runWord w (acceptEvent rest resetAfter s) = .next t) : ∃ es, IoDone es s t := by
  obtain ⟨-, -, -, es, hes⟩ := runWord_ioExtends h
  have hevent : IoDone [] s (acceptEvent rest resetAfter s) := .none rfl rfl rfl
  exact ⟨_, hevent.trans hes⟩

/-- Whatever the host's event, a step does some pulls and pushes with the host's answers in order; taking the event and
ending the command do none. -/
theorem step_ioDone {s t : State} (h : step s = .next t) : ∃ es, IoDone es s t := by
  cases he : s.host.events with
  | nil =>
    cases (step_noEvent he).symm.trans h
    exact ⟨[], .none rfl rfl rfl⟩
  | cons event rest =>
    cases event with
    | command w =>
      obtain ⟨u, hu, rfl⟩ := mapNext_eq_next.mp ((step_command he).symm.trans h)
      obtain ⟨es, hes⟩ := ioDone_of_runWord hu
      exact ⟨_, hes.trans (.none rfl rfl rfl)⟩
    | reset =>
      cases (step_reset he).symm.trans h
      exact ⟨[], .none rfl rfl rfl⟩
    | commandCutByReset w n =>
      obtain ⟨u, hu, rfl⟩ := mapNext_eq_next.mp ((step_commandCutByReset he).symm.trans h)
      obtain ⟨es, hes⟩ := ioDone_of_runWord hu
      exact ⟨_, hes.trans (.none rfl rfl rfl)⟩

/-- Settles O22: a step's pulls and pushes take the host's answers in order, and the sink gets the accepted bytes. -/
theorem ioRecordOnlyGrows : Obligations.IoRecordOnlyGrows := by
  intro s t h
  obtain ⟨es, hes⟩ := step_ioDone h
  exact ⟨es, hes.trace, hes.sinkBytes_eq, hes.pulled, hes.pushed, hes.src, hes.snk⟩

end Sys2Proof.Machine
end

section
/-! PROOFS. Encodings: the fields of a command word and the rows of the opcode map, the tokens of the stream, and the
length of a compressed stream (30_encoding.md R70 to R88). -/

namespace Sys2Proof

/-! ### The fields of a command word (R81) -/

/-- The field sel as a bit. -/
def selBits (w : CmdWord) : BitVec 1 := w.extractLsb' 10 1

theorem selBits_eq_selBit (w : CmdWord) : selBits w = selBit (selField w) := by
  have hbit : ∀ b : BitVec 1, b = selBit (if b == 1#1 then .racc else .wacc) := by decide
  rw [selField, BitVec.getLsbD_eq_extractLsb']
  exact hbit (selBits w)

theorem selBit_inj {p q : Sel} : selBit p = selBit q ↔ p = q := by
  cases p <;> cases q <;> decide

/-- A word is its four fields, side by side. -/
theorem append_fields (w : CmdWord) : opField w ++ selBits w ++ rsvField w ++ imm8Field w = w := by
  simp only [opField, selBits, rsvField, imm8Field]
  rw [BitVec.extractLsb'_append_extractLsb'_eq_extractLsb' (show 11 = 10 + 1 by rfl),
    BitVec.extractLsb'_append_extractLsb'_eq_extractLsb' (show 10 = 8 + 2 by rfl),
    BitVec.extractLsb'_append_extractLsb'_eq_extractLsb' (show 8 = 0 + 8 by rfl)]
  exact BitVec.extractLsb'_eq_self

theorem word_ext_iff {v w : CmdWord} : v = w ↔
    opField v = opField w ∧ selBits v = selBits w ∧ rsvField v = rsvField w ∧ imm8Field v = imm8Field w := by
  refine ⟨fun h => by simp [h], fun ⟨hop, hsel, hrsv, himm⟩ => ?_⟩
  rw [← append_fields v, ← append_fields w, hop, hsel, hrsv, himm]

@[simp] theorem opField_and (v w : CmdWord) : opField (v &&& w) = opField v &&& opField w := BitVec.extractLsb'_and
@[simp] theorem selBits_and (v w : CmdWord) : selBits (v &&& w) = selBits v &&& selBits w := BitVec.extractLsb'_and
@[simp] theorem rsvField_and (v w : CmdWord) : rsvField (v &&& w) = rsvField v &&& rsvField w := BitVec.extractLsb'_and
@[simp] theorem imm8Field_and (v w : CmdWord) : imm8Field (v &&& w) = imm8Field v &&& imm8Field w :=
  BitVec.extractLsb'_and

section CommandWord
variable (op : BitVec 5) (sel : BitVec 1) (imm8 : Byte)

@[simp] theorem imm8Field_commandWord : imm8Field (commandWord op sel imm8) = imm8 :=
  BitVec.extractLsb'_append_eq_right

@[simp] theorem rsvField_commandWord : rsvField (commandWord op sel imm8) = 0#2 :=
  (BitVec.extractLsb'_append_eq_of_le (by decide)).trans BitVec.extractLsb'_append_eq_right

@[simp] theorem selBits_commandWord : selBits (commandWord op sel imm8) = sel :=
  (BitVec.extractLsb'_append_eq_of_le (by decide)).trans <|
    (BitVec.extractLsb'_append_eq_of_le (by decide)).trans BitVec.extractLsb'_append_eq_right

@[simp] theorem opField_commandWord : opField (commandWord op sel imm8) = op :=
  (BitVec.extractLsb'_append_eq_of_le (by decide)).trans <|
    (BitVec.extractLsb'_append_eq_of_le (by decide)).trans BitVec.extractLsb'_append_eq_left

@[simp] theorem selField_commandWord (sel : Sel) : selField (commandWord op (selBit sel) imm8) = sel := by
  rw [← selBit_inj, ← selBits_eq_selBit, selBits_commandWord]

end CommandWord

/-! ### The rows of the opcode map (R84) -/

/-- The ops of the commands that take no operand from imm8 (R84). -/
def opsWithoutImm : List Nat := [2, 3, 6, 7, 8, 11, 12, 13, 14, 15, 16, 17]

/-- The bits of imm8 that must be 0 in a command of the given op (R85). -/
def zeroImmBits (op : BitVec 5) : Byte :=
  if op.toNat = 1 then 0xFE#8
  else if op.toNat ∈ opsWithoutImm then 0xFF#8
  else 0#8

/-- What R85 asks of the fields below op. -/
def FieldsFit (w : CmdWord) : Prop :=
  rsvField w = 0#2 ∧ (4 ≤ (opField w).toNat → selField w = .wacc) ∧ imm8Field w &&& zeroImmBits (opField w) = 0#8

/-- No two rows have the same op. -/
theorem nodup_row_ops : (commandRows.map fun r => opField r.pattern).Nodup := by decide

/-- The ops of the map are 1 to 17 (R85). -/
theorem exists_row_of_op (op : BitVec 5) :
    (∃ r ∈ commandRows, op = opField r.pattern) ↔ op.toNat ≠ 0 ∧ op.toNat < 0x12 := by
  revert op
  decide

/-- Every row fixes op and rsv, fixes sel outside ACC.*, and asks 0 of the bits of imm8 that are no operand (R84). -/
theorem row_masks : ∀ r ∈ commandRows,
    opField r.mask = BitVec.allOnes 5 ∧ rsvField r.mask = BitVec.allOnes 2 ∧
    selBits r.mask = (if 4 ≤ (opField r.pattern).toNat then 1#1 else 0#1) ∧
    imm8Field r.mask = zeroImmBits (opField r.pattern) ∧
    selBits r.pattern = 0#1 ∧ rsvField r.pattern = 0#2 ∧ imm8Field r.pattern = 0#8 := by
  decide

theorem selBits_and_eq_zero {w : CmdWord} {p : Prop} [Decidable p] :
    selBits w &&& (if p then 1#1 else 0#1) = 0#1 ↔ (p → selField w = .wacc) := by
  rw [selBits_eq_selBit]
  by_cases hp : p <;> cases selField w <;> simp [hp, selBit]

/-- A word selects a row exactly when it has the row's op and its other fields fit that op. -/
theorem selects_iff {r : Row} (hr : r ∈ commandRows) (w : CmdWord) :
    r.selects w = true ↔ opField w = opField r.pattern ∧ FieldsFit w := by
  obtain ⟨hop, hrsv, hsel, himm, hsel0, hrsv0, himm0⟩ := row_masks r hr
  simp only [Row.selects, beq_iff_eq, word_ext_iff, opField_and, selBits_and, rsvField_and, imm8Field_and, hop, hrsv,
    hsel, himm, hsel0, hrsv0, himm0, BitVec.and_allOnes, selBits_and_eq_zero, FieldsFit]
  refine and_congr_right fun hw => ?_
  rw [hw, and_left_comm]

/-- The masks do not overlap on any word (R86). -/
theorem row_eq_of_selects {q r : Row} {w : CmdWord} (hq : q ∈ commandRows) (hr : r ∈ commandRows)
    (hqw : q.selects w = true) (hrw : r.selects w = true) : q = r := by
  obtain ⟨hqop, -⟩ := (selects_iff hq w).mp hqw
  obtain ⟨hrop, -⟩ := (selects_iff hr w).mp hrw
  exact List.inj_on_of_nodup_map nodup_row_ops hq hr (hqop.symm.trans hrop)

/-- A word that selects a row decodes by it, wherever in the map the row stands. -/
theorem decodeWord_of_selects {r : Row} {w : CmdWord} (hr : r ∈ commandRows) (h : r.selects w = true) :
    decodeWord w = .ok (r.build w) := by
  cases hf : commandRows.find? (fun r => r.selects w) with
  | none => exact absurd h (List.find?_eq_none.mp hf r hr)
  | some q =>
    have hqw : q.selects w = true := List.find?_some (p := fun r : Row => r.selects w) hf
    have hq : q = r := row_eq_of_selects (List.mem_of_find?_eq_some hf) hr hqw h
    simp [decodeWord, hf, hq]

/-- A word is illegal exactly when it selects no row (R85). -/
theorem exists_decodeWord_error_iff (w : CmdWord) :
    (∃ e, decodeWord w = .error e) ↔ ∀ r ∈ commandRows, r.selects w = false := by
  constructor
  · rintro ⟨e, he⟩ r hr
    by_contra h
    cases he.symm.trans (decodeWord_of_selects hr (by simpa using h))
  · intro h
    have hf : commandRows.find? (fun r => r.selects w) = none := List.find?_eq_none.mpr fun r hr => by simp [h r hr]
    exact ⟨illegalReason w, by simp [decodeWord, hf]⟩

/-- Settles O3: a word selects at most the row of its op. -/
theorem decodeFollowsTheSelectedRow : Obligations.DecodeFollowsTheSelectedRow := fun w =>
  ⟨fun _ hr h => decodeWord_of_selects hr h,
    fun _ hq _ hr hqw hrw => congrArg Row.pattern (row_eq_of_selects hq hr hqw hrw),
    (exists_decodeWord_error_iff w).mpr⟩

/-! ### The list of illegal words (R85) -/

theorem and_0xFE_eq_zero_iff (x : Byte) : x &&& 0xFE#8 = 0#8 ↔ x.toNat < 2 := by
  revert x
  decide

theorem and_zeroImmBits_eq_zero_iff (x : Byte) (op : BitVec 5) : x &&& zeroImmBits op = 0#8 ↔
    ¬ (op.toNat = 1 ∧ 2 ≤ x.toNat) ∧
    ¬ (op.toNat ∈ opsWithoutImm ∧ x ≠ 0#8) := by
  unfold zeroImmBits
  split
  next h => simp [h, and_0xFE_eq_zero_iff, opsWithoutImm]
  next h =>
    split
    next hmem =>
      have hall : x &&& 0xFF#8 = x := BitVec.and_allOnes
      simp only [hall, h, hmem, false_and, not_false_iff, true_and, not_not, ne_eq]
    next hmem => simp only [h, hmem, BitVec.and_zero, false_and, not_false_iff, and_self]

/-- A word selects some row exactly when its op is one of the map and its other fields fit that op. -/
theorem exists_selects_iff (w : CmdWord) : (∃ r ∈ commandRows, r.selects w = true) ↔
    ((opField w).toNat ≠ 0 ∧ (opField w).toNat < 0x12) ∧ FieldsFit w := by
  rw [← exists_row_of_op]
  constructor
  · rintro ⟨r, hr, h⟩
    obtain ⟨hop, hfit⟩ := (selects_iff hr w).mp h
    exact ⟨⟨r, hr, hop⟩, hfit⟩
  · rintro ⟨⟨r, hr, hop⟩, hfit⟩
    exact ⟨r, hr, (selects_iff hr w).mpr ⟨hop, hfit⟩⟩

/-- The list of R85. -/
theorem illegal_iff (w : CmdWord) : (∃ e, decodeWord w = .error e) ↔
    (opField w).toNat = 0 ∨ 0x12 ≤ (opField w).toNat ∨ rsvField w ≠ 0#2 ∨
    (selField w = .racc ∧ 4 ≤ (opField w).toNat) ∨
    ((opField w).toNat = 1 ∧ 2 ≤ (imm8Field w).toNat) ∨
    ((opField w).toNat ∈ opsWithoutImm ∧ imm8Field w ≠ 0#8) := by
  have hselects : ¬ (∃ e, decodeWord w = .error e) ↔ ∃ r ∈ commandRows, r.selects w = true := by
    simp [exists_decodeWord_error_iff]
  have hsel : (4 ≤ (opField w).toNat → selField w = .wacc) ↔ ¬ (selField w = .racc ∧ 4 ≤ (opField w).toNat) := by
    cases selField w <;> simp
  rw [← not_iff_not, hselects, exists_selects_iff, FieldsFit, and_zeroImmBits_eq_zero_iff, hsel, ← Nat.not_le]
  simp only [not_or, ne_eq, not_not, and_assoc]

/-- WR.WRITE5 takes imm8[4:0], whatever the three bits above them are (R83, R85). -/
theorem decodeWord_wrWrite5 {w : CmdWord} (h : w &&& 0xFF00#16 = 0x2000#16) :
    decodeWord w = .ok (.wrWrite5 (w.setWidth 5)) := by
  have hrow : commandRows[3]? = some ⟨0x2000#16, 0xFF00#16, fun w => .wrWrite5 ((imm8Field w).setWidth 5)⟩ := rfl
  have hoperand : (imm8Field w).setWidth 5 = w.setWidth 5 := by
    rw [imm8Field, ← BitVec.setWidth_eq_extractLsb' (by decide)]
    exact BitVec.setWidth_setWidth_of_le w (by decide)
  rw [← hoperand]
  exact decodeWord_of_selects (List.mem_of_getElem? hrow) (beq_iff_eq.mpr h)

/-! ### The tokens of the stream (R71 to R74) -/

/-- The bits of a value are read back as the value. -/
theorem takeBits_msbBits_append {n : Nat} (v : BitVec n) (rest : List Bool) :
    takeBits n (msbBits n v ++ rest) = some (v, rest) := by
  have htake : (msbBits n v ++ rest).take n = msbBits n v := List.take_left' (length_msbBits n v)
  have hdrop : (msbBits n v ++ rest).drop n = rest := List.drop_left' (length_msbBits n v)
  simp [takeBits, htake, hdrop, ofMsbBits_msbBits]

theorem takeBits_of_short {n : Nat} {bs : List Bool} (h : bs.length < n) : takeBits n bs = none := by
  simp [takeBits, h]

theorem length_of_isPadTail {bs : List Bool} (h : isPadTail bs = true) : bs.length ≤ 2 := by
  simp only [isPadTail, Bool.and_eq_true, decide_eq_true_eq] at h
  exact h.1

theorem decodeToken_version (rest : List Bool) :
    decodeToken true (msbBits 5 VERSION ++ rest) = .ok (.streamVersion, rest) := by
  simp [decodeToken, takeBits_msbBits_append]

theorem decodeToken_sym {c : Code} (rest : List Bool) (h : c ≠ ESC) :
    decodeToken false (msbBits 5 c ++ rest) = .ok (.streamSym c, rest) := by
  simp [decodeToken, takeBits_msbBits_append, h]

theorem decodeToken_esc (l : Byte) (rest : List Bool) :
    decodeToken false ((msbBits 5 ESC ++ msbBits 8 l) ++ rest) = .ok (.streamEsc l, rest) := by
  simp [decodeToken, takeBits_msbBits_append]

/-- At most two zero bits after an escape hold no literal (R74). -/
theorem decodeToken_padEsc {rest : List Bool} (h : isPadTail rest = true) :
    decodeToken false (msbBits 5 ESC ++ rest) = .ok (.streamPadEsc, []) := by
  have hnone : takeBits 8 rest = none := takeBits_of_short (Nat.lt_of_le_of_lt (length_of_isPadTail h) (by decide))
  simp [decodeToken, takeBits_msbBits_append, hnone, h]

/-- Settles O2, token by token. -/
theorem tokenReadOffTheStream : Obligations.TokenReadOffTheStream :=
  ⟨decodeToken_version, fun _ rest h => decodeToken_sym rest h, decodeToken_esc, fun _ h => decodeToken_padEsc h⟩

/-! ### Decode after encode -/

/-- A command word built from fields that fit its row's op is read back by that row, which stands at place n of the map. -/
theorem decodeWord_commandWord (n : Nat) {i : Instr} {op : BitVec 5} (sel : Sel) {imm8 : Byte}
    (hrow : ∃ r, commandRows[n]? = some r ∧ opField r.pattern = op ∧ r.build (commandWord op (selBit sel) imm8) = i)
    (hsel : 4 ≤ op.toNat → sel = .wacc) (himm : imm8 &&& zeroImmBits op = 0#8) :
    decodeWord (commandWord op (selBit sel) imm8) = .ok i := by
  obtain ⟨r, hr, hop, hbuild⟩ := hrow
  have hmem := List.mem_of_getElem? hr
  have hfit : FieldsFit (commandWord op (selBit sel) imm8) := by
    simpa [FieldsFit] using And.intro hsel himm
  rw [decodeWord_of_selects hmem ((selects_iff hmem _).mpr ⟨by rw [opField_commandWord, hop], hfit⟩), hbuild]

/-- A command without operands. -/
theorem decodeWord_bareCommand (n : Nat) {i : Instr} {op : BitVec 5}
    (hrow : ∃ r, commandRows[n]? = some r ∧ opField r.pattern = op ∧ r.build (commandWord op 0#1 0#8) = i) :
    decodeWord (commandWord op 0#1 0#8) = .ok i :=
  decodeWord_commandWord n .wacc hrow (fun _ => rfl) BitVec.zero_and

/-- A token with nothing after it is the one instruction its bits stand for. -/
theorem decode_token {atStart : Bool} {bs : List Bool} {i : Instr} (h : decodeToken atStart (bs ++ []) = .ok (i, [])) :
    decode (.token atStart bs) = .ok i := by
  rw [List.append_nil] at h
  simp [decode, h]

/-- Settles O1, by constructor: a command through the row it selects, a token through the token's decoder. -/
theorem encodeThenDecode : Obligations.EncodeThenDecode := by
  intro i hi
  cases i with
  | accPush sel bit =>
    have hzero : BitVec.setWidth 8 (BitVec.ofBool bit) &&& zeroImmBits 1#5 = 0#8 := by cases bit <;> decide
    exact decodeWord_commandWord 0 sel ⟨_, rfl, rfl, by simp⟩ (absurd · (by decide)) hzero
  | accIsFull sel =>
    exact decodeWord_commandWord 1 sel ⟨_, rfl, rfl, by simp⟩ (absurd · (by decide)) BitVec.zero_and
  | accClear sel =>
    exact decodeWord_commandWord 2 sel ⟨_, rfl, rfl, by simp⟩ (absurd · (by decide)) BitVec.zero_and
  | wrWrite5 value => exact decodeWord_commandWord 3 .wacc ⟨_, rfl, rfl, by simp⟩ (fun _ => rfl) BitVec.and_zero
  | wrWrite8 value => exact decodeWord_commandWord 4 .wacc ⟨_, rfl, rfl, by simp⟩ (fun _ => rfl) BitVec.and_zero
  | wrFlush => exact decodeWord_bareCommand 5 ⟨_, rfl, rfl, rfl⟩
  | rdRead5 => exact decodeWord_bareCommand 6 ⟨_, rfl, rfl, rfl⟩
  | rdRead8 => exact decodeWord_bareCommand 7 ⟨_, rfl, rfl, rfl⟩
  | tblEncode byte => exact decodeWord_commandWord 8 .wacc ⟨_, rfl, rfl, by simp⟩ (fun _ => rfl) BitVec.and_zero
  | tblDecode code => exact decodeWord_commandWord 9 .wacc ⟨_, rfl, rfl, by simp⟩ (fun _ => rfl) BitVec.and_zero
  | cBegin => exact decodeWord_bareCommand 10 ⟨_, rfl, rfl, rfl⟩
  | cStep => exact decodeWord_bareCommand 11 ⟨_, rfl, rfl, rfl⟩
  | cPass => exact decodeWord_bareCommand 12 ⟨_, rfl, rfl, rfl⟩
  | dBegin => exact decodeWord_bareCommand 13 ⟨_, rfl, rfl, rfl⟩
  | dStep => exact decodeWord_bareCommand 14 ⟨_, rfl, rfl, rfl⟩
  | dPass => exact decodeWord_bareCommand 15 ⟨_, rfl, rfl, rfl⟩
  | ctlIdle => exact decodeWord_bareCommand 16 ⟨_, rfl, rfl, rfl⟩
  | streamVersion => exact decode_token (decodeToken_version [])
  | streamSym c =>
    have hc : c ≠ ESC := by simpa [wellFormed, ESC] using hi
    exact decode_token (decodeToken_sym [] hc)
  | streamEsc l => exact decode_token (decodeToken_esc l [])
  | streamPadEsc => exact decode_token (decodeToken_padEsc rfl)

/-- Settles O5: the words and bit strings are closed, and the decoder is run on each. -/
theorem wordsOfTheSpecDecode : Obligations.WordsOfTheSpecDecode := by
  unfold Obligations.WordsOfTheSpecDecode
  decide

end Sys2Proof

namespace Sys2Proof.Machine

/-! ### The run of an illegal word (R85) -/

/-- What an illegal word does in every phase (R85, 60_exceptions.md R242). -/
theorem runWord_illegal {w : CmdWord} {e : Illegal} (s : State) (h : decodeWord w = .error e) :
    runWord w s = .next (if s.phase = .error then { s with resp := ⟨.error, s.err.code.setWidth 8⟩ }
      else { s with err := ⟨6#3, 0#1, 0#8⟩, phase := .error, resp := ⟨.error, 6#8⟩ }) := by
  rw [runWord_error s h]
  split
  next hp => rw [rejectCommand_error 0#8 hp]; rfl
  next hp => rw [rejectCommand_raises 0#8 hp]; rfl

/-- Settles O4, from the fields of a word that selects a row and from the rejection of the others. -/
theorem illegalWords : Obligations.IllegalWords :=
  ⟨illegal_iff, fun _ h => decodeWord_wrWrite5 h, fun _ _ s h => runWord_illegal s h⟩

/-! ### The length of a compressed stream (R77) -/

theorem length_tokenBits_tokenOfByte (p : Params) (b : Byte) :
    (tokenBits (tokenOfByte p b)).length = 5 + if encodeByte p b = ESC then 8 else 0 := by
  unfold tokenOfByte
  split <;> simp [tokenBits, encode]

theorem length_dataBits (p : Params) (xs : List Byte) :
    (dataBits p xs).length = 5 + 5 * xs.length + 8 * escapedCount p xs := by
  induction xs with
  | nil => rfl
  | cons b xs ih =>
    simp only [dataBits, escapedCount, List.flatMap_cons, List.length_append, List.length_cons, List.countP_cons,
      length_tokenBits_tokenOfByte, beq_iff_eq] at ih ⊢
    split <;> omega

/-- The terminal part fills the last byte: the padding escape is written only where it fits (R75). -/
theorem length_terminalBits {k : Nat} (h : k < 8) : (terminalBits k).length = (8 - k) % 8 := by
  unfold terminalBits
  split
  next h0 => simp [h0]
  next h0 =>
    split
    next hpad =>
      have hk : 1 ≤ k ∧ k ≤ 3 := by simpa [inPadEscSet] using hpad
      simp only [List.length_append, length_msbBits, List.length_replicate]
      omega
    next =>
      rw [List.length_replicate]
      omega

theorem length_compressed (p : Params) (xs : List Byte) :
    (compressed p xs).length = ((dataBits p xs).length + 7) / 8 := by
  rw [compressed, length_wholeBytes, List.length_append, length_terminalBits (Nat.mod_lt _ (by decide))]
  omega

/-- Settles O7, from the length of each token and of the terminal part. -/
theorem compressedLength : Obligations.CompressedLength := fun p xs =>
  ⟨length_dataBits p xs, length_dataBits p xs ▸ length_compressed p xs, fun _ _ _ hk => Nat.add_le_add_right hk 5⟩

end Sys2Proof.Machine
end

section
/-! PROOFS. ACC.PUSH on either accumulator (40_accumulator.md R100 to R102), and what each token of the stream does once
it is read (30_encoding.md R71 to R74, log 7). -/

namespace Sys2Proof.Machine

/-! ### ACC.PUSH -/

/-- The fields of an accumulator after `Push`, written out (R101). -/
theorem eq_pushBit {a b : BitAcc} {bit : Bool} (h : a.count.val < 8)
    (hbits : b.bits = a.bits <<< 1 ||| (if bit then 1#8 else 0#8)) (hcount : b.count.val = a.count.val + 1) :
    b = pushBit a bit := by
  obtain ⟨bits, count⟩ := b
  have hbit : (if bit then 1#8 else 0#8) = BitVec.setWidth 8 (BitVec.ofBool bit) := by cases bit <;> rfl
  have hc : count = (pushBit a bit).count := Fin.ext (hcount.trans (count_pushBit bit h).symm)
  rw [hc, show bits = (pushBit a bit).bits from hbits.trans (by rw [hbit]; rfl)]

/-- ACC.PUSH in PHASE = IDLE below a full count (R102). -/
theorem exec_accPush {s : State} (sel : Sel) (bit : Bool) (hp : s.phase = .idle) (hc : (readAcc sel s).count.val < 8) :
    exec (.accPush sel bit) s = .next ((writeAcc sel (pushBit (readAcc sel s) bit) s).setResp
      ⟨.ok, BitVec.ofNat 8 ((readAcc sel s).count.val + 1)⟩) := by
  rw [exec_raw_idle rfl hp, bodyOf, pushCommand, ite_fullFlag, if_neg hc.ne, countByte, count_pushBit bit hc]
  rfl

/-- ACC.PUSH in PHASE = IDLE on a full accumulator (R102). -/
theorem exec_accPush_full {s : State} (sel : Sel) (bit : Bool) (hp : s.phase = .idle)
    (hc : (readAcc sel s).count.val = 8) :
    exec (.accPush sel bit) s = .next (takeError (illegalCommand 2#8) s) := by
  rw [exec_raw_idle rfl hp, bodyOf, pushCommand, ite_fullFlag, if_pos hc]
  rfl

/-- Settles O32, by the accumulator that sel picks and by whether it is full. -/
theorem accPushRuns : Obligations.AccPushRuns := by
  refine fun s bit hp => ⟨fun a hc hbits hcount => ?_, fun a hc hbits hcount => ?_,
    exec_accPush_full .wacc bit hp, exec_accPush_full .racc bit hp⟩
  · rw [eq_pushBit hc hbits hcount]
    exact exec_accPush .wacc bit hp hc
  · rw [eq_pushBit hc hbits hcount]
    exact exec_accPush .racc bit hp hc

/-! ### The tokens of the stream -/

/-- The version token (44_pipeline.md R200). -/
theorem exec_streamVersion (s : State) :
    exec .streamVersion s = .next ((s.setPhase .decompress).setResp ⟨.ok, 1#8⟩) := by
  rw [exec_token rfl, bodyOf, acceptVersion, if_neg (not_not.mpr rfl)]
  rfl

/-- A symbol token whose byte the sink accepts (R201). -/
theorem exec_streamSym {s : State} {c : Code} {d : Byte} (hd : s.params.alphabet.toList[c.toNat]? = some d)
    (hw : HostWaits s) (hs : SinkAccepts s) :
    exec (.streamSym c) s = .next ((s.setHost (afterPushes [d] s.host)).setResp ⟨.ok, d⟩) := by
  have hcode : decodeCode s.params (c.setWidth 8) = some d := by
    rw [decodeCode_eq, BitVec.toNat_setWidth_of_le (by decide), hd]
  rw [exec_token rfl, bodyOf, emitSymbol_some hcode, pushByte_accepted d hw hs]
  rfl

/-- An escape token whose literal the sink accepts (R202). -/
theorem exec_streamEsc {s : State} (l : Byte) (hw : HostWaits s) (hs : SinkAccepts s) :
    exec (.streamEsc l) s = .next ((s.setHost (afterPushes [l] s.host)).setResp ⟨.ok, l⟩) := by
  rw [exec_token rfl, bodyOf, emitLiteral, pushByte_accepted l hw hs]
  rfl

/-- The condition of R203. -/
theorem acceptsPadEscape_iff (s : State) : acceptsPadEscape s = true ↔
    s.params.terminalEscape = .acceptPad ∧ s.racc.count.val ≤ 2 ∧ s.racc.bits = 0#8 := by
  simp [acceptsPadEscape, and_assoc]

/-- A padding escape that ends the pass (R203). -/
theorem exec_streamPadEsc_accepted {s : State} (h : acceptsPadEscape s = true) :
    exec .streamPadEsc s = .next (endDecompress s) := by
  rw [exec_token rfl, bodyOf, terminalEscape, if_pos h]
  rfl

/-- A padding escape that is an error (R203). -/
theorem exec_streamPadEsc_refused {s : State} (h : ¬ acceptsPadEscape s = true) :
    exec .streamPadEsc s = .next (takeError (unexpectedEndOfStream 1#8) s) := by
  rw [exec_token rfl, bodyOf, terminalEscape, if_neg h]
  rfl

/-- Settles O56, token by token, the padding escape by the condition of R203. -/
theorem tokensRun : Obligations.TokensRun := by
  refine fun s => ⟨exec_streamVersion s, fun _ _ _ hd hw hs => exec_streamSym hd hw hs,
    fun l hw hs => exec_streamEsc l hw hs, fun hmode hcount hbits => ?_, fun h => ?_⟩
  · exact exec_streamPadEsc_accepted ((acceptsPadEscape_iff s).mpr ⟨hmode, hcount, hbits⟩)
  · refine exec_streamPadEsc_refused fun haccepts => ?_
    obtain ⟨hmode, hcount, hbits⟩ := (acceptsPadEscape_iff s).mp haccepts
    rcases h with hstrict | hfull | hset
    · cases hmode.symm.trans hstrict
    · omega
    · exact hset hbits

end Sys2Proof.Machine
end

section
/-! PROOFS. What pushes into an empty accumulator spell: the number, and where each of its bits stands
(40_accumulator.md R105). -/

namespace Sys2Proof

/-- The value of a bit string has its bits, most significant first: bit k of m at position m - 1 - k. -/
theorem getLsbD_ofMsbBits {n k : Nat} {bs : List Bool} (hn : bs.length ≤ n) (hk : k < bs.length) :
    (ofMsbBits n bs).getLsbD (bs.length - 1 - k) = bs.getD k false := by
  have hbit := getElem?_msbBits (ofMsbBits n bs) hk
  rw [msbBits_ofMsbBits hn] at hbit
  rw [List.getD_eq_getElem?_getD, hbit, Option.getD_some]

end Sys2Proof

namespace Sys2Proof.Machine

/-- At most 8 pushes into an empty accumulator leave the accumulator of the bits pushed. -/
theorem foldl_pushBit_empty {bs : List Bool} (h : bs.length ≤ 8) : bs.foldl pushBit BitAcc.empty = accOf bs :=
  foldl_pushBit bs accOk_empty ((Nat.zero_add bs.length).le.trans h)

/-- The register of the accumulator of at most 8 bits, as a number. -/
theorem toNat_bits_accOf {bs : List Bool} (h : bs.length ≤ 8) : (accOf bs).bits.toNat = natOfBits bs :=
  toNat_ofMsbBits h

/-- The first of at most 8 bits stands highest in the register, and the last at position 0. -/
theorem getLsbD_bits_accOf {bs : List Bool} {k : Nat} (h : bs.length ≤ 8) (hk : k < bs.length) :
    (accOf bs).bits.getLsbD (bs.length - 1 - k) = bs.getD k false :=
  getLsbD_ofMsbBits h hk

/-- Settles O31: the pushes leave the accumulator of the bits pushed, whose count, number and bits are then read off. -/
theorem pushesSpellANumber : Obligations.PushesSpellANumber := by
  intro bs h
  rw [foldl_pushBit_empty h]
  exact ⟨accOf_count h, toNat_bits_accOf h, fun _ hk => getLsbD_bits_accOf h hk⟩

end Sys2Proof.Machine
end

section
/-! PROOFS. The writer, whatever the sink answers: `WriteBits` and `FlushW` in terms of the bit string of the pending
bits and the new ones, and the WR.* commands (41_writer.md R120 to R127). -/

namespace Sys2Proof.Machine

/-! ### Bit strings of one and two bytes -/

theorem wholeBytes_of_byte {bs : List Bool} (h : 8 ≤ bs.length) :
    wholeBytes bs = ofMsbBits 8 (bs.take 8) :: wholeBytes (bs.drop 8) := by
  have := wholeBytes_byte_append (x := bs.take 8) (bs.drop 8) (by simp [h])
  rwa [List.take_append_drop] at this

theorem leftover_of_byte {bs : List Bool} (h : 8 ≤ bs.length) : leftover bs = leftover (bs.drop 8) := by
  have := leftover_byte_append (x := bs.take 8) (bs.drop 8) (by simp [h])
  rwa [List.take_append_drop] at this

/-- A full register is the byte its 8 valid bits spell. -/
theorem bits_eq_of_full {a : BitAcc} (h : a.count.val = 8) : a.bits = ofMsbBits 8 (validBits a) := by
  rw [validBits, h, ofMsbBits_msbBits]

theorem drainIfFull_of_not_full {s : State} (h : s.wacc.count.val < 8) : drainIfFull s = done s := by
  rw [drainIfFull, ite_fullFlag, if_neg h.ne]

theorem drainIfFull_of_full {s : State} (h : s.wacc.count.val = 8) :
    drainIfFull s = andThen (pushByte s.wacc.bits s) fun _ t => done (t.setWacc BitAcc.empty) := by
  rw [drainIfFull, ite_fullFlag, if_pos h]
  rfl

/-! ### `WriteBits` is the loop over the pending bits and the new ones -/

/-- Writing a bit string in two parts. -/
theorem writeLoop_append (xs ys : List Bool) (s : State) :
    writeLoop (xs ++ ys) s = andThen (writeLoop xs s) fun _ t => writeLoop ys t := by
  induction xs generalizing s with
  | nil => rfl
  | cons x xs ih =>
    rw [List.cons_append, writeLoop, writeLoop, andThen_assoc]
    congr 1
    funext _ t
    exact ih t

/-- Up to the first full byte the loop only appends: the one drain it may do is its last act (R121). -/
theorem writeLoop_within_byte (bs : List Bool) {s : State} (ha : accOk s.wacc) (hc : s.wacc.count.val < 8)
    (hl : s.wacc.count.val + bs.length ≤ 8) :
    writeLoop bs s = drainIfFull (s.setWacc (accOf (validBits s.wacc ++ bs))) := by
  induction bs generalizing s with
  | nil =>
    rw [List.append_nil, accOf_validBits ha]
    exact (drainIfFull_of_not_full hc).symm
  | cons b bs ih =>
    rw [writeLoop]
    cases bs with
    | nil =>
      rw [← pushBit_eq_accOf b hc ha]
      cases drainIfFull (s.setWacc (pushBit s.wacc b)) <;> rfl
    | cons b' bs =>
      have hpush := count_pushBit (a := s.wacc) b hc
      simp only [List.length_cons] at hl
      have hroom : (s.setWacc (pushBit s.wacc b)).wacc.count.val < 8 := by rw [setWacc_wacc]; omega
      have hlen : (s.setWacc (pushBit s.wacc b)).wacc.count.val + (b' :: bs).length ≤ 8 := by
        rw [setWacc_wacc, List.length_cons]; omega
      rw [drainIfFull_of_not_full hroom, andThen_done, ih (accOk_pushBit b hc ha) hroom hlen, setWacc_wacc,
        validBits_pushBit b hc, List.append_assoc]
      rfl

/-- At most 8 bits written into an empty WACC (R121). -/
theorem writeLoop_empty {bs : List Bool} (s : State) (h : bs.length ≤ 8) :
    writeLoop bs (s.setWacc BitAcc.empty) = drainIfFull (s.setWacc (accOf bs)) :=
  writeLoop_within_byte bs (s := s.setWacc BitAcc.empty) accOk_empty (Nat.zero_lt_succ 7) ((Nat.zero_add _).le.trans h)

/-- `WriteBits` does what writing the pending bits and then the new ones into an empty WACC does (R121, R124). -/
theorem writeBits_eq_writeLoop {w : Nat} (v : BitVec w) {s : State} (ha : accOk s.wacc) :
    writeBits w v s = writeLoop (validBits s.wacc ++ msbBits w v) (s.setWacc BitAcc.empty) := by
  have hpending : writeLoop (validBits s.wacc) (s.setWacc BitAcc.empty) = drainIfFull s := by
    rw [writeLoop_empty s (by rw [length_validBits]; omega), accOf_validBits ha]
    rfl
  rw [writeLoop_append, hpending, writeBits]

/-- The first 8 bits of a longer string are one push; the rest is written into an empty WACC (R120, R121). -/
theorem writeLoop_of_byte {bs : List Bool} (s : State) (h : 8 ≤ bs.length) :
    writeLoop bs (s.setWacc BitAcc.empty) =
      andThen (pushByte (ofMsbBits 8 (bs.take 8)) (s.setWacc (accOf (bs.take 8)))) fun _ t =>
        writeLoop (bs.drop 8) (t.setWacc BitAcc.empty) := by
  have htake : (bs.take 8).length = 8 := by simp [h]
  have hcount : (s.setWacc (accOf (bs.take 8))).wacc.count.val = 8 := by
    rw [setWacc_wacc, accOf_count htake.le, htake]
  conv_lhs => rw [← List.take_append_drop 8 bs]
  rw [writeLoop_append, writeLoop_empty s htake.le, drainIfFull_of_full hcount, andThen_assoc, bits_eq_of_full hcount,
    setWacc_wacc, validBits_accOf htake.le]
  rfl

/-- Where the sink refuses the first push, WACC is left full with the refused byte (R120). -/
theorem writeLoop_refused {bs : List Bool} {s : State} {rest : Answers SnkReply} (hl : 8 ≤ bs.length)
    (hw : HostWaits s) (hn : NextPushFails s rest) :
    writeLoop bs (s.setWacc BitAcc.empty) = .raised ioSink ((s.setWacc (accOf (bs.take 8))).setHost
      (afterRefusal (ofMsbBits 8 (bs.take 8)) rest s.host)) := by
  rw [writeLoop_of_byte s hl, pushByte_refused (s := s.setWacc (accOf (bs.take 8))) hw hn]
  rfl

theorem afterRefusal_afterPush (b c : Byte) (more rest : Answers SnkReply) (h : HostSide) :
    afterRefusal c rest (afterPush b true more h) = afterSecondRefusal b c rest h := by
  simp [afterRefusal, afterPush, afterSecondRefusal]

/-- Where the sink accepts the first push and refuses the second, WACC is left full with the second byte (R120). -/
theorem writeLoop_secondRefused {bs : List Bool} {s : State} {rest : Answers SnkReply} (hl : 16 ≤ bs.length)
    (hw : HostWaits s) (hn : SecondPushFails s rest) :
    writeLoop bs (s.setWacc BitAcc.empty) = .raised ioSink ((s.setWacc (accOf ((bs.drop 8).take 8))).setHost
      (afterSecondRefusal (ofMsbBits 8 (bs.take 8)) (ofMsbBits 8 ((bs.drop 8).take 8)) rest s.host)) := by
  obtain ⟨r, more, q, hr, hrf, hq, hqf⟩ := hn
  have hsecond := writeLoop_refused (bs := bs.drop 8) (rest := rest)
    (s := s.setHost (afterPush (ofMsbBits 8 (bs.take 8)) true more s.host)) (by rw [List.length_drop]; omega) hw ⟨q, hq, hqf⟩
  rw [setHost_host, afterRefusal_afterPush] at hsecond
  rw [writeLoop_of_byte s (by omega), pushByte_answered (s := s.setWacc (accOf (bs.take 8))) hw hr hrf, andThen_done]
  exact hsecond

/-! ### `FlushW` is one push -/

/-- The terminal part after 1 to 8 pending bits: the padding escape where it fits, then zeros (R122). -/
theorem terminalBits_eq {k : Nat} (h1 : 1 ≤ k) (h8 : k ≤ 8) :
    terminalBits (k % 8) = (if k ≤ 3 then msbBits 5 ESC else []) ++
      List.replicate (8 - (k + if k ≤ 3 then 5 else 0)) false := by
  have hesc : inPadEscSet k = decide (k ≤ 3) := by simp [inPadEscSet, h1]
  by_cases h3 : k ≤ 3
  · rw [Nat.mod_eq_of_lt (by omega), terminalBits, if_neg (by omega), hesc]
    simp only [h3, decide_true, if_true]
    congr 2
    omega
  · rw [if_neg h3, if_neg h3, List.nil_append]
    rcases h8.lt_or_eq with h | rfl
    · rw [Nat.mod_eq_of_lt h, terminalBits, if_neg (by omega), hesc]
      simp [h3]
    · rfl

/-- What WACC holds when FlushW pushes: the pending bits, and the padding escape after 1 to 3 of them (R122). -/
def paddedBits (a : BitAcc) : List Bool := validBits a ++ if a.count.val ≤ 3 then msbBits 5 ESC else []

theorem length_paddedBits (a : BitAcc) : (paddedBits a).length = a.count.val + if a.count.val ≤ 3 then 5 else 0 := by
  unfold paddedBits
  split <;> simp

theorem length_paddedBits_le (a : BitAcc) : (paddedBits a).length ≤ 8 := by
  rw [length_paddedBits]
  split <;> omega

/-- The byte FlushW pushes (R122, R123). -/
theorem flushByte_paddedBits {a : BitAcc} (h : 1 ≤ a.count.val) :
    flushByte (accOf (paddedBits a)) = ofMsbBits 8 (validBits a ++ terminalBits (a.count.val % 8)) := by
  have hl := length_paddedBits_le a
  rw [flushByte_eq (accOk_accOf hl), validBits_accOf hl, accOf_count hl, length_paddedBits,
    terminalBits_eq h (by omega), ← List.append_assoc]
  rfl

/-- The end of FlushW, after the padding escape or none: its own push, and WACC emptied (R122). -/
def flushPending (s : State) : Run Unit :=
  andThen (if 0 < s.wacc.count.val then pushByte (flushByte s.wacc) s else done s) fun _ t =>
    done (t.setWacc BitAcc.empty)

theorem flushW_of_escape {s : State} (h1 : 1 ≤ s.wacc.count.val) (h3 : s.wacc.count.val ≤ 3) :
    flushW s = andThen (writeBits 5 ESC s) fun _ t => flushPending t := by
  have hesc : inPadEscSet s.wacc.count.val = true := by simp [inPadEscSet, h1, h3]
  rw [flushW, if_neg (by omega), if_pos hesc]
  rfl

theorem flushW_of_plain {s : State} (h4 : 4 ≤ s.wacc.count.val) : flushW s = flushPending s := by
  have hesc : ¬ inPadEscSet s.wacc.count.val = true := by simp [inPadEscSet]; omega
  rw [flushW, if_neg (by omega), if_neg hesc]
  rfl

theorem flushPending_pending {s : State} (h : 0 < s.wacc.count.val) :
    flushPending s = andThen (pushByte (flushByte s.wacc) s) fun _ t => done (t.setWacc BitAcc.empty) := by
  rw [flushPending, if_pos h]

/-- A drain that comes before the end of FlushW makes its push in its stead. -/
theorem flushPending_after_drain {s : State} (h : 0 < s.wacc.count.val) :
    (andThen (drainIfFull s) fun _ t => flushPending t) = flushPending s := by
  by_cases hf : s.wacc.count.val = 8
  · have hbyte : flushByte s.wacc = s.wacc.bits := by simp [flushByte, hf]
    rw [drainIfFull_of_full hf, andThen_assoc, flushPending_pending h, hbyte]
    rfl
  · rw [drainIfFull_of_not_full (by omega), andThen_done]

/-- FlushW with 1 to 8 bits pending, whatever the sink answers: one push, and WACC empty after it (R122, R123). -/
theorem flushW_eq_push {s : State} (ha : accOk s.wacc) (h1 : 1 ≤ s.wacc.count.val) :
    flushW s = andThen
      (pushByte (ofMsbBits 8 (validBits s.wacc ++ terminalBits (s.wacc.count.val % 8)))
        (s.setWacc (accOf (paddedBits s.wacc))))
      fun _ t => done (t.setWacc BitAcc.empty) := by
  have hl := length_paddedBits_le s.wacc
  have hpos : 0 < (s.setWacc (accOf (paddedBits s.wacc))).wacc.count.val := by
    rw [setWacc_wacc, accOf_count hl, length_paddedBits]
    omega
  rw [← flushByte_paddedBits h1]
  refine Eq.trans ?_ (flushPending_pending hpos)
  by_cases h3 : s.wacc.count.val ≤ 3
  · have hpad : validBits s.wacc ++ msbBits 5 ESC = paddedBits s.wacc := by rw [paddedBits, if_pos h3]
    rw [flushW_of_escape h1 h3, writeBits_eq_writeLoop ESC ha, hpad, writeLoop_empty s hl, flushPending_after_drain hpos]
  · have hpad : accOf (paddedBits s.wacc) = s.wacc := by rw [paddedBits, if_neg h3, List.append_nil, accOf_validBits ha]
    rw [flushW_of_plain (by omega), hpad]
    rfl

/-- Where the sink refuses FlushW's push, WACC keeps its bits, with the padding escape after 1 to 3 of them (R122). -/
theorem flushW_refused {s : State} {rest : Answers SnkReply} (ha : accOk s.wacc) (h1 : 1 ≤ s.wacc.count.val)
    (hw : HostWaits s) (hn : NextPushFails s rest) :
    flushW s = .raised ioSink ((s.setWacc (accOf (paddedBits s.wacc))).setHost
      (afterRefusal (ofMsbBits 8 (validBits s.wacc ++ terminalBits (s.wacc.count.val % 8))) rest s.host)) := by
  rw [flushW_eq_push ha h1, pushByte_refused (s := s.setWacc (accOf (paddedBits s.wacc))) hw hn]
  rfl

/-- What FlushW emits: nothing for no bits, and else one byte (R123). -/
theorem flushedBytes_eq {p : List Bool} (h1 : 1 ≤ p.length) (h8 : p.length ≤ 8) :
    flushedBytes p = [ofMsbBits 8 (p ++ terminalBits (p.length % 8))] := by
  have hl : (p ++ terminalBits (p.length % 8)).length = 8 := by
    rw [List.length_append, length_terminalBits (Nat.mod_lt _ (by decide))]
    omega
  rw [flushedBytes, wholeBytes_of_byte hl.ge, List.take_of_length_le hl.le, List.drop_of_length_le hl.le]
  rfl

/-! ### The WR.* commands (R125 to R127) -/

/-- WR.WRITE5 and WR.WRITE8 with a sink that accepts, up to the response. -/
theorem settle_write_accepted {w : Nat} (v : BitVec w) {s : State} (ha : accOk s.wacc) (hw : HostWaits s)
    (hs : SinkAccepts s) :
    settle (andThen (writeBits w v s) fun _ t => writerResponse t) =
      .next ((written (msbBits w v) s).setResp ⟨.ok, BitVec.ofNat 8 ((s.wacc.count.val + w) % 8)⟩) := by
  rw [writeBits_accepted v ha hw hs, andThen_done, writerResponse, countByte, count_written, length_msbBits]
  rfl

/-- Settles O34: the bits written, and the count left as the response. -/
theorem writeCommandsAppendTheirBits : Obligations.WriteCommandsAppendTheirBits := by
  intro s hp ha hw hs
  refine ⟨fun v => ?_, fun v => ?_⟩
  · rw [exec_raw_idle rfl hp]
    exact settle_write_accepted v ha hw hs
  · rw [exec_raw_idle rfl hp, ← Nat.add_mod_right]
    exact settle_write_accepted v ha hw hs

theorem acceptedBytes_afterPushes (bytes : List Byte) (s : State) :
    acceptedBytes (afterPushes bytes s.host).trace = sinkBytes s ++ bytes := by
  simp only [afterPushes, acceptedBytes_append, sinkBytes]
  congr 1
  simp [acceptedBytes, List.filterMap_map]

theorem sinkBytes_written (bs : List Bool) (s : State) :
    sinkBytes (written bs s) = sinkBytes s ++ wholeBytes (validBits s.wacc ++ bs) :=
  acceptedBytes_afterPushes _ s

/-- Settles O35: the pending bits and the new ones, fewer than 16 from a count below 8, cut into whole bytes and the
rest. -/
theorem writerArithmetic : Obligations.WriterArithmetic := by
  intro s w v hwidth ha hw hs
  have hcount : (written (msbBits w v) s).wacc.count.val = (s.wacc.count.val + w) % 8 := by
    rw [count_written, length_msbBits]
  have hlen : (validBits s.wacc ++ msbBits w v).length = s.wacc.count.val + w := by simp
  have hdrains : (sinkBytes (written (msbBits w v) s)).length = (sinkBytes s).length + (s.wacc.count.val + w) / 8 := by
    rw [sinkBytes_written, List.length_append, length_wholeBytes, hlen]
  refine ⟨written (msbBits w v) s, writeBits_accepted v ha hw hs, by omega, accOk_written _ _,
    fun hc => ⟨hdrains, by omega, hcount, fun hfull => ?_, fun hshort => ?_⟩, fun hc => ⟨by omega, by omega⟩,
    flushed (written (msbBits w v) s),
    flushW_accepted (accOk_written _ _) (waits_written hw) (sinkAccepts_written hs), rfl⟩
  · have hrest : ((validBits s.wacc ++ msbBits w v).drop 8).length < 8 := by rw [List.length_drop]; omega
    rw [sinkBytes_written, wholeBytes_of_byte (by omega), wholeBytes_short hrest, validBits_written,
      leftover_of_byte (by omega), leftover_short hrest]
    exact ⟨rfl, rfl⟩
  · rw [validBits_written, leftover_short (by omega)]

/-- WR.FLUSH with a sink that accepts (R127). -/
theorem exec_wrFlush {s : State} (hp : s.phase = .idle) (ha : accOk s.wacc) (hw : HostWaits s) (hs : SinkAccepts s) :
    exec .wrFlush s = .next ((flushed s).setResp ⟨.ok, 0#8⟩) := by
  simp only [exec_raw_idle (i := .wrFlush) rfl hp, bodyOf, flushW_accepted ha hw hs]
  rfl

/-- The table of R123: what FlushW emits, by the number of pending bits. -/
theorem flushedBytes_table {p : List Bool} (h8 : p.length ≤ 8) :
    flushedBytes p =
      if p.length = 0 then []
      else if p.length ≤ 3 then
        [ofMsbBits 8 (p ++ [true, true, true, true, true] ++ List.replicate (3 - p.length) false)]
      else [ofMsbBits 8 (p ++ List.replicate (8 - p.length) false)] := by
  split
  next h0 => rw [List.eq_nil_of_length_eq_zero h0]; rfl
  next h0 =>
    rw [flushedBytes_eq (by omega) h8, terminalBits_eq (by omega) h8]
    split
    next h3 => rw [List.append_assoc, show 8 - (p.length + 5) = 3 - p.length by omega]; rfl
    next h3 => rfl

/-- Settles O37: the effect of WR.FLUSH, and its bytes by the table. -/
theorem flushTable : Obligations.FlushTable := by
  rintro s k p hp ha hw hs rfl rfl
  refine ⟨_, exec_wrFlush hp ha hw hs, ?_, rfl⟩
  have htable := flushedBytes_table (p := validBits s.wacc) (by rw [length_validBits]; omega)
  rw [length_validBits] at htable
  rw [← htable]
  exact acceptedBytes_afterPushes _ s

/-- A refused push ends a writer command: the lines after it, the response among them, do not run (60_exceptions.md
R233). -/
theorem settle_refused {r : Run Unit} {t : State} {k : Unit → State → Run Unit} (h : r = .raised ioSink t) :
    settle (andThen r k) = .next (takeError ioSink t) := by
  rw [h]
  rfl

/-- Settles O36: the writes as loops over the pending bits and the new ones, and FlushW as its one push. -/
theorem refusedDrainRaisesIo : Obligations.RefusedDrainRaisesIo := by
  intro s rest hp ha hw
  refine ⟨fun hn => ⟨fun v hfull => ?_, fun v => ?_, fun h1 => ?_⟩, fun hn hc v => ?_⟩
  · rw [exec_raw_idle rfl hp]
    exact settle_refused ((writeBits_eq_writeLoop v ha).trans (writeLoop_refused (by simpa using hfull) hw hn))
  · rw [exec_raw_idle rfl hp]
    exact settle_refused ((writeBits_eq_writeLoop v ha).trans (writeLoop_refused (by simp) hw hn))
  · rw [exec_raw_idle rfl hp]
    exact settle_refused (flushW_refused ha h1 hw hn)
  · have hl : (validBits s.wacc).length = 8 := by rw [length_validBits, hc]
    have hrun := (writeBits_eq_writeLoop v ha).trans (writeLoop_secondRefused (by simp [hc]) hw hn)
    have hfull : accOf (msbBits 8 v) = ⟨v, 8⟩ := by simp [accOf, ofMsbBits_msbBits]
    rw [List.take_left' hl, List.drop_left' hl, List.take_of_length_le (by simp), ← bits_eq_of_full hc,
      ofMsbBits_msbBits, hfull] at hrun
    rw [exec_raw_idle rfl hp]
    exact settle_refused hrun

end Sys2Proof.Machine
end

section
/-! PROOFS. C.STEP as one write of the byte's token or one flush, and what it leaves where the sink refuses a push
(44_pipeline.md R191, R209). -/

namespace Sys2Proof.Machine

/-! ### Two writes in a row are one (41_writer.md R121) -/

theorem count_lt_of_drainIfFull {s t : State} {u : Unit} (h : drainIfFull s = .ok u t) : t.wacc.count.val < 8 := by
  by_cases hf : s.wacc.count.val = 8
  · rw [drainIfFull_of_full hf, andThen_eq_ok] at h
    obtain ⟨_, _, -, hdone⟩ := h
    cases hdone
    exact Nat.zero_lt_succ 7
  · have hroom : s.wacc.count.val < 8 := by omega
    rw [drainIfFull_of_not_full hroom] at h
    cases h
    exact hroom

theorem count_lt_of_writeLoop {bs : List Bool} {s t : State} {u : Unit} (hc : s.wacc.count.val < 8)
    (h : writeLoop bs s = .ok u t) : t.wacc.count.val < 8 := by
  induction bs generalizing s with
  | nil =>
    cases h
    exact hc
  | cons b bs ih =>
    rw [writeLoop, andThen_eq_ok] at h
    obtain ⟨_, _, hround, hrest⟩ := h
    exact ih (count_lt_of_drainIfFull hround) hrest

/-- A second write starts with room in WACC, so it is the loop alone (41_writer.md R121). -/
theorem writeBits_after_writeBits {w u : Nat} (v : BitVec w) (x : BitVec u) {s : State} (ha : accOk s.wacc) :
    (andThen (writeBits w v s) fun _ t => writeBits u x t) =
      writeLoop (validBits s.wacc ++ (msbBits w v ++ msbBits u x)) (s.setWacc BitAcc.empty) := by
  rw [writeBits_eq_writeLoop v ha, ← List.append_assoc, writeLoop_append _ (msbBits u x)]
  cases hrun : writeLoop (validBits s.wacc ++ msbBits w v) (s.setWacc BitAcc.empty) with
  | ok a t => rw [andThen_ok, andThen_ok, writeBits, drainIfFull_of_not_full
      (count_lt_of_writeLoop (Nat.zero_lt_succ 7) hrun), andThen_done]
  | raised e t => rfl
  | cut t => rfl
  | stuck f => rfl

/-! ### C.STEP -/

/-- C.STEP on an ASCII byte writes the bits of the byte's token (R191, 30_encoding.md R79). -/
theorem compressByte_eq {b : Byte} {s : State} (hb : b.toNat < 0x80) (ha : accOk s.wacc) :
    compressByte b s = andThen
      (writeLoop (validBits s.wacc ++ tokenBits (tokenOfByte s.params b)) (s.setWacc BitAcc.empty))
      fun _ t => done (t.setResp ⟨.ok, (encodeByte s.params b).setWidth 8⟩) := by
  rw [compressByte, if_neg (by omega), ← andThen_assoc]
  congr 1
  by_cases hesc : encodeByte s.params b = ESC
  · have htoken : tokenBits (tokenOfByte s.params b) = msbBits 5 (encodeByte s.params b) ++ msbBits 8 b := by
      rw [tokenOfByte, if_pos hesc, hesc]; rfl
    simp only [if_pos hesc]
    rw [htoken, writeBits_after_writeBits _ b ha]
  · have htoken : tokenBits (tokenOfByte s.params b) = msbBits 5 (encodeByte s.params b) := by
      rw [tokenOfByte, if_neg hesc]; rfl
    simp only [if_neg hesc]
    rw [htoken, ← writeBits_eq_writeLoop _ ha]
    cases writeBits 5 (encodeByte s.params b) s <;> rfl

/-- C.STEP in PHASE = COMPRESS on an ASCII byte (R191). -/
theorem exec_cStep_byte {s : State} {b : Byte} {rest : Answers SrcReply} (hp : s.phase = .compress) (hw : HostWaits s)
    (ha : accOk s.wacc) (hn : NextPull s (.byte b) rest) (hb : b.toNat < 0x80) :
    exec .cStep s = settle (andThen
      (writeLoop (validBits s.wacc ++ tokenBits (tokenOfByte s.params b))
        ((s.setHost (afterPull (.byte b) rest s.host)).setWacc BitAcc.empty))
      fun _ t => done (t.setResp ⟨.ok, (encodeByte s.params b).setWidth 8⟩)) := by
  rw [exec_command rfl, guarded_legal _ (by rw [hp]; rfl), bodyOf, compressStep, srcPull_answered hw hn]
  exact congrArg settle (compressByte_eq (s := s.setHost _) hb ha)

/-- C.STEP in PHASE = COMPRESS at the end of the input (R191). -/
theorem exec_cStep_end {s : State} {rest : Answers SrcReply} (hp : s.phase = .compress) (hw : HostWaits s)
    (hn : NextPull s .endOfStream rest) :
    exec .cStep s = settle (compressEnd (s.setHost (afterPull .endOfStream rest s.host))) := by
  rw [exec_command rfl, guarded_legal _ (by rw [hp]; rfl), bodyOf, compressStep, srcPull_answered hw hn]
  rfl

/-- Settles O45: the token's write and the flush, from the state after the pull. -/
theorem cStepRefusedPush : Obligations.CStepRefusedPush := by
  intro s rest more hp hw ha
  have hlen (b : Byte) : (validBits s.wacc ++ tokenBits (tokenOfByte s.params b)).length =
      s.wacc.count.val + (tokenBits (tokenOfByte s.params b)).length := by simp
  refine ⟨fun b hfail hpull hb hl => ?_, fun hfail hpull h1 => ?_, fun b hfail hpull hb hl => ?_⟩
  · rw [exec_cStep_byte hp hw ha hpull hb]
    exact settle_refused (writeLoop_refused (s := s.setHost (afterPull (.byte b) rest s.host))
      (hl.trans (hlen b).ge) hw hfail)
  · rw [exec_cStep_end hp hw hpull]
    exact settle_refused (flushW_refused (s := s.setHost (afterPull .endOfStream rest s.host)) ha h1 hw hfail)
  · rw [exec_cStep_byte hp hw ha hpull hb]
    exact settle_refused (writeLoop_secondRefused (s := s.setHost (afterPull (.byte b) rest s.host))
      (hl.trans (hlen b).ge) hw hfail)

end Sys2Proof.Machine
end

section
/-! PROOFS. The reader: the four answers of a pull, the commands RD.READ5 and RD.READ8 as `ReadBits` and its response, and
successive reads of the stream in Retain mode (42_reader.md R140 to R151). -/

namespace Sys2Proof.Machine

/-! ### The source's next answer -/

theorem nextPull_of_queued {s : State} {r : SrcReply} {rest : List SrcReply} (h : s.host.src.queued = r :: rest) :
    NextPull s (srcAnswer r) { s.host.src with queued := rest } :=
  ⟨r, by rw [nextAnswer, h], rfl⟩

/-- A source with answers listed gives the first of them, and then the others. -/
theorem nextPull_of_sourceGives_cons {s : State} {a last : SrcAnswer} {xs : List SrcAnswer}
    (h : SourceGives s (a :: xs) last) :
    ∃ rest, NextPull s a rest ∧ SourceGives (s.setHost (afterPull a rest s.host)) xs last := by
  obtain ⟨hqueued, hafter⟩ := h
  obtain ⟨r, rest, hq, rfl, hrest⟩ := List.map_eq_cons_iff.mp hqueued
  exact ⟨_, nextPull_of_queued hq, hrest, hafter⟩

/-- A source with no answer listed gives its last one, and goes on giving it. -/
theorem nextPull_of_sourceGives_nil {s : State} {last : SrcAnswer} (h : SourceGives s [] last) :
    ∃ rest, NextPull s last rest ∧ SourceGives (s.setHost (afterPull last rest s.host)) [] last := by
  obtain ⟨hqueued, hafter⟩ := h
  obtain ⟨r, hr, hlast⟩ := Option.map_eq_some_iff.mp hafter
  exact ⟨s.host.src, ⟨r, by rw [nextAnswer, List.map_eq_nil_iff.mp hqueued, hr], hlast⟩, hqueued, hafter⟩

/-- Every src_kind but 0 and 1 is IoFail (70_reset_and_hazards.md R263). -/
theorem srcAnswer_ioFail {r : SrcReply} (hbyte : r.kind ≠ 0#2) (hend : r.kind ≠ 1#2) : srcAnswer r = .ioFail := by
  rw [srcAnswer, if_neg hbyte, if_neg hend]

/-! ### RD.READ5 and RD.READ8 (R150, R151) -/

/-- The pseudocode that R150 and R151 share. -/
def readCommand (w : Nat) (s : State) : Run Unit :=
  andThen (readBits w s) fun r t => done (t.setResp (readResponse r))

theorem exec_rdRead5 {s : State} (hp : s.phase = .idle) : exec .rdRead5 s = settle (readCommand 5 s) :=
  exec_raw_idle rfl hp

theorem exec_rdRead8 {s : State} (hp : s.phase = .idle) : exec .rdRead8 s = settle (readCommand 8 s) :=
  exec_raw_idle rfl hp

/-- `ReadBits` does what `Reads` says, on the fast path and on the refill path of either mode (R141 to R143). -/
theorem readBits_of_reads {w : Nat} {s t : State} {v : BitVec w} (h8 : w ≤ 8) (hw : HostWaits s) (h : Reads w s v t) :
    readBits w s = .ok (some v) t := by
  rcases h with ⟨hheld, rfl, rfl⟩ | ⟨hshort, B, rest, hpull, rfl, rfl⟩
  · exact readBits_fast hheld
  · rw [readBits_refill h8 hshort hw hpull]
    cases s.params.readerMode with
    | retain => rw [refill_retain_acc B h8 hshort]
    | discard => rw [refill_discard_acc B h8 hshort]

section
variable {w : Nat} {s : State} (hw : HostWaits s)
include hw

theorem settle_readCommand_reads {v : BitVec w} {t : State} (h8 : w ≤ 8) (h : Reads w s v t) :
    settle (readCommand w s) = .next (t.setResp ⟨.ok, v.setWidth 8⟩) := by
  rw [readCommand, readBits_of_reads h8 hw h]
  rfl

theorem settle_readCommand_end {rest : Answers SrcReply} (hn : NextPull s .endOfStream rest)
    (h : s.racc.count.val < w) :
    settle (readCommand w s) = .next ((s.setHost (afterPull .endOfStream rest s.host)).setResp ⟨.eos, 0#8⟩) := by
  rw [readCommand, readBits_end h hw hn]
  rfl

theorem settle_readCommand_ioFail {rest : Answers SrcReply} (hn : NextPull s .ioFail rest)
    (h : s.racc.count.val < w) :
    settle (readCommand w s) = .next (takeError ioSource (s.setHost (afterPull .ioFail rest s.host))) := by
  rw [readCommand, readBits_ioFail h hw hn]
  rfl

end

/-- Settles O38: both commands are `readCommand`, which ends by the value, by End or by IoFail. -/
theorem readCommandsRun : Obligations.ReadCommandsRun := by
  intro s hp hw
  simp only [exec_rdRead5 hp, exec_rdRead8 hp]
  refine ⟨fun v t h => settle_readCommand_reads hw (by decide) h, fun v t h => ?_,
    fun rest hn => ⟨settle_readCommand_end hw hn, settle_readCommand_end hw hn⟩,
    fun rest hn => ⟨settle_readCommand_ioFail hw hn, settle_readCommand_ioFail hw hn⟩⟩
  simpa using settle_readCommand_reads hw (Nat.le_refl 8) h

/-- A whole byte read from an empty RACC leaves it empty, in both modes. -/
theorem reads_byte_of_empty {s : State} {b : Byte} {rest : Answers SrcReply} (hr : s.racc = BitAcc.empty)
    (hn : NextPull s (.byte b) rest) : Reads 8 s b (s.setHost (afterPull (.byte b) rest s.host)) := by
  have hkeeps : (s.setHost (afterPull (.byte b) rest s.host)).setRacc BitAcc.empty =
      s.setHost (afterPull (.byte b) rest s.host) := by
    rw [← hr]
    rfl
  refine .inr ⟨by rw [hr]; decide, b, rest, hn, ?_, ?_⟩
  · rw [hr, validBits_empty, List.nil_append, List.take_of_length_le (by simp), ofMsbBits_msbBits]
  · rw [hr, validBits_empty, List.nil_append, List.drop_of_length_le (by simp), accOf_nil]
    cases s.params.readerMode <;> exact hkeeps.symm

/-- Settles O57: the queued answer is a byte, End or, for every other kind, IoFail. -/
theorem sourceAnswerKinds : Obligations.SourceAnswerKinds := by
  refine ⟨fun _ => ⟨rfl, rfl, rfl, rfl⟩, fun s k b rest hp hw hr hq => ?_⟩
  have hpull := nextPull_of_queued hq
  have hempty : s.racc.count.val < 8 := by rw [hr]; decide
  rw [exec_rdRead8 hp]
  by_cases h0 : k = 0#2
  · subst h0
    refine ⟨_, settle_readCommand_reads hw (Nat.le_refl 8) (reads_byte_of_empty hr hpull), rfl, rfl, fun _ => ?_,
      by simp, by simp⟩
    exact ⟨by simp, hp, rfl, rfl⟩
  · by_cases h1 : k = 1#2
    · subst h1
      exact ⟨_, settle_readCommand_end hw hpull hempty, rfl, rfl, by simp, fun _ => ⟨rfl, hp, rfl, rfl⟩, by simp⟩
    · rw [srcAnswer_ioFail h0 h1] at hpull
      exact ⟨_, settle_readCommand_ioFail hw hpull hempty, rfl, rfl, fun h => absurd h h0, fun h => absurd h h1,
        fun _ => ⟨rfl, rfl, rfl, rfl⟩⟩

/-! ### A refill, by its mode (R142, R143) -/

/-- The bits of a refill's value: those held, and the top ones of the byte. -/
theorem take_held_append {a : BitAcc} {w : Nat} (bs : List Bool) (h : a.count.val ≤ w) :
    (validBits a ++ bs).take w = validBits a ++ bs.take (w - a.count.val) := by
  rw [List.take_append, List.take_of_length_le (by simpa using h), length_validBits]

/-- The bits left of a refill: the low ones of the byte. -/
theorem drop_held_append {a : BitAcc} {w : Nat} (B : Byte) (h : a.count.val ≤ w) :
    (validBits a ++ msbBits 8 B).drop w = msbBits (8 - (w - a.count.val)) B := by
  rw [List.drop_append, List.drop_of_length_le (by simpa using h), length_validBits, List.nil_append, drop_msbBits]

theorem readBits_refill_retain {w : Nat} {s : State} {B : Byte} {rest : Answers SrcReply} (h8 : w ≤ 8)
    (hm : s.params.readerMode = .retain) (hw : HostWaits s) (hc : s.racc.count.val < w)
    (hn : NextPull s (.byte B) rest) :
    readBits w s = .ok (some (ofMsbBits w ((validBits s.racc ++ msbBits 8 B).take w)))
      ((s.setHost (afterPull (.byte B) rest s.host)).setRacc (accOf ((validBits s.racc ++ msbBits 8 B).drop w))) := by
  rw [readBits_refill h8 hc hw hn, hm, refill_retain_acc B h8 hc]

theorem readBits_refill_discard {w : Nat} {s : State} {B : Byte} {rest : Answers SrcReply} (h8 : w ≤ 8)
    (hm : s.params.readerMode = .discard) (hw : HostWaits s) (hc : s.racc.count.val < w)
    (hn : NextPull s (.byte B) rest) :
    readBits w s = .ok (some (ofMsbBits w ((validBits s.racc ++ msbBits 8 B).take w)))
      ((s.setHost (afterPull (.byte B) rest s.host)).setRacc BitAcc.empty) := by
  rw [readBits_refill h8 hc hw hn, hm, refill_discard_acc B h8 hc]

/-- The top w bits of a byte are its quotient by the weight of the others. -/
theorem toNat_ofMsbBits_take_byte {w : Nat} (B : Byte) (h8 : w ≤ 8) :
    (ofMsbBits w ((msbBits 8 B).take w)).toNat = B.toNat / 2 ^ (8 - w) := by
  have hlt : B.toNat < 2 ^ (8 - w) * 2 ^ w := by
    rw [← Nat.pow_add, Nat.sub_add_cancel h8]
    exact B.isLt
  rw [toNat_ofMsbBits (by simp), take_msbBits 8 w B h8, Nat.mod_eq_of_lt (Nat.div_lt_of_lt_mul hlt)]

/-- Settles O40, from the refill in Discard mode. -/
theorem discardArithmetic : Obligations.DiscardArithmetic := by
  intro s w B rest hwidth hm hw hc hn
  have h8 : w ≤ 8 := by omega
  refine ⟨_, _, readBits_refill_discard h8 hm hw hc hn, rfl, rfl, by rw [take_held_append _ hc.le], fun hempty => ?_⟩
  rw [hempty, validBits_empty, List.nil_append, toNat_ofMsbBits_take_byte B h8]

/-! ### Successive reads in Retain mode (R145) -/

/-- The reader, in Retain mode and between reads, stands before these bits: those held, and then all that the source has
left. -/
structure StandsBefore (bits : List Bool) (s : State) : Prop where
  mode : s.params.readerMode = .retain
  waits : HostWaits s
  room : s.racc.count.val ≤ 7
  stream : ∃ bytes : List Byte, SourceGives s (bytes.map .byte) .endOfStream ∧ bits = validBits s.racc ++ bitsOf bytes

theorem length_bitsOf (bytes : List Byte) : (bitsOf bytes).length = 8 * bytes.length := by
  simp [bitsOf, List.length_flatMap, Nat.mul_comm]

/-- A piece that would run past the end gives EOS and takes nothing (R144). -/
theorem StandsBefore.readBits_short {bits : List Bool} {w : Nat} {s : State} (h : StandsBefore bits s) (h8 : w ≤ 8)
    (hlen : bits.length < w) : ∃ t, readBits w s = .ok none t ∧ StandsBefore bits t := by
  obtain ⟨hm, hw, hroom, bytes, hsrc, rfl⟩ := h
  rw [List.length_append, length_validBits, length_bitsOf] at hlen
  obtain rfl : bytes = [] := List.eq_nil_of_length_eq_zero (by omega)
  obtain ⟨rest, hn, hsrc'⟩ := nextPull_of_sourceGives_nil hsrc
  exact ⟨_, readBits_end (by omega) hw hn, hm, hw, hroom, [], hsrc', rfl⟩

/-- A piece that fits is the value, and the reader stands right behind it (R141, R142). -/
theorem StandsBefore.readBits_piece {bits : List Bool} {w : Nat} {s : State} (h : StandsBefore bits s) (h8 : w ≤ 8)
    (hlen : w ≤ bits.length) :
    ∃ t, readBits w s = .ok (some (ofMsbBits w (bits.take w))) t ∧ StandsBefore (bits.drop w) t := by
  obtain ⟨hm, hw, hroom, bytes, hsrc, rfl⟩ := h
  by_cases hheld : w ≤ s.racc.count.val
  · have hle : w ≤ (validBits s.racc).length := by rwa [length_validBits]
    have hrest : ((validBits s.racc).drop w).length ≤ 7 := by simp; omega
    rw [List.take_append_of_le_length hle, List.drop_append_of_le_length hle]
    refine ⟨_, readBits_fast hheld, hm, hw, ?_, bytes, hsrc, ?_⟩
    · rwa [setRacc_racc, accOf_count (by omega)]
    · rw [setRacc_racc, validBits_accOf (by omega)]
  · cases bytes with
    | nil => simp [bitsOf] at hlen; omega
    | cons B bytes =>
      obtain ⟨rest, hn, hsrc'⟩ := nextPull_of_sourceGives_cons hsrc
      have hsplit : validBits s.racc ++ bitsOf (B :: bytes) = validBits s.racc ++ msbBits 8 B ++ bitsOf bytes :=
        (List.append_assoc _ _ _).symm
      have hle : w ≤ (validBits s.racc ++ msbBits 8 B).length := by simp; omega
      have hrest : ((validBits s.racc ++ msbBits 8 B).drop w).length ≤ 7 := by simp; omega
      rw [hsplit, List.take_append_of_le_length hle, List.drop_append_of_le_length hle]
      refine ⟨_, readBits_refill_retain h8 hm hw (by omega) hn, hm, hw, ?_, bytes, hsrc', ?_⟩
      · rwa [setRacc_racc, accOf_count (by omega)]
      · rw [setRacc_racc, validBits_accOf (by omega)]

/-- Successive reads cut the bits before the reader into pieces. -/
theorem StandsBefore.readMany_eq {widths : List Nat} {bits : List Bool} {s : State} (h : StandsBefore bits s)
    (h8 : ∀ w ∈ widths, w ≤ 8) :
    ∃ t, readMany widths s = .ok (cutPieces widths bits) t ∧ t.racc.count.val ≤ 7 := by
  induction widths generalizing bits s with
  | nil => exact ⟨s, rfl, h.room⟩
  | cons w ws ih =>
    have hw8 : w ≤ 8 := h8 w List.mem_cons_self
    have hws : ∀ u ∈ ws, u ≤ 8 := fun u hu => h8 u (List.mem_cons_of_mem w hu)
    by_cases hlen : bits.length < w
    · obtain ⟨t, hread, ht⟩ := h.readBits_short hw8 hlen
      obtain ⟨u, hmany, hu⟩ := ih ht hws
      refine ⟨u, ?_, hu⟩
      rw [readMany, hread, andThen_ok, hmany, cutPieces, if_pos hlen]
      rfl
    · obtain ⟨t, hread, ht⟩ := h.readBits_piece hw8 (by omega)
      obtain ⟨u, hmany, hu⟩ := ih ht hws
      have htake : (bits.take w).length = w := by simp; omega
      have hpiece : msbBits w (ofMsbBits w (bits.take w)) = bits.take w := by
        have := msbBits_ofMsbBits htake.le
        rwa [htake] at this
      refine ⟨u, ?_, hu⟩
      rw [readMany, hread, andThen_ok, hmany, cutPieces, if_neg hlen, andThen_ok, Option.map_some, hpiece]

/-- Settles O39: one refill by its bits, and successive reads by what the reader stands before. -/
theorem retainArithmetic : Obligations.RetainArithmetic := by
  refine ⟨fun s w B rest hwidth hm hw hc hn => ?_, fun s widths bytes hwidths hm hw hc hsrc => ?_⟩
  · have hread := readBits_refill_retain (by omega) hm hw hc hn
    rw [take_held_append _ hc.le, drop_held_append B hc.le] at hread
    have hlen : (msbBits (8 - (w - s.racc.count.val)) B).length ≤ 8 := by simp
    refine ⟨_, hread, ?_, ?_⟩
    · rw [setRacc_racc, accOf_count hlen, length_msbBits]
      omega
    · rw [setRacc_racc, toNat_bits_accOf hlen, natOfBits_msbBits]
  · have hstart : StandsBefore (validBits s.racc ++ bitsOf bytes) s := ⟨hm, hw, hc, bytes, hsrc, rfl⟩
    exact hstart.readMany_eq fun w hmem => by have := hwidths w hmem; omega

end Sys2Proof.Machine
end

section
/-! PROOFS. TBL.ENCODE and TBL.DECODE: legal in every phase (60_exceptions.md R237), without I/O, and answered from the two
ROMs (43_symbol_table.md R172 to R176). -/

namespace Sys2Proof.Machine

/-- TBL.ENCODE writes the answer of FWD into RESP, in every phase (R175). -/
theorem exec_tblEncode (b : Byte) (s : State) :
    exec (.tblEncode b) s = .next (s.setResp ⟨.ok, (encodeByte s.params b).setWidth 8⟩) := by
  rw [exec_command rfl, guarded_legal _ rfl]
  rfl

/-- TBL.DECODE writes the answer of REV into RESP, in every phase (R176). -/
theorem exec_tblDecode (c : Byte) (s : State) :
    exec (.tblDecode c) s = .next (s.setResp (decodeResponse s.params.alphabet.toList[c.toNat]?)) := by
  rw [exec_command rfl, guarded_legal _ rfl, ← decodeCode_eq]
  rfl

/-- A code below ESC is the same number in five bits and in the eight bits of RESP. -/
theorem setWidth_ofNat_code {c : Nat} (h : c < 31) : (BitVec.ofNat 5 c).setWidth 8 = BitVec.ofNat 8 c := by
  bv_omega

/-- The code of an entry is answered by TBL.ENCODE for the entry. -/
theorem exec_tblEncode_entry {s : State} (hs : alphabetOk s.params.alphabet = true) {c : Nat} {b : Byte}
    (h : s.params.alphabet.toList[c]? = some b) :
    exec (.tblEncode b) s = .next (s.setResp ⟨.ok, BitVec.ofNat 8 c⟩) := by
  rw [exec_tblEncode, encodeByte_getElem hs h, setWidth_ofNat_code (lt_of_getElem?_alphabet h)]

/-- The entry of a code is answered by TBL.DECODE for the code. -/
theorem exec_tblDecode_entry {s : State} {c : Nat} {b : Byte} (h : s.params.alphabet.toList[c]? = some b) :
    exec (.tblDecode (BitVec.ofNat 8 c)) s = .next (s.setResp ⟨.ok, b⟩) := by
  have hc := lt_of_getElem?_alphabet h
  have hval : (BitVec.ofNat 8 c).toNat = c := by bv_omega
  rw [exec_tblDecode, hval, h]
  rfl

/-- A byte outside the alphabet gets ESC. -/
theorem exec_tblEncode_outside {s : State} {b : Byte} (h : b ∉ s.params.alphabet.toList) :
    exec (.tblEncode b) s = .next (s.setResp ⟨.ok, 31#8⟩) := by
  rw [exec_tblEncode, encodeByte_eq_ESC.mpr h]
  rfl

/-- ESC and every larger imm8 name no entry. -/
theorem exec_tblDecode_outside {s : State} {c : Byte} (h : 31 ≤ c.toNat) :
    exec (.tblDecode c) s = .next (s.setResp ⟨.none, 0#8⟩) := by
  rw [exec_tblDecode, List.getElem?_eq_none (by simpa using h)]
  rfl

/-- Settles O41, by whether the byte, or the code, has an entry. -/
theorem tableCommandsRun : Obligations.TableCommandsRun := fun _ hs =>
  ⟨fun _ _ h => ⟨exec_tblEncode_entry hs h, exec_tblDecode_entry h⟩, fun _ => exec_tblEncode_outside,
    fun _ => exec_tblDecode_outside⟩

end Sys2Proof.Machine
end
section
/-! PROOFS. The pipeline's commands one at a time: C.BEGIN, C.STEP and CTL.IDLE, and D.BEGIN and D.STEP as the token they
read off the stream (44_pipeline.md R190, R191, R200 to R204, R210). -/

namespace Sys2Proof.Machine

/-- A command that is legal runs its body (60_exceptions.md R240). -/
theorem exec_legal {i : Instr} {g : Group} {s : State} (hg : groupOf i = some g) (hl : legal g s.phase = true) :
    exec i s = settle (bodyOf i s) := by
  rw [exec_command hg, guarded_legal _ hl]

/-- Settles O55: CTL.IDLE is legal in every phase and does no I/O. -/
theorem ctlIdleRuns : Obligations.CtlIdleRuns := fun _ => exec_legal rfl rfl

/-! ### C.BEGIN and C.STEP -/

/-- The state C.BEGIN leaves (R190). -/
def compressBegun (s : State) : State :=
  (((clearErrorAndAccs s).setWacc ⟨1#8, 5⟩).setPhase .compress).setResp ⟨.ok, 1#8⟩

/-- C.BEGIN writes five bits into an empty WACC, which drains nothing. -/
theorem compressBegin_eq (s : State) : compressBegin s = done (compressBegun s) := by
  have hversion : accOf (msbBits 5 VERSION) = ⟨1#8, 5⟩ := by decide
  have hwrite : writeBits 5 VERSION (clearErrorAndAccs s) = done ((clearErrorAndAccs s).setWacc ⟨1#8, 5⟩) := by
    rw [writeBits_eq_writeLoop VERSION accOk_empty, clearErrorAndAccs_wacc, validBits_empty, List.nil_append,
      writeLoop_empty _ (by simp), hversion]
    exact drainIfFull_of_not_full (by decide : (5 : Nat) < 8)
  rw [compressBegin, hwrite]
  rfl

/-- Settles O43, from the body of C.BEGIN. -/
theorem cBeginRuns : Obligations.CBeginRuns := by
  intro s hl
  rw [exec_legal rfl hl, bodyOf, compressBegin_eq]
  rfl

/-- C.STEP on an ASCII byte whose token the sink takes (R191). -/
theorem exec_cStep_byte_accepted {s : State} {b : Byte} {rest : Answers SrcReply} (hp : s.phase = .compress)
    (hw : HostWaits s) (ha : accOk s.wacc) (hn : NextPull s (.byte b) rest) (hb : b.toNat < 0x80) (hs : SinkAccepts s) :
    exec .cStep s = .next ((written (tokenBits (tokenOfByte s.params b)) (s.setHost (afterPull (.byte b) rest s.host))).setResp
      ⟨.ok, (encodeByte s.params b).setWidth 8⟩) := by
  rw [exec_cStep_byte hp hw ha hn hb,
    writeLoop_accepted (s := (s.setHost (afterPull (.byte b) rest s.host)).setWacc BitAcc.empty) _ accOk_empty
      (Nat.zero_lt_succ 7) hw hs]
  rfl

/-- C.STEP at the end of the input, with a sink that takes the last byte (R191). -/
theorem exec_cStep_end_accepted {s : State} {rest : Answers SrcReply} (hp : s.phase = .compress) (hw : HostWaits s)
    (ha : accOk s.wacc) (hn : NextPull s .endOfStream rest) (hs : SinkAccepts s) :
    exec .cStep s = .next (((flushed (s.setHost (afterPull .endOfStream rest s.host))).setPhase .done).setResp
      ⟨.eos, 0#8⟩) := by
  rw [exec_cStep_end hp hw hn, compressEnd,
    flushW_accepted (s := s.setHost (afterPull .endOfStream rest s.host)) ha hw hs]
  rfl

/-- C.STEP on a byte that no ASCII byte is raises before anything is written (R191, 60_exceptions.md R236). -/
theorem compressStep_unsupported {s : State} {b : Byte} {rest : Answers SrcReply} (hw : HostWaits s)
    (hn : NextPull s (.byte b) rest) (hb : 0x80 ≤ b.toNat) :
    compressStep s = .raised (unsupportedCharacter b) (s.setHost (afterPull (.byte b) rest s.host)) := by
  rw [compressStep, srcPull_answered hw hn]
  exact if_pos hb

/-- C.STEP on a failing source raises before anything is written (R191). -/
theorem compressStep_ioFail {s : State} {rest : Answers SrcReply} (hw : HostWaits s) (hn : NextPull s .ioFail rest) :
    compressStep s = .raised ioSource (s.setHost (afterPull .ioFail rest s.host)) := by
  rw [compressStep, srcPull_answered hw hn, andThen_ok]

theorem exec_cStep {s : State} (hp : s.phase = .compress) : exec .cStep s = settle (compressStep s) :=
  exec_legal rfl (by rw [hp]; rfl)

/-- Settles O44, by the source's answer. -/
theorem cStepRuns : Obligations.CStepRuns := by
  intro s rest hp hw ha
  refine ⟨fun b hn hb hs => exec_cStep_byte_accepted hp hw ha hn hb hs,
    fun hn hs => exec_cStep_end_accepted hp hw ha hn hs, fun b hn hb => ?_, fun hn => ?_⟩
  · rw [exec_cStep hp, compressStep_unsupported hw hn hb]
    rfl
  · rw [exec_cStep hp, compressStep_ioFail hw hn]
    rfl

/-! ### D.BEGIN -/

/-- What a read that returns a value leaves unchanged. -/
theorem Reads.keeps {w : Nat} {s t : State} {v : BitVec w} (h : Reads w s v t) (h8 : w ≤ 8) (hw : HostWaits s) :
    ReaderKeeps s t := by
  have hread := endsIn_readBits w s
  rwa [readBits_of_reads h8 hw h] at hread

theorem Reads.waits {w : Nat} {s t : State} {v : BitVec w} (h : Reads w s v t) (hw : HostWaits s) : HostWaits t := by
  rcases h with ⟨-, -, rfl⟩ | ⟨-, B, rest, -, -, rfl⟩ <;> exact hw

theorem Reads.params_eq {w : Nat} {s t : State} {v : BitVec w} (h : Reads w s v t) : t.params = s.params := by
  rcases h with ⟨-, -, rfl⟩ | ⟨-, B, rest, -, -, rfl⟩ <;> rfl

theorem Reads.snk_eq {w : Nat} {s t : State} {v : BitVec w} (h : Reads w s v t) : t.host.snk = s.host.snk := by
  rcases h with ⟨-, -, rfl⟩ | ⟨-, B, rest, -, -, rfl⟩ <;> rfl

/-- D.BEGIN whose version read returns a value checks it (R200). -/
theorem decompressBegin_reads {s t : State} {v : Code} (h : Reads 5 (clearErrorAndAccs s) v t) (hw : HostWaits s) :
    decompressBegin s = acceptVersion v t := by
  rw [decompressBegin, readBits_of_reads (s := clearErrorAndAccs s) (by decide) hw h, andThen_ok]

/-- The state after the version read of D.BEGIN from the byte `B`, in the block's mode (R200). -/
def versionRead (B : Byte) (rest : Answers SrcReply) (s : State) : State :=
  ((clearErrorAndAccs s).setHost (afterPull (.byte B) rest s.host)).setRacc
    (match s.params.readerMode with
     | .retain => accOf (msbBits 3 B)
     | .discard => BitAcc.empty)

/-- The version code is the top 5 bits of the first byte. -/
theorem reads_version {s : State} {B : Byte} {rest : Answers SrcReply} (hn : NextPull s (.byte B) rest) :
    Reads 5 (clearErrorAndAccs s) (ofMsbBits 5 ((msbBits 8 B).take 5)) (versionRead B rest s) := by
  refine .inr ⟨Nat.zero_lt_succ 4, B, rest, hn, rfl, ?_⟩
  rw [clearErrorAndAccs_racc, validBits_empty, List.nil_append, drop_msbBits]
  rfl

theorem toNat_version (B : Byte) : (ofMsbBits 5 ((msbBits 8 B).take 5)).toNat = B.toNat / 8 :=
  toNat_ofMsbBits_take_byte B (by decide)

theorem version_iff (B : Byte) : ofMsbBits 5 ((msbBits 8 B).take 5) = VERSION ↔ B.toNat / 8 = 1 := by
  rw [← BitVec.toNat_inj, toNat_version]
  rfl

/-- D.BEGIN on a byte with the version code (R200). -/
theorem decompressBegin_version {s : State} {B : Byte} {rest : Answers SrcReply} (hw : HostWaits s)
    (hn : NextPull s (.byte B) rest) (hB : B.toNat / 8 = 1) :
    decompressBegin s = done (((versionRead B rest s).setPhase .decompress).setResp ⟨.ok, 1#8⟩) := by
  rw [decompressBegin_reads (reads_version hn) hw, (version_iff B).mpr hB, acceptVersion, if_neg (not_not.mpr rfl)]
  rfl

/-- D.BEGIN on a byte with another code (R200). -/
theorem decompressBegin_otherVersion {s : State} {B : Byte} {rest : Answers SrcReply} (hw : HostWaits s)
    (hn : NextPull s (.byte B) rest) (hB : B.toNat / 8 ≠ 1) :
    decompressBegin s =
      .raised ⟨.invalidFormatVersion, 0#1, BitVec.ofNat 8 (B.toNat / 8)⟩ (versionRead B rest s) := by
  have hinfo : (ofMsbBits 5 ((msbBits 8 B).take 5)).setWidth 8 = BitVec.ofNat 8 (B.toNat / 8) := by
    have := toNat_version B
    bv_omega
  rw [decompressBegin_reads (reads_version hn) hw, acceptVersion, if_pos (mt (version_iff B).mp hB), invalidFormatVersion,
    hinfo]

/-- Settles O48, by the source's answer. -/
theorem dBeginRuns : Obligations.DBeginRuns := by
  intro s rest hl hw
  rw [exec_legal rfl hl, bodyOf]
  refine ⟨fun B hn hB => ?_, fun B hn hB => ?_, fun hn => ?_, fun hn => ?_⟩
  · rw [decompressBegin_version hw hn hB]
    rfl
  · rw [decompressBegin_otherVersion hw hn hB]
    rfl
  · rw [decompressBegin, readBits_end (s := clearErrorAndAccs s) (Nat.zero_lt_succ 4) hw hn]
    rfl
  · rw [decompressBegin, readBits_ioFail (s := clearErrorAndAccs s) (Nat.zero_lt_succ 4) hw hn]
    rfl

/-! ### D.STEP -/

theorem exec_dStep {s : State} (hp : s.phase = .decompress) : exec .dStep s = settle (decompressStep s) :=
  exec_legal rfl (by rw [hp]; rfl)

section
variable {s t : State} (hw : HostWaits s)
include hw

/-- D.STEP after a code other than ESC (R201). -/
theorem decompressStep_symbol {c : Code} (h : Reads 5 s c t) (hc : c ≠ ESC) : decompressStep s = emitSymbol c t := by
  rw [decompressStep, readBits_of_reads (by decide) hw h, andThen_ok]
  exact if_neg hc

/-- D.STEP after ESC (R202). -/
theorem decompressStep_escape (h : Reads 5 s ESC t) : decompressStep s = escapeLiteral t := by
  rw [decompressStep, readBits_of_reads (by decide) hw h, andThen_ok]
  exact if_pos rfl

/-- D.STEP after ESC and a literal (R202). -/
theorem decompressStep_literal {l : Byte} {u : State} (h : Reads 5 s ESC t) (hl : Reads 8 t l u) :
    decompressStep s = emitLiteral l u := by
  rw [decompressStep_escape hw h, escapeLiteral, readBits_of_reads (Nat.le_refl 8) (h.waits hw) hl, andThen_ok]

/-- D.STEP after ESC where the stream ends (R202). -/
theorem decompressStep_escapeEnd {rest : Answers SrcReply} (h : Reads 5 s ESC t) (hc : t.racc.count.val < 8)
    (hn : NextPull t .endOfStream rest) :
    decompressStep s = terminalEscape (t.setHost (afterPull .endOfStream rest t.host)) := by
  rw [decompressStep_escape hw h, escapeLiteral, readBits_end hc (h.waits hw) hn, andThen_ok]

/-- D.STEP whose code read meets the end of the stream (R204). -/
theorem decompressStep_end {rest : Answers SrcReply} (hc : s.racc.count.val < 5) (hn : NextPull s .endOfStream rest) :
    decompressStep s = done (endDecompress (s.setHost (afterPull .endOfStream rest s.host))) := by
  rw [decompressStep, readBits_end hc hw hn, andThen_ok]

end

/-- Settles O9: after the reads both commands run what the token's own meaning is. -/
theorem decompressorRunsTheTokenItReads : Obligations.DecompressorRunsTheTokenItReads := by
  refine ⟨fun s t hl h hw => ?_, fun s t c hp h hw hc => ?_, fun s t u l hp h hl hw => ?_,
    fun s t rest hp h hw hc hn => ?_⟩
  · rw [exec_legal rfl hl, bodyOf, decompressBegin_reads h hw]
    rfl
  · rw [exec_dStep hp, decompressStep_symbol hw h hc]
    rfl
  · rw [exec_dStep hp, decompressStep_literal hw h hl]
    rfl
  · rw [exec_dStep hp, decompressStep_escapeEnd hw h hc hn]
    rfl

/-- Settles O49: the token read emits its byte at the state after the reads, whose sink is as it was. -/
theorem dStepEmitsOneByte : Obligations.DStepEmitsOneByte := by
  obtain ⟨-, hsymbol, hescape, -⟩ := decompressorRunsTheTokenItReads
  have haccepts {w : Nat} {s t : State} {v : BitVec w} (h : Reads w s v t) (hs : SinkAccepts s) : SinkAccepts t := by
    rwa [SinkAccepts, h.snk_eq]
  refine fun s hp hw hs => ⟨fun c t d h hc hd => ?_, fun t l u h hl => ?_⟩
  · rw [hsymbol s t c hp h hw hc]
    exact exec_streamSym (by rw [h.params_eq, hd]) (h.waits hw) (haccepts h hs)
  · rw [hescape s t u l hp h hl hw]
    exact exec_streamEsc l (hl.waits (h.waits hw)) (haccepts hl (haccepts h hs))

/-- Settles O50, from the code read at End. -/
theorem dStepEndsAtTheEnd : Obligations.DStepEndsAtTheEnd := by
  intro s rest hp hw hc hn
  rw [exec_dStep hp, decompressStep_end hw hc hn]
  rfl

/-- Settles O51: D.STEP runs the padding escape, by the condition of R203. -/
theorem terminalEscapeRuns : Obligations.TerminalEscape := by
  obtain ⟨-, -, -, hpad⟩ := decompressorRunsTheTokenItReads
  intro s t rest hp hw h hc hn
  have hiff := acceptsPadEscape_iff (t.setHost (afterPull .endOfStream rest t.host))
  rw [setHost_params, setHost_racc, h.params_eq] at hiff
  rw [hpad s t rest hp h hw hc hn]
  split
  next haccepts => exact exec_streamPadEsc_accepted (hiff.mpr haccepts)
  next hrefused => exact exec_streamPadEsc_refused (mt hiff.mp hrefused)

/-- A push refused where D.STEP emits its byte. -/
theorem emitLiteral_refused {s : State} {rest : Answers SnkReply} (l : Byte) (hw : HostWaits s)
    (hn : NextPushFails s rest) : emitLiteral l s = .raised ioSink (s.setHost (afterRefusal l rest s.host)) := by
  rw [emitLiteral, pushByte_refused hw hn, andThen_raised]

/-- Once its code is looked up, a symbol is emitted as a literal is (R201, R202). -/
theorem emitSymbol_eq_emitLiteral {s : State} {c : Code} {d : Byte} (h : s.params.alphabet.toList[c.toNat]? = some d) :
    emitSymbol c s = emitLiteral d s := by
  refine emitSymbol_some ?_
  rw [decodeCode_eq, BitVec.toNat_setWidth_of_le (by decide), h]

/-- Settles O52, by the read or the push that fails. -/
theorem dStepPortFailures : Obligations.DStepPortFailures := by
  intro s hp hw
  rw [exec_dStep hp]
  refine ⟨fun rest hc hn => ?_, fun t rest h hc hn => ?_, fun c t d more h hc hd hn => ?_, fun t l u more h hl hn => ?_⟩
  · rw [decompressStep, readBits_ioFail hc hw hn]
    rfl
  · rw [decompressStep_escape hw h, escapeLiteral, readBits_ioFail hc (h.waits hw) hn]
    rfl
  · rw [decompressStep_symbol hw h hc, emitSymbol_eq_emitLiteral (by rw [h.params_eq, hd]),
      emitLiteral_refused d (h.waits hw) hn]
    rfl
  · rw [decompressStep_literal hw h hl, emitLiteral_refused l (hl.waits (h.waits hw)) hn]
    rfl

end Sys2Proof.Machine
end

section
/-! PROOFS. UnknownCode is never raised (44_pipeline.md R206): D.STEP, its one source, reads a code of 5 bits, and looks it
up only where it is not ESC. -/

namespace Sys2Proof.Machine

/-- The run from `s` raises no UnknownCode, and where it ends well ERR is as it was or clear. -/
def RaisesKnown {α : Type} (s : State) (r : Run α) : Prop :=
  match r with
  | .ok _ t => t.err = s.err ∨ t.err = Err.clear
  | .raised e _ => e.kind ≠ .unknownCode
  | .cut _ => True
  | .stuck _ => True

theorem RaisesKnown.andThen {α β : Type} {s : State} {r : Run α} {k : α → State → Run β} (hr : RaisesKnown s r)
    (hk : ∀ a t, RaisesKnown t (k a t)) : RaisesKnown s (andThen r k) := by
  cases r with
  | ok a t =>
    have ht := hk a t
    change RaisesKnown s (k a t)
    cases hrun : k a t with
    | ok b u =>
      rw [hrun] at ht
      exact ht.elim (fun h => hr.elim (fun h' => .inl (h.trans h')) fun h' => .inr (h.trans h')) .inr
    | raised e u => rwa [hrun] at ht
    | cut u => trivial
    | stuck f => trivial
  | raised e t => exact hr
  | cut t => trivial
  | stuck f => trivial

theorem RaisesKnown.ite {α : Type} {s : State} {c : Prop} [Decidable c] {r r' : Run α}
    (h : c → RaisesKnown s r) (h' : ¬ c → RaisesKnown s r') : RaisesKnown s (if c then r else r') := by
  split
  · exact h ‹c›
  · exact h' ‹¬ c›

/-- Where a run that keeps ERR raises only errors of the ports. -/
theorem RaisesKnown.of_endsIn {α : Type} {s : State} {r : Run α} (hr : EndsIn (fun t => t.err = s.err) r)
    (he : ∀ e t, r = .raised e t → e = ioSink ∨ e = ioSource) : RaisesKnown s r := by
  cases r with
  | ok a t => exact .inl hr
  | raised e t => rcases he e t rfl with rfl | rfl <;> exact (nofun : ErrKind.io ≠ .unknownCode)
  | cut t => trivial
  | stuck f => trivial

/-- The end of a command that raises no UnknownCode records none. -/
theorem RaisesKnown.settle {r : Run Unit} {s t : State} (hr : RaisesKnown s r) (h : settle r = .next t)
    (ht : t.err.code = 3#3) : s.err.code = 3#3 := by
  cases r with
  | ok a u =>
    cases h
    rcases hr with herr | herr
    · rwa [herr] at ht
    · rw [herr] at ht
      cases ht
  | raised e u =>
    cases h
    have hkind : e.kind ≠ .unknownCode := hr
    have hcode : errCode e.kind = 3#3 := ht
    cases hk : e.kind <;> simp [hk, errCode] at hkind hcode
  | cut u =>
    cases h
    cases ht
  | stuck f => cases h

theorem raisesKnown_pushByte (b : Byte) (s : State) : RaisesKnown s (pushByte b s) :=
  .of_endsIn (endsIn_mono (endsIn_pushByte b s) fun _ ⟨⟨_, _, herr, _⟩, _⟩ => herr) fun _ _ h => .inl (pushByte_raised h)

theorem raisesKnown_srcPull (s : State) : RaisesKnown s (srcPull s) :=
  .of_endsIn (endsIn_mono (endsIn_srcPull s) fun _ ⟨⟨_, _, herr, _⟩, _⟩ => herr) fun e t h =>
    absurd h (srcPull_ne_raised s e t)

/-! ### The writer and the reader -/

theorem raisesKnown_drainIfFull (s : State) : RaisesKnown s (drainIfFull s) :=
  .ite (fun _ => (raisesKnown_pushByte _ s).andThen fun _ _ => .inl rfl) fun _ => .inl rfl

theorem raisesKnown_writeLoop (bs : List Bool) (s : State) : RaisesKnown s (writeLoop bs s) := by
  induction bs generalizing s with
  | nil => exact .inl rfl
  | cons b bs ih =>
    exact RaisesKnown.andThen (s := s) (raisesKnown_drainIfFull (s.setWacc (pushBit s.wacc b))) fun _ t => ih t

theorem raisesKnown_writeBits (w : Nat) (v : BitVec w) (s : State) : RaisesKnown s (writeBits w v s) :=
  (raisesKnown_drainIfFull s).andThen fun _ t => raisesKnown_writeLoop _ t

theorem raisesKnown_flushW (s : State) : RaisesKnown s (flushW s) := by
  refine .ite (fun _ => .inl rfl) fun _ => ?_
  refine .andThen (.ite (fun _ => raisesKnown_writeBits 5 ESC s) fun _ => .inl rfl) fun _ t => ?_
  exact .andThen (.ite (fun _ => raisesKnown_pushByte _ t) fun _ => .inl rfl) fun _ _ => .inl rfl

theorem raisesKnown_readBits (w : Nat) (s : State) : RaisesKnown s (readBits w s) := by
  refine .ite (fun _ => .inl rfl) fun _ => (raisesKnown_srcPull s).andThen fun a t => ?_
  cases a with
  | byte B => exact .inl rfl
  | endOfStream => exact .inl rfl
  | ioFail => exact (nofun : ErrKind.io ≠ .unknownCode)

/-! ### The pipeline -/

theorem raisesKnown_compressBegin (s : State) : RaisesKnown s (compressBegin s) := by
  rw [compressBegin_eq]
  exact .inr rfl

theorem raisesKnown_compressByte (b : Byte) (s : State) : RaisesKnown s (compressByte b s) := by
  refine .ite (fun _ => (nofun : ErrKind.unsupportedCharacter ≠ .unknownCode)) fun _ => ?_
  refine (raisesKnown_writeBits 5 _ s).andThen fun _ t => ?_
  exact .andThen (.ite (fun _ => raisesKnown_writeBits 8 b t) fun _ => .inl rfl) fun _ _ => .inl rfl

theorem raisesKnown_compressStep (s : State) : RaisesKnown s (compressStep s) :=
  (raisesKnown_srcPull s).andThen fun a t => by
    cases a with
    | ioFail => exact (nofun : ErrKind.io ≠ .unknownCode)
    | endOfStream => exact (raisesKnown_flushW t).andThen fun _ _ => .inl rfl
    | byte b => exact raisesKnown_compressByte b t

theorem raisesKnown_decompressBegin (s : State) : RaisesKnown s (decompressBegin s) := by
  have hread : RaisesKnown s (readBits 5 (clearErrorAndAccs s)) := by
    have h := raisesKnown_readBits 5 (clearErrorAndAccs s)
    cases hrun : readBits 5 (clearErrorAndAccs s) <;> rw [hrun] at h
    case ok => exact .inr (h.elim (fun h => h) fun h => h)
    all_goals exact h
  refine hread.andThen fun r t => ?_
  cases r with
  | none => exact (nofun : ErrKind.unexpectedEndOfStream ≠ .unknownCode)
  | some v =>
    exact .ite (fun _ => (nofun : ErrKind.invalidFormatVersion ≠ .unknownCode)) fun _ => .inl rfl

/-- The one place where UnknownCode could be raised: every code below ESC is held (R206). -/
theorem decodeCode_of_ne_ESC (p : Params) {c : Code} (hc : c ≠ ESC) : ∃ d, decodeCode p (c.setWidth 8) = some d := by
  have hlt : (c.setWidth 8).toNat < 31 := by unfold ESC at hc; bv_omega
  exact ⟨_, dif_pos hlt⟩

theorem raisesKnown_emitSymbol {c : Code} (hc : c ≠ ESC) (s : State) : RaisesKnown s (emitSymbol c s) := by
  obtain ⟨d, hd⟩ := decodeCode_of_ne_ESC s.params hc
  rw [emitSymbol_some hd]
  exact (raisesKnown_pushByte d s).andThen fun _ _ => .inl rfl

theorem raisesKnown_escapeLiteral (s : State) : RaisesKnown s (escapeLiteral s) :=
  (raisesKnown_readBits 8 s).andThen fun r t => by
    cases r with
    | none => exact .ite (fun _ => .inl rfl) fun _ => (nofun : ErrKind.unexpectedEndOfStream ≠ .unknownCode)
    | some l => exact (raisesKnown_pushByte l t).andThen fun _ _ => .inl rfl

theorem raisesKnown_decompressStep (s : State) : RaisesKnown s (decompressStep s) :=
  (raisesKnown_readBits 5 s).andThen fun r t => by
    cases r with
    | none => exact .inl rfl
    | some c => exact .ite (fun _ => raisesKnown_escapeLiteral t) fun hc => raisesKnown_emitSymbol hc t

theorem raisesKnown_passLoop {p : Phase} {body : State → Run Unit} (hbody : ∀ s, RaisesKnown s (body s)) (fuel : Nat)
    (s : State) : RaisesKnown s (passLoop p body fuel s) := by
  induction fuel generalizing s with
  | zero =>
    unfold passLoop
    exact .ite (fun _ => trivial) fun _ => .inl rfl
  | succ n ih =>
    unfold passLoop
    exact .ite (fun _ => (hbody s).andThen fun _ t => ih t) fun _ => .inl rfl

/-! ### Commands and steps -/

theorem raisesKnown_writerResponse {s : State} {r : Run Unit} (hr : RaisesKnown s r) :
    RaisesKnown s (andThen r fun _ t => writerResponse t) :=
  hr.andThen fun _ _ => .inl rfl

/-- No command raises UnknownCode. Of a token's own meaning that is not said (log 7). -/
theorem raisesKnown_bodyOf {i : Instr} {g : Group} (hg : groupOf i = some g) (s : State) :
    RaisesKnown s (bodyOf i s) := by
  cases i with
  | accPush sel bit =>
    exact .ite (fun _ => (nofun : ErrKind.illegalCommand ≠ .unknownCode)) fun _ => by cases sel <;> exact .inl rfl
  | accIsFull sel => exact .inl rfl
  | accClear sel => cases sel <;> exact .inl rfl
  | wrWrite5 value => exact raisesKnown_writerResponse (raisesKnown_writeBits 5 value s)
  | wrWrite8 value => exact raisesKnown_writerResponse (raisesKnown_writeBits 8 value s)
  | wrFlush => exact raisesKnown_writerResponse (raisesKnown_flushW s)
  | rdRead5 => exact (raisesKnown_readBits 5 s).andThen fun _ _ => .inl rfl
  | rdRead8 => exact (raisesKnown_readBits 8 s).andThen fun _ _ => .inl rfl
  | tblEncode byte => exact .inl rfl
  | tblDecode code => exact .inl rfl
  | cBegin => exact raisesKnown_compressBegin s
  | cStep => exact raisesKnown_compressStep s
  | cPass => exact (raisesKnown_compressBegin s).andThen fun _ t => raisesKnown_passLoop raisesKnown_compressStep _ t
  | dBegin => exact raisesKnown_decompressBegin s
  | dStep => exact raisesKnown_decompressStep s
  | dPass => exact (raisesKnown_decompressBegin s).andThen fun _ t => raisesKnown_passLoop raisesKnown_decompressStep _ t
  | ctlIdle => exact .inr rfl
  | _ => cases hg

theorem rejectCommand_err_code {info : BitVec 8} {s : State} (h : (rejectCommand info s).err.code = 3#3) :
    s.err.code = 3#3 := by
  by_cases hp : s.phase = .error
  · rwa [rejectCommand_error _ hp] at h
  · rw [rejectCommand_raises _ hp] at h
    cases h

theorem runWord_err_code {w : CmdWord} {s t : State} (h : runWord w s = .next t) (ht : t.err.code = 3#3) :
    s.err.code = 3#3 := by
  cases hd : decode (.command w) with
  | error e =>
    cases (runWord_error s hd).symm.trans h
    exact rejectCommand_err_code ht
  | ok i =>
    obtain ⟨g, hg⟩ := groupOf_of_decode_command hd
    rw [runWord_ok s hd, exec_command hg] at h
    rcases guarded_next h with ⟨-, hn⟩ | ⟨-, rfl⟩
    · exact (raisesKnown_bodyOf hg s).settle hn ht
    · exact rejectCommand_err_code ht

/-- Settles O23, by the host's next event: a command raises no UnknownCode, and a reset clears ERR. -/
theorem unknownCodeIsUnreachable : Obligations.UnknownCodeIsUnreachable := by
  intro s t h ht
  cases he : s.host.events with
  | nil =>
    cases (step_noEvent he).symm.trans h
    exact ht
  | cons event rest =>
    cases event with
    | command w =>
      obtain ⟨u, hu, rfl⟩ := mapNext_eq_next.mp ((step_command he).symm.trans h)
      have hs : (acceptEvent rest none s).err.code = 3#3 := runWord_err_code (t := u) hu ht
      exact hs
    | reset =>
      cases (step_reset he).symm.trans h
      cases ht
    | commandCutByReset w n =>
      obtain ⟨u, hu, rfl⟩ := mapNext_eq_next.mp ((step_commandCutByReset he).symm.trans h)
      cases ht

end Sys2Proof.Machine
end

section
/-! PROOFS. What the pipeline's commands pull and push, whatever the host answers (44_pipeline.md R209), and where a host that
does not answer leaves a command stuck (60_exceptions.md R243). -/

namespace Sys2Proof.Machine

/-! ### The record of a run -/

/-- Between `s` and `t` the pulls and pushes `es` were done, and no reset came due before the last of them (log 6). -/
structure Logged (es : List IoEvent) (s t : State) : Prop extends IoDone es s t where
  inTime : t.host.resetAfter.map (· + es.length) = s.host.resetAfter

theorem Logged.none {s t : State} (h : t.host = s.host) : Logged [] s t where
  toIoDone := .none (by rw [h]) (by rw [h]) (by rw [h])
  inTime := by rw [h]; simp

theorem Logged.trans {es fs : List IoEvent} {s t u : State} (h : Logged es s t) (k : Logged fs t u) :
    Logged (es ++ fs) s u where
  toIoDone := h.toIoDone.trans k.toIoDone
  inTime := by
    rw [← h.inTime, ← k.inTime, Option.map_map, List.length_append]
    congr 1
    funext n
    simp only [Function.comp_apply]
    omega

theorem Logged.waits {es : List IoEvent} {s t : State} (h : Logged es s t) (hw : HostWaits s) : HostWaits t := by
  have hmap := h.inTime
  rw [show s.host.resetAfter = .none from hw, Option.map_eq_none_iff] at hmap
  exact hmap

theorem length_pulledAnswers (es : List IoEvent) : (pulledAnswers es).length = pullCount es := by
  induction es with
  | nil => rfl
  | cons e es ih => cases e <;> simpa [pulledAnswers, pullCount] using ih

theorem length_pushedAnswers (es : List IoEvent) : (pushedAnswers es).length = pushCount es := by
  induction es with
  | nil => rfl
  | cons e es ih => cases e <;> simpa [pushedAnswers, pushCount] using ih

theorem length_record (es : List IoEvent) : es.length = pullCount es + pushCount es := by
  induction es with
  | nil => rfl
  | cons e es ih => cases e <;> simp [pullCount, pushCount] at ih ⊢ <;> omega

/-- How a run from `s` can end, with its record: well, as `Ok` says; raising, as `Bad` says of the record; cut off only where
a reset is to come; and stuck only on a port that falls silent. -/
def Logs {α : Type} (s : State) (Ok : List IoEvent → α → State → Prop) (Bad : List IoEvent → Prop) (r : Run α) : Prop :=
  match r with
  | .ok a t => ∃ es, Logged es s t ∧ Ok es a t
  | .raised _ t => ∃ es, IoDone es s t ∧ Bad es
  | .cut _ => s.host.resetAfter ≠ .none
  | .stuck f => f = .hostSilent ∧ (s.host.src.after = .none ∨ s.host.snk.after = .none)

section
variable {α β : Type} {s t : State} {r : Run α} {Ok Ok₁ : List IoEvent → α → State → Prop}
  {Ok' : List IoEvent → β → State → Prop} {Bad Bad' : List IoEvent → Prop}

theorem Logs.mono (h : Logs s Ok Bad r) (hok : ∀ es a t, Ok es a t → Ok₁ es a t) (hbad : ∀ es, Bad es → Bad' es) :
    Logs s Ok₁ Bad' r := by
  cases r with
  | ok a t =>
    obtain ⟨es, hes, h⟩ := h
    exact ⟨es, hes, hok es a t h⟩
  | raised e t =>
    obtain ⟨es, hes, h⟩ := h
    exact ⟨es, hes, hbad es h⟩
  | cut t => exact h
  | stuck f => exact h

/-- A run that begins after some pulls and pushes. -/
theorem Logs.after {es : List IoEvent} (ht : Logged es s t)
    (h : Logs t (fun fs a u => Ok (es ++ fs) a u) (fun fs => Bad (es ++ fs)) r) : Logs s Ok Bad r := by
  cases r with
  | ok a u =>
    obtain ⟨fs, hfs, h⟩ := h
    exact ⟨es ++ fs, ht.trans hfs, h⟩
  | raised e u =>
    obtain ⟨fs, hfs, h⟩ := h
    exact ⟨es ++ fs, ht.toIoDone.trans hfs, h⟩
  | cut u =>
    intro hs
    exact h (ht.waits hs)
  | stuck f =>
    obtain ⟨hf, hsilent⟩ := h
    rw [ht.src, ht.snk] at hsilent
    exact ⟨hf, hsilent⟩

theorem Logs.andThen {k : α → State → Run β} (hr : Logs s Ok Bad r) (hbad : ∀ es, Bad es → Bad' es)
    (hk : ∀ es a t, Ok es a t → Logs t (fun fs b u => Ok' (es ++ fs) b u) (fun fs => Bad' (es ++ fs)) (k a t)) :
    Logs s Ok' Bad' (andThen r k) := by
  cases r with
  | ok a t =>
    obtain ⟨es, hes, h⟩ := hr
    exact .after hes (hk es a t h)
  | raised e t =>
    obtain ⟨es, hes, h⟩ := hr
    exact ⟨es, hes, hbad es h⟩
  | cut t => exact hr
  | stuck f => exact hr

/-- A result reached without a pull or push. -/
theorem Logs.ok {a : α} (hh : t.host = s.host) (h : Ok [] a t) : Logs s Ok Bad (.ok a t) :=
  ⟨[], .none hh, h⟩

/-- A raise reached without a pull or push. -/
theorem Logs.raised {e : Raised} (hh : t.host = s.host) (h : Bad []) : Logs s Ok Bad (.raised e t) :=
  ⟨[], (Logged.none hh).toIoDone, h⟩

/-- Registers may be written before the run begins. -/
theorem Logs.of_host_eq (hh : t.host = s.host) (h : Logs t Ok Bad r) : Logs s Ok Bad r :=
  .after (es := []) (.none hh) h

end

/-- What a command's outcome says of its record, where no reset cuts it off. -/
theorem Logs.of_settle {s t : State} {r : Run Unit} {Ok : List IoEvent → Unit → State → Prop} {Bad : List IoEvent → Prop}
    {es : List IoEvent} (h : Logs s Ok Bad r) (hw : HostWaits s) (ht : settle r = .next t)
    (htrace : t.host.trace = s.host.trace ++ es) : (∃ u, Ok es () u) ∨ Bad es := by
  cases r with
  | ok a u =>
    cases ht
    obtain ⟨fs, hfs, h⟩ := h
    obtain rfl : fs = es := List.append_cancel_left (hfs.trace.symm.trans htrace)
    exact .inl ⟨_, h⟩
  | raised e u =>
    cases ht
    obtain ⟨fs, hfs, h⟩ := h
    obtain rfl : fs = es := List.append_cancel_left (hfs.trace.symm.trans htrace)
    exact .inr h
  | cut u => exact absurd hw h
  | stuck f => cases ht

/-- A command that neither of its ends fits waits for the host for ever. -/
theorem Logs.settle_stuck {s : State} {r : Run Unit} {Ok : List IoEvent → Unit → State → Prop} {Bad : List IoEvent → Prop}
    (h : Logs s Ok Bad r) (hw : HostWaits s) (hok : ∀ es t u, IoDone es s t → ¬ Ok es () u)
    (hbad : ∀ es t, IoDone es s t → ¬ Bad es) : settle r = .fault .hostSilent := by
  cases r with
  | ok a t =>
    obtain ⟨es, hes, h⟩ := h
    exact absurd h (hok es t t hes.toIoDone)
  | raised e t =>
    obtain ⟨es, hes, h⟩ := h
    exact absurd h (hbad es t hes)
  | cut t => exact absurd hw h
  | stuck f =>
    obtain ⟨rfl, -⟩ := h
    rfl

/-! ### Pulls and pushes -/

/-- One answered pull, with the reset one answer nearer. -/
theorem Logged.pull {s : State} {r : SrcReply} {rest : Answers SrcReply} (hdue : s.host.resetAfter ≠ some 0)
    (h : nextAnswer s.host.src = some (r, rest)) :
    Logged [.pull (srcAnswer r)] s
      (s.setHost { countDown s.host with src := rest, trace := s.host.trace ++ [.pull (srcAnswer r)] }) where
  toIoDone := by
    obtain ⟨-, -, -, es, hes⟩ := IoExtends.pull h
    obtain rfl : [IoEvent.pull (srcAnswer r)] = es := List.append_cancel_left hes.trace
    exact hes
  inTime := by
    cases hn : s.host.resetAfter with
    | none => simp [countDown, hn]
    | some n =>
      have hpos : n ≠ 0 := fun h0 => hdue (by rw [hn, h0])
      simp [countDown, hn]
      omega

/-- One answered push, with the reset one answer nearer. -/
theorem Logged.push {s : State} {r : SnkReply} {rest : Answers SnkReply} (b : Byte) (hdue : s.host.resetAfter ≠ some 0)
    (h : nextAnswer s.host.snk = some (r, rest)) :
    Logged [.push b (!r.fail)] s
      (s.setHost { countDown s.host with snk := rest, trace := s.host.trace ++ [.push b (!r.fail)] }) where
  toIoDone := by
    obtain ⟨-, -, -, es, hes⟩ := IoExtends.push b h
    obtain rfl : [IoEvent.push b (!r.fail)] = es := List.append_cancel_left hes.trace
    exact hes
  inTime := by
    cases hn : s.host.resetAfter with
    | none => simp [countDown, hn]
    | some n =>
      have hpos : n ≠ 0 := fun h0 => hdue (by rw [hn, h0])
      simp [countDown, hn]
      omega

theorem after_of_nextAnswer_none {α : Type} {a : Answers α} (h : nextAnswer a = none) : a.after = none := by
  obtain ⟨q, l⟩ := a
  cases q <;> cases l <;> simp [nextAnswer] at h ⊢

theorem logs_srcPull (s : State) :
    Logs s (fun es a t => es = [.pull a] ∧ ∃ h, t = s.setHost h) (fun _ => False) (srcPull s) := by
  rcases srcPull_cases s with ⟨hdue, h⟩ | ⟨hdue, r, rest, hn, h⟩ | ⟨-, hn, h⟩ <;> rw [h]
  · exact fun h0 => by rw [h0] at hdue; cases hdue
  · exact ⟨_, .pull hdue hn, rfl, _, rfl⟩
  · exact ⟨rfl, .inl (after_of_nextAnswer_none hn)⟩

theorem logs_pushByte (b : Byte) (s : State) :
    Logs s (fun es _ t => es = [.push b true] ∧ ∃ h, t = s.setHost h) (fun es => es = [.push b false]) (pushByte b s) := by
  rcases sinkPush_cases b s with ⟨hdue, h⟩ | ⟨hdue, r, rest, hn, h⟩ | ⟨-, hn, h⟩ <;> rw [pushByte, h]
  · exact fun h0 => by rw [h0] at hdue; cases hdue
  · have hlog := Logged.push b hdue hn
    cases hf : r.fail <;> rw [hf] at hlog
    · exact ⟨_, hlog, rfl, _, rfl⟩
    · exact ⟨_, hlog.toIoDone, rfl⟩
  · exact ⟨rfl, .inr (after_of_nextAnswer_none hn)⟩

/-! ### The writer -/

/-- `n` bits were written: the sink took every byte they completed, and the rest is pending (41_writer.md R124). -/
structure Wrote (n : Nat) (s : State) (es : List IoEvent) (t : State) : Prop where
  pulled : pulledAnswers es = []
  pushed : ∃ m, pushedAnswers es = List.replicate m true ∧ 8 * m + t.wacc.count.val = s.wacc.count.val + n
  room : t.wacc.count.val < 8
  phase : t.phase = s.phase

/-- Of `n` bits to write, the sink refused a byte that they completed (R120). -/
structure WriteRefused (n : Nat) (s : State) (es : List IoEvent) : Prop where
  pulled : pulledAnswers es = []
  pushed : ∃ m, pushedAnswers es = List.replicate m true ++ [false] ∧ 8 * (m + 1) ≤ s.wacc.count.val + n

theorem Wrote.trans {m n : Nat} {s t u : State} {es fs : List IoEvent} (h : Wrote m s es t) (k : Wrote n t fs u) :
    Wrote (m + n) s (es ++ fs) u := by
  obtain ⟨i, hi, hic⟩ := h.pushed
  obtain ⟨j, hj, hjc⟩ := k.pushed
  exact ⟨by rw [pulledAnswers_append, h.pulled, k.pulled]; rfl,
    ⟨i + j, by rw [pushedAnswers_append, hi, hj, List.replicate_append_replicate], by omega⟩, k.room,
    k.phase.trans h.phase⟩

theorem Wrote.refused {m n : Nat} {s t : State} {es fs : List IoEvent} (h : Wrote m s es t) (k : WriteRefused n t fs) :
    WriteRefused (m + n) s (es ++ fs) := by
  obtain ⟨i, hi, hic⟩ := h.pushed
  obtain ⟨j, hj, hjc⟩ := k.pushed
  exact ⟨by rw [pulledAnswers_append, h.pulled, k.pulled]; rfl,
    i + j, by rw [pushedAnswers_append, hi, hj, ← List.append_assoc, List.replicate_append_replicate], by omega⟩

theorem WriteRefused.mono {m n : Nat} {s : State} {es : List IoEvent} (h : WriteRefused m s es) (hmn : m ≤ n) :
    WriteRefused n s es := by
  obtain ⟨hpulled, j, hj, hjc⟩ := h
  exact ⟨hpulled, j, hj, by omega⟩

/-- A run of the writer that writes `n` bits, in terms of the record. -/
abbrev LogsWrite (n : Nat) (s : State) (r : Run Unit) : Prop :=
  Logs s (fun es _ t => Wrote n s es t) (WriteRefused n s) r

/-- Two writes in sequence. -/
theorem LogsWrite.andThen {m n : Nat} {s : State} {r : Run Unit} {k : Unit → State → Run Unit} (hr : LogsWrite m s r)
    (hk : ∀ a t, t.wacc.count.val < 8 → LogsWrite n t (k a t)) : LogsWrite (m + n) s (andThen r k) :=
  Logs.andThen hr (fun _ h => h.mono (Nat.le_add_right m n)) fun _ a t h =>
    (hk a t h.room).mono (fun _ _ _ hu => h.trans hu) fun _ hu => h.refused hu

theorem logsWrite_drainIfFull (s : State) : LogsWrite 0 s (drainIfFull s) := by
  by_cases hc : s.wacc.count.val = 8
  · rw [drainIfFull_of_full hc]
    refine (logs_pushByte s.wacc.bits s).andThen ?_ ?_
    · rintro _ rfl
      exact ⟨rfl, 0, rfl, by omega⟩
    · rintro _ _ _ ⟨rfl, h, rfl⟩
      exact .ok rfl ⟨rfl, ⟨1, rfl, by simp [BitAcc.empty, hc]⟩, by simp [BitAcc.empty], rfl⟩
  · have hroom : s.wacc.count.val < 8 := by omega
    rw [drainIfFull_of_not_full hroom]
    exact .ok rfl ⟨rfl, ⟨0, rfl, by omega⟩, hroom, rfl⟩

theorem logsWrite_writeLoop (bs : List Bool) {s : State} (hc : s.wacc.count.val < 8) :
    LogsWrite bs.length s (writeLoop bs s) := by
  induction bs generalizing s with
  | nil => exact .ok rfl ⟨rfl, ⟨0, rfl, by simp⟩, hc, rfl⟩
  | cons b bs ih =>
    have hpush := count_pushBit (a := s.wacc) b hc
    have hround : LogsWrite 1 s (drainIfFull (s.setWacc (pushBit s.wacc b))) := by
      refine .of_host_eq (t := s.setWacc (pushBit s.wacc b)) rfl ((logsWrite_drainIfFull _).mono ?_ ?_)
      · rintro es _ t ⟨hpulled, ⟨m, hm, hmc⟩, hroom, hphase⟩
        rw [setWacc_wacc] at hmc
        exact ⟨hpulled, ⟨m, hm, by omega⟩, hroom, hphase⟩
      · rintro es ⟨hpulled, m, hm, hmc⟩
        rw [setWacc_wacc] at hmc
        exact ⟨hpulled, m, hm, by omega⟩
    rw [List.length_cons, Nat.add_comm]
    exact hround.andThen fun _ t ht => ih ht

/-- `WriteBits(v, w)` from any count (41_writer.md R124). -/
theorem logsWrite_writeBits (w : Nat) (v : BitVec w) (s : State) : LogsWrite w s (writeBits w v s) := by
  have hwrite : LogsWrite (0 + w) s (writeBits w v s) :=
    LogsWrite.andThen (logsWrite_drainIfFull s) fun _ t ht => by simpa using logsWrite_writeLoop (msbBits w v) ht
  rwa [Nat.zero_add] at hwrite

/-- FlushW's own push, once the padding escape is written or is not needed: of at least one bit. -/
theorem logs_flushPending {s : State} (h : 0 < s.wacc.count.val) :
    Logs s (fun es _ t => pulledAnswers es = [] ∧ pushedAnswers es = [true] ∧ t.phase = s.phase)
      (fun es => pulledAnswers es = [] ∧ pushedAnswers es = [false]) (flushPending s) := by
  rw [flushPending_pending h]
  refine (logs_pushByte _ s).andThen ?_ ?_
  · rintro _ rfl
    exact ⟨rfl, rfl⟩
  · rintro _ _ _ ⟨rfl, h, rfl⟩
    exact .ok rfl ⟨rfl, rfl, rfl⟩

/-- `FlushW()` pushes one byte where bits are pending (R123). -/
theorem logs_flushW {s : State} (h : 0 < s.wacc.count.val) :
    Logs s (fun es _ t => pulledAnswers es = [] ∧ pushedAnswers es = [true] ∧ t.phase = s.phase)
      (fun es => pulledAnswers es = [] ∧ pushedAnswers es = [false]) (flushW s) := by
  by_cases h4 : 4 ≤ s.wacc.count.val
  · rw [flushW_of_plain h4]
    exact logs_flushPending h
  · rw [flushW_of_escape h (by omega)]
    refine Logs.andThen (logsWrite_writeBits 5 ESC s) ?_ ?_
    · rintro es ⟨hpulled, m, hm, hmc⟩
      obtain rfl : m = 0 := by omega
      exact ⟨hpulled, hm⟩
    · rintro es _ t ⟨hpulled, ⟨m, hm, hmc⟩, hroom, hphase⟩
      by_cases h0 : t.wacc.count.val = 0
      · obtain rfl : m = 1 := by omega
        rw [flushPending, if_neg (by omega)]
        exact .ok rfl ⟨by rw [List.append_nil, hpulled], by rw [List.append_nil, hm]; rfl, hphase⟩
      · obtain rfl : m = 0 := by omega
        refine (logs_flushPending (by omega)).mono ?_ ?_
        · rintro fs _ u ⟨hfs, hfs', hu⟩
          exact ⟨by rw [pulledAnswers_append, hpulled, hfs]; rfl, by rw [pushedAnswers_append, hm, hfs']; rfl,
            hu.trans hphase⟩
        · rintro fs ⟨hfs, hfs'⟩
          exact ⟨by rw [pulledAnswers_append, hpulled, hfs]; rfl, by rw [pushedAnswers_append, hm, hfs']; rfl⟩

/-! ### C.STEP -/

/-- An answer that C.STEP goes on after. -/
def IsAscii (a : SrcAnswer) : Prop := ∃ b : Byte, a = .byte b ∧ b.toNat < 0x80

/-- C.STEP ended well: after an ASCII byte, its token written, or at the end of the input. -/
inductive CompressLog (s : State) (es : List IoEvent) (t : State) : Prop
  | byte (b : Byte) (m : Nat) (ascii : b.toNat < 0x80) (pulled : pulledAnswers es = [.byte b])
      (pushed : pushedAnswers es = List.replicate m true)
      (bits : 8 * m + t.wacc.count.val = s.wacc.count.val + (tokenBits (tokenOfByte s.params b)).length)
      (room : t.wacc.count.val < 8) (phase : t.phase = s.phase)
  | endOfStream (pulled : pulledAnswers es = [.endOfStream])
      (pushed : pushedAnswers es = List.replicate (if s.wacc.count.val = 0 then 0 else 1) true) (phase : t.phase = .done)

/-- C.STEP raised: on what the source answered, or where the sink refused a byte of the token or the last byte. -/
inductive CompressRaised (s : State) (es : List IoEvent) : Prop
  | source (a : SrcAnswer) (bad : ¬ IsAscii a) (noEnd : a ≠ .endOfStream) (pulled : pulledAnswers es = [a])
      (pushed : pushedAnswers es = [])
  | token (b : Byte) (m : Nat) (pulled : pulledAnswers es = [.byte b])
      (pushed : pushedAnswers es = List.replicate m true ++ [false]) (bits : 8 * (m + 1) ≤ s.wacc.count.val + 13)
  | flush (pulled : pulledAnswers es = [.endOfStream]) (pushed : pushedAnswers es = [false])

/-- The bits of a byte's token (30_encoding.md R72, R73). -/
theorem logsWrite_token {b : Byte} (s : State) :
    LogsWrite (tokenBits (tokenOfByte s.params b)).length s
      (andThen (writeBits 5 (encodeByte s.params b) s) fun _ t =>
        if encodeByte s.params b = ESC then writeBits 8 b t else done t) := by
  rw [length_tokenBits_tokenOfByte]
  refine (logsWrite_writeBits 5 _ s).andThen fun _ t ht => ?_
  split
  · exact logsWrite_writeBits 8 b t
  · exact .ok rfl ⟨rfl, ⟨0, rfl, by simp⟩, ht, rfl⟩

/-- C.STEP from any state (44_pipeline.md R191, R209). -/
theorem logs_compressStep (s : State) :
    Logs s (fun es _ t => CompressLog s es t) (CompressRaised s) (compressStep s) := by
  refine (logs_srcPull s).andThen (fun _ h => h.elim) ?_
  rintro _ a _ ⟨rfl, h, rfl⟩
  cases a with
  | ioFail => exact .raised rfl (.source .ioFail (by simp [IsAscii]) nofun rfl rfl)
  | endOfStream =>
    by_cases h0 : s.wacc.count.val = 0
    · have hflush : flushW (s.setHost h) = done (s.setHost h) := if_pos h0
      change Logs _ _ _ (compressEnd (s.setHost h))
      rw [compressEnd, hflush]
      exact .ok rfl (.endOfStream rfl (by rw [if_pos h0]; rfl) rfl)
    · refine (logs_flushW (s := s.setHost h) (Nat.pos_of_ne_zero h0)).andThen ?_ ?_
      · rintro es ⟨hpulled, hpushed⟩
        exact .flush (by rw [pulledAnswers_append, hpulled]; rfl) (by rw [pushedAnswers_append, hpushed]; rfl)
      · rintro es _ t ⟨hpulled, hpushed, hphase⟩
        exact .ok rfl (.endOfStream (by rw [List.append_nil, pulledAnswers_append, hpulled]; rfl)
          (by rw [List.append_nil, pushedAnswers_append, hpushed, if_neg h0]; rfl) rfl)
  | byte b =>
    by_cases hb : 0x80 ≤ b.toNat
    · change Logs _ _ _ (compressByte b (s.setHost h))
      rw [compressByte, if_pos hb]
      exact .raised rfl (.source (.byte b) (by simp [IsAscii]; omega) nofun rfl rfl)
    · change Logs _ _ _ (compressByte b (s.setHost h))
      rw [compressByte, if_neg hb, ← andThen_assoc]
      have hlen := length_tokenBits_tokenOfByte s.params b
      refine Logs.andThen (logsWrite_token (b := b) (s.setHost h)) ?_ ?_
      · rintro es ⟨hpulled, m, hm, hmc⟩
        refine .token b m (by rw [pulledAnswers_append, hpulled]; rfl) (by rw [pushedAnswers_append, hm]; rfl) ?_
        rw [setHost_wacc, setHost_params] at hmc
        split at hlen <;> omega
      · rintro es _ t ⟨hpulled, ⟨m, hm, hmc⟩, hroom, hphase⟩
        exact .ok rfl (.byte b m (by omega) (by rw [List.append_nil, pulledAnswers_append, hpulled]; rfl)
          (by rw [List.append_nil, pushedAnswers_append, hm]; rfl) hmc hroom hphase)

/-! ### The reader -/

/-- `ReadBits(w)` from any count: a value takes at most one byte, and leaves at most what it and the held bits are beyond w
(42_reader.md R145, R146). -/
theorem logs_readBits {w : Nat} (h8 : w ≤ 8) (s : State) :
    Logs s (fun es r t => pushedAnswers es = [] ∧ t.phase = s.phase ∧
        ((r = none ∧ pulledAnswers es = [.endOfStream]) ∨
          ∃ v, ∃ bytes : List Byte, r = some v ∧ pulledAnswers es = bytes.map .byte ∧ bytes.length ≤ 1 ∧
            t.racc.count.val + w ≤ s.racc.count.val + 8 * bytes.length))
      (fun es => pushedAnswers es = [] ∧ pulledAnswers es = [.ioFail]) (readBits w s) := by
  by_cases hc : w ≤ s.racc.count.val
  · rw [readBits_fast hc]
    refine .ok rfl ⟨rfl, rfl, .inr ⟨_, [], rfl, rfl, by simp, ?_⟩⟩
    rw [setRacc_racc, accOf_count (by simp; omega)]
    simp
    omega
  · rw [readBits, if_neg hc]
    refine (logs_srcPull s).andThen (fun _ h => h.elim) ?_
    rintro _ a _ ⟨rfl, h, rfl⟩
    cases a with
    | endOfStream => exact .ok rfl ⟨rfl, rfl, .inl ⟨rfl, rfl⟩⟩
    | ioFail => exact .raised rfl ⟨rfl, rfl⟩
    | byte B =>
      refine .ok rfl ⟨rfl, rfl, .inr ⟨_, [B], rfl, rfl, le_rfl, ?_⟩⟩
      have hlt : s.racc.count.val < w := by omega
      rw [setRacc_racc, setHost_racc, setHost_params]
      cases s.params.readerMode with
      | retain =>
        rw [refill_retain_acc B h8 hlt, accOf_count (by simp; omega)]
        simp
        omega
      | discard =>
        rw [refill_discard_acc B h8 hlt]
        simp [BitAcc.empty]
        omega

/-! ### D.BEGIN and D.STEP -/

/-- An answer that D.STEP goes on after. -/
def IsByte (a : SrcAnswer) : Prop := ∃ b : Byte, a = .byte b

/-- D.STEP ended well: it emitted a byte, or the stream ended. -/
inductive DecompressLog (s : State) (es : List IoEvent) (t : State) : Prop
  | emitted (bytes : List Byte) (pulled : pulledAnswers es = bytes.map .byte) (few : bytes.length ≤ 2)
      (pushed : pushedAnswers es = [true]) (bits : t.racc.count.val + 5 ≤ s.racc.count.val + 8 * bytes.length)
      (phase : t.phase = s.phase)
  | ended (bytes : List Byte) (pulled : pulledAnswers es = bytes.map .byte ++ [.endOfStream]) (few : bytes.length ≤ 1)
      (pushed : pushedAnswers es = []) (phase : t.phase = .done)

/-- D.STEP raised: on what the source answered, or where the sink refused the byte. -/
inductive DecompressRaised (es : List IoEvent) : Prop
  | source (bytes : List Byte) (a : SrcAnswer) (bad : ¬ IsByte a) (pulled : pulledAnswers es = bytes.map .byte ++ [a])
      (few : bytes.length ≤ 1) (pushed : pushedAnswers es = [])
  | sink (bytes : List Byte) (pulled : pulledAnswers es = bytes.map .byte) (few : bytes.length ≤ 2)
      (pushed : pushedAnswers es = [false])

/-- The version read of D.BEGIN finds no bits held, so it pulls once; nothing is pushed (R200, R209). -/
theorem logs_decompressBegin (s : State) :
    Logs s (fun es _ _ => pullCount es = 1 ∧ pushCount es = 0) (fun es => pullCount es = 1 ∧ pushCount es = 0)
      (decompressBegin s) := by
  simp only [← length_pulledAnswers, ← length_pushedAnswers]
  refine Logs.of_host_eq (t := clearErrorAndAccs s) rfl
    ((logs_readBits (w := 5) (by decide) (clearErrorAndAccs s)).andThen ?_ ?_)
  · rintro es ⟨hpushed, hpulled⟩
    simp [hpushed, hpulled]
  · rintro es _ t ⟨hpushed, -, ⟨rfl, hpulled⟩ | ⟨v, bytes, rfl, hpulled, hfew, hbits⟩⟩
    · exact .raised rfl (by simp [hpushed, hpulled])
    · have hone : bytes.length = 1 := by
        simp [BitAcc.empty] at hbits
        omega
      change Logs _ _ _ (acceptVersion v t)
      unfold acceptVersion
      split
      · exact .raised rfl (by simp [hpushed, hpulled, hone])
      · exact .ok rfl (by simp [hpushed, hpulled, hone])

/-- The byte of a token that was read is pushed. -/
theorem logs_emitLiteral (l : Byte) (s : State) :
    Logs s (fun es _ t => pulledAnswers es = [] ∧ pushedAnswers es = [true] ∧ t.racc = s.racc ∧ t.phase = s.phase)
      (fun es => pulledAnswers es = [] ∧ pushedAnswers es = [false]) (emitLiteral l s) := by
  refine (logs_pushByte l s).andThen ?_ ?_
  · rintro _ rfl
    exact ⟨rfl, rfl⟩
  · rintro _ _ _ ⟨rfl, h, rfl⟩
    exact .ok rfl ⟨rfl, rfl, rfl, rfl⟩

/-- The end of D.STEP, once its reads have returned the byte to emit. -/
theorem logs_emitLiteral_after {s t : State} {es : List IoEvent} {bytes : List Byte} (l : Byte)
    (hpulled : pulledAnswers es = bytes.map .byte) (hpushed : pushedAnswers es = []) (hfew : bytes.length ≤ 2)
    (hbits : t.racc.count.val + 5 ≤ s.racc.count.val + 8 * bytes.length) (hphase : t.phase = s.phase) :
    Logs t (fun fs _ u => DecompressLog s (es ++ fs) u) (fun fs => DecompressRaised (es ++ fs)) (emitLiteral l t) := by
  refine (logs_emitLiteral l t).mono ?_ ?_
  · rintro fs _ u ⟨hfs, hfs', hracc, hu⟩
    exact .emitted bytes (by rw [pulledAnswers_append, hpulled, hfs, List.append_nil]) hfew
      (by rw [pushedAnswers_append, hpushed, hfs']; rfl) (by rwa [hracc]) (hu.trans hphase)
  · rintro fs ⟨hfs, hfs'⟩
    exact .sink bytes (by rw [pulledAnswers_append, hpulled, hfs, List.append_nil]) hfew
      (by rw [pushedAnswers_append, hpushed, hfs']; rfl)

/-- D.STEP from any state (R201 to R204, R209). -/
theorem logs_decompressStep (s : State) :
    Logs s (fun es _ t => DecompressLog s es t) DecompressRaised (decompressStep s) := by
  refine (logs_readBits (w := 5) (by decide) s).andThen ?_ ?_
  · rintro es ⟨hpushed, hpulled⟩
    exact .source [] .ioFail (by simp [IsByte]) hpulled (by simp) hpushed
  · rintro es _ t ⟨hpushed, hphase, ⟨rfl, hpulled⟩ | ⟨c, bytes, rfl, hpulled, hfew, hbits⟩⟩
    · exact .ok rfl (.ended [] (by rw [List.append_nil, hpulled]; rfl) (by simp) (by rw [List.append_nil, hpushed]) rfl)
    · change Logs _ _ _ (if c = ESC then escapeLiteral t else emitSymbol c t)
      split
      next =>
        refine (logs_readBits (w := 8) le_rfl t).andThen ?_ ?_
        · rintro fs ⟨hfs', hfs⟩
          exact .source bytes .ioFail (by simp [IsByte]) (by rw [pulledAnswers_append, hpulled, hfs]) hfew
            (by rw [pushedAnswers_append, hpushed, hfs']; rfl)
        · rintro fs _ u ⟨hfs', hu, ⟨rfl, hfs⟩ | ⟨l, more, rfl, hfs, hmore, hbits'⟩⟩
          · change Logs _ _ _ (terminalEscape u)
            have hpulled' : pulledAnswers (es ++ (fs ++ [])) = bytes.map .byte ++ [.endOfStream] := by
              rw [List.append_nil, pulledAnswers_append, hpulled, hfs]
            have hpushed' : pushedAnswers (es ++ (fs ++ [])) = [] := by
              rw [List.append_nil, pushedAnswers_append, hpushed, hfs']
              rfl
            unfold terminalEscape
            split
            · exact .ok rfl (.ended bytes hpulled' hfew hpushed' rfl)
            · exact .raised rfl (.source bytes .endOfStream (by simp [IsByte]) hpulled' hfew hpushed')
          · simp only [← List.append_assoc]
            refine logs_emitLiteral_after (s := s) (bytes := bytes ++ more) l ?_ ?_ ?_ ?_ (hu.trans hphase)
            · rw [pulledAnswers_append, hpulled, hfs, List.map_append]
            · rw [pushedAnswers_append, hpushed, hfs']
              rfl
            · rw [List.length_append]
              omega
            · rw [List.length_append]
              omega
      next hc =>
        obtain ⟨d, hd⟩ := decodeCode_of_ne_ESC t.params hc
        rw [emitSymbol_some hd]
        exact logs_emitLiteral_after (s := s) d hpulled hpushed (by omega) hbits hphase

/-! ### The counts (R209) -/

theorem mem_pulledAnswers {a : SrcAnswer} {es : List IoEvent} (h : .pull a ∈ es) : a ∈ pulledAnswers es :=
  List.mem_filterMap.mpr ⟨_, h, rfl⟩

/-- C.STEP's counts. -/
theorem counts_compressStep {s : State} {es : List IoEvent} (h : (∃ t, CompressLog s es t) ∨ CompressRaised s es) :
    pullCount es = 1 ∧ pushCount es ≤ 2 ∧ (pushCount es = 2 → 3 ≤ s.wacc.count.val) ∧
      (.pull .endOfStream ∈ es → pushCount es ≤ 1) := by
  rw [← length_pulledAnswers, ← length_pushedAnswers]
  have hend {b : Byte} (hp : pulledAnswers es = [.byte b]) (hmem : .pull .endOfStream ∈ es) : False := by
    have := mem_pulledAnswers hmem
    simp [hp] at this
  rcases h with ⟨t, ⟨b, m, -, hp, hq, hbits, -, -⟩ | ⟨hp, hq, -⟩⟩ | ⟨a, -, -, hp, hq⟩ | ⟨b, m, hp, hq, hbits⟩ | ⟨hp, hq⟩
  · have hlen := length_tokenBits_tokenOfByte s.params b
    have hm : 8 * m ≤ s.wacc.count.val + 13 := by split at hlen <;> omega
    rw [hp, hq, List.length_replicate]
    exact ⟨rfl, by omega, fun h2 => by omega, fun hmem => (hend hp hmem).elim⟩
  · rw [hp, hq, List.length_replicate]
    split <;> simp
  · simp [hp, hq]
  · have hlen : (List.replicate m true ++ [false]).length = m + 1 := by simp
    rw [hp, hq, hlen]
    exact ⟨rfl, by omega, fun h2 => by omega, fun hmem => (hend hp hmem).elim⟩
  · simp [hp, hq]

/-- D.STEP's counts. -/
theorem counts_decompressStep {s : State} {es : List IoEvent} (h : (∃ t, DecompressLog s es t) ∨ DecompressRaised es) :
    pullCount es ≤ 2 ∧ pushCount es ≤ 1 := by
  rw [← length_pulledAnswers, ← length_pushedAnswers]
  rcases h with ⟨t, ⟨bytes, hp, hfew, hq, -, -⟩ | ⟨bytes, hp, hfew, hq, -⟩⟩ | ⟨bytes, a, -, hp, hfew, hq⟩ |
    ⟨bytes, hp, hfew, hq⟩ <;> simp [hp, hq] <;> omega

/-- Settles O29, from the record of each command's body. -/
theorem ioCounts : Obligations.IoCounts := by
  intro s t es hw htrace
  refine ⟨fun hl h => ?_, fun hp h => ?_, fun hl h => ?_, fun hp h => ?_⟩
  · rw [cBeginRuns s hl] at h
    cases h
    simpa using htrace
  · rw [exec_cStep hp] at h
    exact counts_compressStep ((logs_compressStep s).of_settle hw h htrace)
  · rw [exec_legal rfl hl] at h
    rcases (logs_decompressBegin s).of_settle hw h htrace with ⟨-, hcounts⟩ | hcounts <;> exact hcounts
  · rw [exec_dStep hp] at h
    exact counts_decompressStep ((logs_decompressStep s).of_settle hw h htrace)

end Sys2Proof.Machine
end

section
/-! PROOFS. A command that waits for a host that does not answer (60_exceptions.md R243, log 4): the record of an end it could
have asks more of the port than the host gives. -/

namespace Sys2Proof.Machine

/-! ### A sink that answers no push, or one -/

theorem takeAnswers_of_silent {α : Type} {a : Answers α} (h : nextAnswer a = none) (n : Nat) : takeAnswers n a = [] := by
  obtain ⟨q, l⟩ := a
  cases q <;> cases l <;> simp [nextAnswer, takeAnswers] at h ⊢

/-- To a silent sink no push is done. -/
theorem IoDone.pushed_of_silent {es : List IoEvent} {s t : State} (h : IoDone es s t)
    (hn : nextAnswer s.host.snk = .none) : pushedAnswers es = [] := by
  rw [h.pushed, takeAnswers_of_silent hn]
  rfl

/-- To a sink that answers one push, at most that one is done. -/
theorem IoDone.pushed_of_secondSilent {es : List IoEvent} {s t : State} (h : IoDone es s t) (hn : SecondPushSilent s) :
    ∃ m ≤ 1, pushedAnswers es = List.replicate m true := by
  obtain ⟨r, more, hr, hf, hmore⟩ := hn
  rw [h.pushed]
  cases pushCount es with
  | zero => exact ⟨0, by decide, by simp⟩
  | succ n =>
    refine ⟨1, le_rfl, ?_⟩
    rw [Nat.add_comm, takeAnswers_add, takeAnswers_one hr, dropAnswers_one hr, takeAnswers_of_silent hmore]
    simp [hf]

/-- The first answer of the source is the first one pulled. -/
theorem IoDone.pulled_of_nextPull {es : List IoEvent} {s t : State} {a a' : SrcAnswer} {rest : Answers SrcReply}
    (h : IoDone es s t) (hn : NextPull s a rest) (hp : pulledAnswers es = [a']) : a' = a := by
  obtain ⟨r, hr, rfl⟩ := hn
  have hone : pullCount es = 1 := by rw [← length_pulledAnswers, hp]; rfl
  have hpulled := h.pulled
  rw [hone, takeAnswers_one hr, hp] at hpulled
  simpa using hpulled

/-- A refusal is never recorded where the sink has only accepted. -/
theorem replicate_true_ne_refused (m n : Nat) : List.replicate m true ≠ List.replicate n true ++ [false] := by
  intro h
  have hmem : false ∈ List.replicate m true := h ▸ List.mem_append_right _ (List.mem_singleton_self false)
  exact nomatch List.eq_of_mem_replicate hmem

theorem replicate_true_inj {m n : Nat} (h : List.replicate m true = List.replicate n true) : m = n := by
  simpa using congrArg List.length h

/-- A sink that accepts at most `n` pushes and answers no more. -/
def AcceptsAtMost (n : Nat) (s : State) : Prop :=
  ∀ es t, IoDone es s t → ∃ m ≤ n, pushedAnswers es = List.replicate m true

theorem acceptsAtMost_zero {s : State} (h : nextAnswer s.host.snk = none) : AcceptsAtMost 0 s :=
  fun _ _ hes => ⟨0, le_rfl, hes.pushed_of_silent h⟩

theorem acceptsAtMost_one {s : State} (h : SecondPushSilent s) : AcceptsAtMost 1 s :=
  fun _ _ hes => hes.pushed_of_secondSilent h

section
variable {n : Nat} {s : State} (hw : HostWaits s) (hn : AcceptsAtMost n s)
include hw hn

/-- Bits that complete more bytes than the sink takes are never written (41_writer.md R124). -/
theorem settle_write_silent {w : Nat} {r : Run Unit} (h : LogsWrite w s r) (hbits : 8 * (n + 1) ≤ s.wacc.count.val + w) :
    settle r = .fault .hostSilent := by
  refine h.settle_stuck hw ?_ ?_
  · rintro es t u hes ⟨-, ⟨m, hm, hmc⟩, hroom, -⟩
    obtain ⟨k, hk, hpushed⟩ := hn es t hes
    obtain rfl := replicate_true_inj (hm.symm.trans hpushed)
    omega
  · rintro es t hes ⟨-, m, hm, -⟩
    obtain ⟨k, -, hpushed⟩ := hn es t hes
    exact replicate_true_ne_refused k m (hpushed.symm.trans hm)

/-- C.STEP where the byte's token completes more bytes than the sink takes (44_pipeline.md R191). -/
theorem settle_compressStep_byte_silent {b : Byte} {rest : Answers SrcReply} (hpull : NextPull s (.byte b) rest)
    (hb : b.toNat < 0x80) (hbits : 8 * (n + 1) ≤ s.wacc.count.val + (tokenBits (tokenOfByte s.params b)).length) :
    settle (compressStep s) = .fault .hostSilent := by
  refine (logs_compressStep s).settle_stuck hw ?_ ?_
  · intro es t u hes hlog
    obtain ⟨k, hk, hpushed⟩ := hn es t hes
    cases hlog with
    | byte b' m _ hp hq hmc hroom _ =>
      cases hes.pulled_of_nextPull hpull hp
      obtain rfl := replicate_true_inj (hq.symm.trans hpushed)
      omega
    | endOfStream hp _ _ => cases hes.pulled_of_nextPull hpull hp
  · intro es t hes hlog
    obtain ⟨k, -, hpushed⟩ := hn es t hes
    cases hlog with
    | source a hbad _ hp _ => exact hbad ⟨b, hes.pulled_of_nextPull hpull hp, hb⟩
    | token _ m _ hq _ => exact replicate_true_ne_refused k m (hpushed.symm.trans hq)
    | flush _ hq => exact replicate_true_ne_refused k 0 (hpushed.symm.trans hq)

end

/-- C.STEP at the end of the input with bits pending (R191, 41_writer.md R123). -/
theorem settle_compressStep_end_silent {s : State} {rest : Answers SrcReply} (hw : HostWaits s)
    (hn : nextAnswer s.host.snk = none) (hpull : NextPull s .endOfStream rest) (hc : 1 ≤ s.wacc.count.val) :
    settle (compressStep s) = .fault .hostSilent := by
  refine (logs_compressStep s).settle_stuck hw ?_ ?_
  · intro es t u hes hlog
    have hpushed := hes.pushed_of_silent hn
    cases hlog with
    | byte b _ _ hp _ _ _ _ => cases hes.pulled_of_nextPull hpull hp
    | endOfStream _ hq _ =>
      rw [hpushed, if_neg (by omega)] at hq
      cases hq
  · intro es t hes hlog
    have hpushed := hes.pushed_of_silent hn
    cases hlog with
    | source a _ hne hp _ => exact hne (hes.pulled_of_nextPull hpull hp)
    | token _ m _ hq _ => exact replicate_true_ne_refused 0 m (hpushed.symm.trans hq)
    | flush _ hq => cases hpushed.symm.trans hq

/-- The response of a WR.* command comes after its write. -/
theorem logsWrite_writerResponse {w : Nat} {s : State} {r : Run Unit} (h : LogsWrite w s r) :
    LogsWrite w s (andThen r fun _ t => writerResponse t) :=
  LogsWrite.andThen (n := 0) h fun _ _ ht => .ok rfl ⟨rfl, ⟨0, rfl, by simp⟩, ht, rfl⟩

/-! ### The readers and the commands that emit a byte -/

theorem settle_andThen_stuck {α : Type} {r : Run α} {f : Fault} (k : α → State → Run Unit) (h : r = .stuck f) :
    settle (andThen r k) = .fault f := by
  rw [h]
  rfl

/-- A byte that D.STEP is to emit waits for the sink. -/
theorem settle_emitLiteral_silent {s : State} (l : Byte) (hw : HostWaits s) (hn : nextAnswer s.host.snk = none) :
    settle (emitLiteral l s) = .fault .hostSilent :=
  settle_andThen_stuck _ (pushByte_silent l hw hn)

/-- Every code below ESC has an entry to emit. -/
theorem emitSymbol_of_ne_ESC {c : Code} (s : State) (hc : c ≠ ESC) : ∃ d, emitSymbol c s = emitLiteral d s := by
  obtain ⟨d, hd⟩ := decodeCode_of_ne_ESC s.params hc
  exact ⟨d, emitSymbol_some hd⟩

/-- The commands that wait for the source. -/
theorem stuck_on_source {s : State} (hw : HostWaits s) (hn : nextAnswer s.host.src = none) :
    (s.phase = .idle → s.racc.count.val < 5 → exec .rdRead5 s = .fault .hostSilent) ∧
    (s.phase = .idle → s.racc.count.val < 8 → exec .rdRead8 s = .fault .hostSilent) ∧
    (s.phase = .compress → exec .cStep s = .fault .hostSilent) ∧
    (legal .begin s.phase = true → exec .dBegin s = .fault .hostSilent) ∧
    (s.phase = .decompress → s.racc.count.val < 5 → exec .dStep s = .fault .hostSilent) := by
  refine ⟨fun hp hc => ?_, fun hp hc => ?_, fun hp => ?_, fun hl => ?_, fun hp hc => ?_⟩
  · rw [exec_rdRead5 hp]
    exact settle_andThen_stuck _ (readBits_silent hc hw hn)
  · rw [exec_rdRead8 hp]
    exact settle_andThen_stuck _ (readBits_silent hc hw hn)
  · rw [exec_cStep hp]
    exact settle_andThen_stuck _ (srcPull_silent hw hn)
  · rw [exec_legal rfl hl]
    exact settle_andThen_stuck _ (readBits_silent (s := clearErrorAndAccs s) (Nat.zero_lt_succ 4) hw hn)
  · rw [exec_dStep hp]
    exact settle_andThen_stuck _ (readBits_silent hc hw hn)

/-- D.STEP that waits for the literal of an escape (44_pipeline.md R202). -/
theorem decompressStep_literal_silent {s t : State} (hw : HostWaits s) (h : Reads 5 s ESC t) (hc : t.racc.count.val < 8)
    (hn : nextAnswer t.host.src = none) : decompressStep s = .stuck .hostSilent := by
  rw [decompressStep_escape hw h, escapeLiteral, readBits_silent hc (h.waits hw) hn, andThen_stuck]

/-- The commands of the writer that wait for the sink's answer to their first push. -/
theorem writer_stuck_on_first_push {s : State} (hw : HostWaits s) (hp : s.phase = .idle)
    (hn : nextAnswer s.host.snk = none) :
    (∀ v, 3 ≤ s.wacc.count.val → exec (.wrWrite5 v) s = .fault .hostSilent) ∧
    (∀ v, exec (.wrWrite8 v) s = .fault .hostSilent) ∧
    (1 ≤ s.wacc.count.val → exec .wrFlush s = .fault .hostSilent) := by
  refine ⟨fun v hc => ?_, fun v => ?_, fun hc => ?_⟩ <;> rw [exec_raw_idle rfl hp]
  · exact settle_write_silent hw (acceptsAtMost_zero hn) (logsWrite_writerResponse (logsWrite_writeBits 5 v s)) (by omega)
  · exact settle_write_silent hw (acceptsAtMost_zero hn) (logsWrite_writerResponse (logsWrite_writeBits 8 v s)) (by omega)
  · refine ((logs_flushW hc).andThen (Ok' := fun es _ _ => pushedAnswers es = [true]) (fun _ h => h) ?_).settle_stuck hw ?_ ?_
    · rintro es _ t ⟨-, hpushed, -⟩
      exact .ok rfl (by rwa [List.append_nil])
    · exact fun es t u hes hq => nomatch (hes.pushed_of_silent hn).symm.trans hq
    · rintro es t hes ⟨-, hq⟩
      cases (hes.pushed_of_silent hn).symm.trans hq

/-- Settles O58, by the port that is silent and by the command that asks it. -/
theorem silentHostLeavesTheBlockStuck : Obligations.SilentHostLeavesTheBlockStuck := by
  intro s hw
  refine ⟨stuck_on_source hw, fun t hp h hc hn => ?_, fun hn => ⟨fun v hp hc => ?_, fun v hp => ?_, fun hp hc => ?_,
    fun b rest hp hpull hb hbits => ?_, fun rest hp hpull hc => ?_, fun c t hp h hc => ?_, fun t l u hp h hl => ?_⟩,
    fun hn => ⟨fun v hp hc => ?_, fun b rest hp hpull hb hbits => ?_⟩⟩
  · rw [exec_dStep hp, decompressStep_literal_silent hw h hc hn]
    rfl
  · obtain ⟨hwrite5, -, -⟩ := writer_stuck_on_first_push hw hp hn
    exact hwrite5 v hc
  · obtain ⟨-, hwrite8, -⟩ := writer_stuck_on_first_push hw hp hn
    exact hwrite8 v
  · obtain ⟨-, -, hflush⟩ := writer_stuck_on_first_push hw hp hn
    exact hflush hc
  · rw [exec_cStep hp]
    exact settle_compressStep_byte_silent hw (acceptsAtMost_zero hn) hpull hb hbits
  · rw [exec_cStep hp]
    exact settle_compressStep_end_silent hw hn hpull hc
  · obtain ⟨d, hd⟩ := emitSymbol_of_ne_ESC t hc
    rw [exec_dStep hp, decompressStep_symbol hw h hc, hd]
    exact settle_emitLiteral_silent d (h.waits hw) (by rwa [h.snk_eq])
  · rw [exec_dStep hp, decompressStep_literal hw h hl]
    exact settle_emitLiteral_silent l (hl.waits (h.waits hw)) (by rwa [hl.snk_eq, h.snk_eq])
  · rw [exec_raw_idle rfl hp]
    exact settle_write_silent hw (acceptsAtMost_one hn) (logsWrite_writerResponse (logsWrite_writeBits 8 v s)) (by omega)
  · rw [exec_cStep hp]
    exact settle_compressStep_byte_silent hw (acceptsAtMost_one hn) hpull hb hbits

end Sys2Proof.Machine
end

section
/-! PROOFS. The loop of a pass (44_pipeline.md R192, R205): its rounds one by one, and why a pass that outlasts its bound on
the rounds never ends (log 5). -/

namespace Sys2Proof.Machine

/-! ### Rounds -/

/-- `n` rounds of the loop of a pass lead from `s` to `t`, each ends well, and PHASE is still the pass's after the last. -/
inductive Rounds (p : Phase) (body : State → Run Unit) : Nat → State → State → Prop
  | zero {s : State} (phase : s.phase = p) : Rounds p body 0 s s
  | succ {n : Nat} {s t u : State} (phase : s.phase = p) (round : body s = .ok () t) (rest : Rounds p body n t u) :
      Rounds p body (n + 1) s u

section
variable {p : Phase} {body : State → Run Unit}

theorem Rounds.phase_start {n : Nat} {s t : State} (h : Rounds p body n s t) : s.phase = p := by
  cases h <;> assumption

theorem Rounds.phase_end {n : Nat} {s t : State} (h : Rounds p body n s t) : t.phase = p := by
  induction h with
  | zero phase => exact phase
  | succ _ _ _ ih => exact ih

theorem passLoop_over {s : State} (n : Nat) (h : s.phase ≠ p) : passLoop p body n s = done s := by
  cases n <;> simp [passLoop, h]

theorem passLoop_zero {s : State} (h : s.phase = p) : passLoop p body 0 s = .stuck .passNeverEnds := by
  simp [passLoop, h]

theorem passLoop_succ {s : State} (n : Nat) (h : s.phase = p) :
    passLoop p body (n + 1) s = andThen (body s) fun _ t => passLoop p body n t := by
  simp [passLoop, h]

/-- The loop goes on from where some of its rounds lead. -/
theorem Rounds.passLoop_eq {n : Nat} {s t : State} (h : Rounds p body n s t) (m : Nat) :
    passLoop p body (n + m) s = passLoop p body m t := by
  induction h with
  | zero _ => rw [Nat.zero_add]
  | succ phase round _ ih => rw [Nat.add_right_comm, passLoop_succ _ phase, round, andThen_ok, ih]

/-- The last round of the loop, after others: it ends the pass, well or not. -/
theorem Rounds.passLoop_last {n fuel : Nat} {s t : State} (h : Rounds p body n s t) (hfuel : n < fuel) :
    ∃ m, passLoop p body fuel s = andThen (body t) fun _ u => passLoop p body m u := by
  obtain ⟨m, rfl⟩ : ∃ m, fuel = n + (m + 1) := ⟨fuel - n - 1, by omega⟩
  exact ⟨m, by rw [h.passLoop_eq, passLoop_succ _ h.phase_end]⟩

/-- Either the loop ends within its bound, and a larger bound changes nothing, or it goes through all the rounds. -/
theorem passLoop_settled_or_rounds (fuel : Nat) (s : State) :
    (∀ n, fuel ≤ n → passLoop p body n s = passLoop p body fuel s) ∨ ∃ t, Rounds p body fuel s t := by
  induction fuel generalizing s with
  | zero =>
    by_cases hs : s.phase = p
    · exact .inr ⟨s, .zero hs⟩
    · exact .inl fun n _ => by rw [passLoop_over n hs, passLoop_over 0 hs]
  | succ fuel ih =>
    by_cases hs : s.phase = p
    · have hsame (h : ∀ t, body s = .ok () t → ∀ n, fuel ≤ n → passLoop p body n t = passLoop p body fuel t) (n : Nat)
          (hn : fuel + 1 ≤ n) : passLoop p body n s = passLoop p body (fuel + 1) s := by
        obtain ⟨n, rfl⟩ : ∃ k, n = k + 1 := ⟨n - 1, by omega⟩
        rw [passLoop_succ n hs, passLoop_succ fuel hs]
        cases hrun : body s with
        | ok a t => exact h t hrun n (by omega)
        | raised e t => rfl
        | cut t => rfl
        | stuck f => rfl
      cases hrun : body s with
      | ok a t =>
        rcases ih t with hsettled | ⟨u, hu⟩
        · refine .inl (hsame fun t' ht' => ?_)
          cases hrun.symm.trans ht'
          exact hsettled
        · exact .inr ⟨u, .succ hs hrun hu⟩
      | raised e t => exact .inl (hsame fun t' ht' => nomatch hrun.symm.trans ht')
      | cut t => exact .inl (hsame fun t' ht' => nomatch hrun.symm.trans ht')
      | stuck f => exact .inl (hsame fun t' ht' => nomatch hrun.symm.trans ht')
    · exact .inl fun n _ => by rw [passLoop_over n hs, passLoop_over _ hs]

/-- Where each round leads to a state that allows another, no bound is enough. -/
theorem passLoop_never_ends {P : State → Prop} (hphase : ∀ s, P s → s.phase = p)
    (hround : ∀ s, P s → ∃ t, body s = .ok () t ∧ P t) (n : Nat) {s : State} (hs : P s) :
    passLoop p body n s = .stuck .passNeverEnds := by
  induction n generalizing s with
  | zero => exact passLoop_zero (hphase s hs)
  | succ n ih =>
    obtain ⟨t, hrun, ht⟩ := hround s hs
    rw [passLoop_succ n (hphase s hs), hrun, andThen_ok, ih ht]

end

/-! ### A port used up -/

/-- A port that gave more answers than its list holds goes on giving its last one. -/
theorem takeAnswers_exhausts {α : Type} {a : Answers α} {n : Nat} (hlong : a.queued.length < n)
    (hgave : (takeAnswers n a).length = n) :
    ∃ r, r ∈ takeAnswers n a ∧ dropAnswers n a = ⟨[], some r⟩ := by
  obtain ⟨q, l⟩ := a
  cases l with
  | none =>
    simp [takeAnswers] at hgave hlong
    omega
  | some r =>
    refine ⟨r, ?_, ?_⟩
    · rw [takeAnswers_some]
      refine List.mem_append_right _ (List.mem_replicate.mpr ⟨?_, rfl⟩)
      simp only at hlong
      omega
    · simp only [dropAnswers, List.drop_of_length_le hlong.le]

theorem takeAnswers_forever {α : Type} (n : Nat) (r : α) : takeAnswers n ⟨[], some r⟩ = List.replicate n r := by
  rw [takeAnswers_some]
  simp

theorem dropAnswers_forever {α : Type} (n : Nat) (r : α) : dropAnswers n (⟨[], some r⟩ : Answers α) = ⟨[], some r⟩ := by
  simp [dropAnswers]

/-! ### A host that has only one answer left for each port -/

/-- Every pull of the record was answered as `good` says, and every push with Ok. -/
def AllGood (good : SrcAnswer → Prop) (es : List IoEvent) : Prop :=
  (∀ a ∈ pulledAnswers es, good a) ∧ ∀ x ∈ pushedAnswers es, x = true

theorem AllGood.append {good : SrcAnswer → Prop} {es fs : List IoEvent} (h : AllGood good es) (k : AllGood good fs) :
    AllGood good (es ++ fs) := by
  obtain ⟨hpulled, hpushed⟩ := h
  obtain ⟨kpulled, kpushed⟩ := k
  refine ⟨fun a ha => ?_, fun x hx => ?_⟩
  · rw [pulledAnswers_append] at ha
    exact (List.mem_append.mp ha).elim (hpulled a) (kpulled a)
  · rw [pushedAnswers_append] at hx
    exact (List.mem_append.mp hx).elim (hpushed x) (kpushed x)

/-- No reset is to come, and both ports give one answer for ever: the source a good one, the sink Ok. -/
structure EndlessHost (good : SrcAnswer → Prop) (s : State) : Prop where
  waits : HostWaits s
  src : ∃ r, s.host.src = ⟨[], some r⟩ ∧ good (srcAnswer r)
  snk : ∃ q, s.host.snk = ⟨[], some q⟩ ∧ q.fail = false

/-- Such a host gives good answers only, and is as it was after them. -/
theorem EndlessHost.of_log {good : SrcAnswer → Prop} {es : List IoEvent} {s t : State} (h : EndlessHost good s)
    (hes : IoDone es s t) : AllGood good es ∧ (HostWaits t → EndlessHost good t) := by
  obtain ⟨hw, ⟨r, hsrc, hgood⟩, q, hsnk, hok⟩ := h
  refine ⟨⟨fun a ha => ?_, fun x hx => ?_⟩, fun ht => ⟨ht, ⟨r, ?_, hgood⟩, q, ?_, hok⟩⟩
  · rw [hes.pulled, hsrc, takeAnswers_forever, List.map_replicate] at ha
    exact List.eq_of_mem_replicate ha ▸ hgood
  · rw [hes.pushed, hsnk, takeAnswers_forever, List.map_replicate] at hx
    rw [List.eq_of_mem_replicate hx, hok]
    rfl
  · rw [hes.src, hsrc, dropAnswers_forever]
  · rw [hes.snk, hsnk, dropAnswers_forever]

/-- A host that was asked more often than its lists have answers, and gave good ones only, has one answer left for each
port. -/
theorem endlessHost_of_log {good : SrcAnswer → Prop} {es : List IoEvent} {s t : State} (hes : Logged es s t)
    (hgood : AllGood good es) (hw : HostWaits s) (hpulls : s.host.src.queued.length < pullCount es)
    (hpushes : s.host.snk.queued.length < pushCount es) : EndlessHost good t := by
  obtain ⟨hgoodPull, hgoodPush⟩ := hgood
  have hsrcLen : (takeAnswers (pullCount es) s.host.src).length = pullCount es := by
    have h := length_pulledAnswers es
    rwa [hes.pulled, List.length_map] at h
  have hsnkLen : (takeAnswers (pushCount es) s.host.snk).length = pushCount es := by
    have h := length_pushedAnswers es
    rwa [hes.pushed, List.length_map] at h
  obtain ⟨r, hr, hsrc⟩ := takeAnswers_exhausts hpulls hsrcLen
  obtain ⟨q, hq, hsnk⟩ := takeAnswers_exhausts hpushes hsnkLen
  refine ⟨hes.waits hw, ⟨r, hes.src.trans hsrc, ?_⟩, q, hes.snk.trans hsnk, ?_⟩
  · exact hgoodPull _ (hes.pulled ▸ List.mem_map_of_mem hr)
  · have hmem : (!q.fail) ∈ pushedAnswers es := hes.pushed ▸ List.mem_map.mpr ⟨q, hq, rfl⟩
    simpa using hgoodPush _ hmem

/-! ### Rounds that use the host up -/

/-- What a round of a pass does as long as the pass lasts: every answer is good, and in bits, as `φ` counts those held for
reading and `ψ` the room left for writing, it takes at least 5 and writes at least 5. -/
structure RoundLog (good : SrcAnswer → Prop) (φ ψ : State → Nat) (n : Nat) (s : State) (es : List IoEvent) (t : State) :
    Prop where
  answers : AllGood good es
  taken : φ t + 5 * n ≤ φ s + 8 * pullCount es
  written : ψ t + 5 * n ≤ ψ s + 8 * pushCount es

theorem RoundLog.trans {good : SrcAnswer → Prop} {φ ψ : State → Nat} {m n : Nat} {s t u : State} {es fs : List IoEvent}
    (h : RoundLog good φ ψ m s es t) (k : RoundLog good φ ψ n t fs u) : RoundLog good φ ψ (m + n) s (es ++ fs) u := by
  have htaken := h.taken
  have hwritten := h.written
  have ktaken := k.taken
  have kwritten := k.written
  refine ⟨h.answers.append k.answers, ?_, ?_⟩
  · rw [pullCount_append]
    omega
  · rw [pushCount_append]
    omega

/-- A body whose round, in PHASE = `p`, either goes on as `RoundLog` says, or ends the pass because of an answer. -/
def Steady (good : SrcAnswer → Prop) (φ ψ : State → Nat) (p : Phase) (body : State → Run Unit) : Prop :=
  ∀ s, s.phase = p → Logs s
    (fun es _ t => (t.phase = p ∧ RoundLog good φ ψ 1 s es t) ∨ (t.phase ≠ p ∧ ¬ AllGood good es))
    (fun es => ¬ AllGood good es) (body s)

section
variable {good : SrcAnswer → Prop} {φ ψ : State → Nat} {p : Phase} {body : State → Run Unit}

/-- The record of some rounds. -/
theorem Rounds.log {n : Nat} {s t : State} (h : Rounds p body n s t) (hsteady : Steady good φ ψ p body) :
    ∃ es, Logged es s t ∧ RoundLog good φ ψ n s es t := by
  induction h with
  | zero _ => exact ⟨[], .none rfl, ⟨nofun, nofun⟩, by simp, by simp⟩
  | succ hphase hround hrest ih =>
    obtain ⟨fs, hfs, hfsLog⟩ := ih
    have hlog := hsteady _ hphase
    rw [hround] at hlog
    obtain ⟨es, hes, ⟨-, hesLog⟩ | ⟨hne, -⟩⟩ := hlog
    · refine ⟨es ++ fs, hes.trans hfs, ?_⟩
      rw [Nat.add_comm]
      exact hesLog.trans hfsLog
    · exact absurd hrest.phase_start hne

/-- With a host that has one good answer left for each port every round goes on. -/
theorem Steady.passLoop_endless (hsteady : Steady good φ ψ p body) (n : Nat) {s : State} (hp : s.phase = p)
    (hs : EndlessHost good s) : passLoop p body n s = .stuck .passNeverEnds := by
  refine passLoop_never_ends (P := fun s => s.phase = p ∧ EndlessHost good s) (fun _ h => h.1) ?_ n ⟨hp, hs⟩
  rintro s ⟨hp, hs⟩
  have hlog := hsteady s hp
  cases hrun : body s with
  | ok a t =>
    rw [hrun] at hlog
    obtain ⟨es, hes, ⟨ht, -⟩ | ⟨-, hbad⟩⟩ := hlog
    · obtain ⟨-, hend⟩ := hs.of_log hes.toIoDone
      exact ⟨t, rfl, ht, hend (hes.waits hs.waits)⟩
    · obtain ⟨hgood, -⟩ := hs.of_log hes.toIoDone
      exact absurd hgood hbad
  | raised e t =>
    rw [hrun] at hlog
    obtain ⟨es, hes, hbad⟩ := hlog
    obtain ⟨hgood, -⟩ := hs.of_log hes
    exact absurd hgood hbad
  | cut t =>
    rw [hrun] at hlog
    exact absurd hs.waits hlog
  | stuck f =>
    rw [hrun] at hlog
    obtain ⟨-, ⟨r, hsrc, -⟩, q, hsnk, -⟩ := hs
    simp [Logs, hsrc, hsnk] at hlog

/-- The bound on the rounds: a pass that goes through `passRounds` of them has outlasted a coming reset and the lists of
answers. -/
theorem Rounds.endlessHost {s t : State} (h : Rounds p body (passRounds s) s t) (hsteady : Steady good φ ψ p body)
    (hφ : φ s ≤ 8) (hψ : ψ s ≤ 8) : EndlessHost good t := by
  obtain ⟨es, hes, hlog⟩ := h.log hsteady
  have htaken := hlog.taken
  have hwritten := hlog.written
  have hrounds : passRounds s =
    2 * (s.host.src.queued.length + s.host.snk.queued.length) + s.host.resetAfter.getD 0 + 16 := rfl
  have hw : HostWaits s := by
    cases hreset : s.host.resetAfter with
    | none => exact hreset
    | some k =>
      have hmap := hes.inTime
      rw [hreset] at hmap
      obtain ⟨m, -, hm⟩ := Option.map_eq_some_iff.mp hmap
      have hlen := length_record es
      rw [hreset, Option.getD_some] at hrounds
      omega
  exact endlessHost_of_log hes hlog.answers hw (by omega) (by omega)

/-- More rounds than the bound change nothing. -/
theorem Steady.passLoop_eq (hsteady : Steady good φ ψ p body) {n : Nat} {s : State} (hφ : φ s ≤ 8) (hψ : ψ s ≤ 8)
    (hn : passRounds s ≤ n) : passLoop p body n s = passLoop p body (passRounds s) s := by
  rcases passLoop_settled_or_rounds (p := p) (body := body) (passRounds s) s with hsettled | ⟨t, ht⟩
  · exact hsettled n hn
  · have hend := ht.endlessHost hsteady hφ hψ
    obtain ⟨m, rfl⟩ := Nat.exists_eq_add_of_le hn
    rw [ht.passLoop_eq, hsteady.passLoop_endless m ht.phase_end hend]
    exact ((ht.passLoop_eq 0).trans (passLoop_zero ht.phase_end)).symm

end

/-! ### Both passes -/

theorem not_allGood_of_pulled {good : SrcAnswer → Prop} {es : List IoEvent} {a : SrcAnswer} (h : a ∈ pulledAnswers es)
    (ha : ¬ good a) : ¬ AllGood good es := fun ⟨hpulled, _⟩ => ha (hpulled a h)

theorem not_allGood_of_pushed {good : SrcAnswer → Prop} {es : List IoEvent} (h : false ∈ pushedAnswers es) :
    ¬ AllGood good es := fun ⟨_, hpushed⟩ => nomatch hpushed false h

/-- Each round of C.PASS pulls a byte and writes 5 or 13 bits. -/
theorem steady_compressStep :
    Steady IsAscii (fun _ => 0) (fun s => 8 - s.wacc.count.val) .compress compressStep := by
  intro s hp
  refine (logs_compressStep s).mono ?_ ?_
  · rintro es _ t (⟨b, m, hb, hpulled, hpushed, hbits, hroom, hphase⟩ | ⟨hpulled, -, hphase⟩)
    · have hlen := length_tokenBits_tokenOfByte s.params b
      have hpulls : pullCount es = 1 := by rw [← length_pulledAnswers, hpulled]; rfl
      have hpushes : pushCount es = m := by rw [← length_pushedAnswers, hpushed, List.length_replicate]
      refine .inl ⟨hphase.trans hp, ⟨fun a ha => ?_, fun x hx => ?_⟩, by omega, by omega⟩
      · rw [hpulled, List.mem_singleton] at ha
        exact ⟨b, ha, hb⟩
      · rw [hpushed] at hx
        exact List.eq_of_mem_replicate hx
    · refine .inr ⟨by rw [hphase]; decide, not_allGood_of_pulled (a := .endOfStream) (by rw [hpulled]; simp) ?_⟩
      rintro ⟨b, hb, -⟩
      cases hb
  · rintro es (⟨a, hbad, -, hpulled, -⟩ | ⟨b, m, -, hpushed, -⟩ | ⟨-, hpushed⟩)
    · exact not_allGood_of_pulled (a := a) (by rw [hpulled]; simp) hbad
    · exact not_allGood_of_pushed (by rw [hpushed]; simp)
    · exact not_allGood_of_pushed (by rw [hpushed]; simp)

/-- Each round of D.PASS takes 5 or 13 bits and pushes a byte. -/
theorem steady_decompressStep :
    Steady IsByte (fun s => s.racc.count.val) (fun _ => 0) .decompress decompressStep := by
  intro s hp
  have hend : ¬ IsByte .endOfStream := by simp [IsByte]
  refine (logs_decompressStep s).mono ?_ ?_
  · rintro es _ t (⟨bytes, hpulled, -, hpushed, hbits, hphase⟩ | ⟨bytes, hpulled, -, -, hphase⟩)
    · have hpulls : pullCount es = bytes.length := by rw [← length_pulledAnswers, hpulled, List.length_map]
      have hpushes : pushCount es = 1 := by rw [← length_pushedAnswers, hpushed]; rfl
      refine .inl ⟨hphase.trans hp, ⟨fun a ha => ?_, fun x hx => ?_⟩, by omega, by omega⟩
      · rw [hpulled] at ha
        obtain ⟨b, -, rfl⟩ := List.mem_map.mp ha
        exact ⟨b, rfl⟩
      · rw [hpushed] at hx
        exact List.mem_singleton.mp hx
    · exact .inr ⟨by rw [hphase]; decide, not_allGood_of_pulled (by rw [hpulled]; simp) hend⟩
  · rintro es (⟨bytes, a, hbad, hpulled, -, -⟩ | ⟨bytes, -, -, hpushed⟩)
    · exact not_allGood_of_pulled (a := a) (by rw [hpulled]; simp) hbad
    · exact not_allGood_of_pushed (by rw [hpushed]; simp)

theorem compressLoop_eq {n : Nat} {s : State} (hn : passRounds s ≤ n) :
    passLoop .compress compressStep n s = passLoop .compress compressStep (passRounds s) s :=
  steady_compressStep.passLoop_eq (Nat.zero_le 8) (Nat.sub_le 8 _) hn

theorem decompressLoop_eq {n : Nat} {s : State} (hn : passRounds s ≤ n) :
    passLoop .decompress decompressStep n s = passLoop .decompress decompressStep (passRounds s) s :=
  steady_decompressStep.passLoop_eq (Nat.le_of_lt_succ s.racc.count.isLt) (Nat.zero_le 8) hn

/-- Settles O25, from what each round of the two passes uses up of the host's answers. -/
theorem moreRoundsChangeNothing : Obligations.MoreRoundsChangeNothing :=
  fun _ _ hn => ⟨compressLoop_eq hn, decompressLoop_eq hn⟩

/-! ### A pass as whole commands -/

/-- The loop inside a pass is the loop of whole commands: a round that raises or is cut off leaves the pass's phase. -/
theorem settle_passLoop {p : Phase} {body : State → Run Unit} {i : Instr} (hne : p ≠ .error) (hni : p ≠ .idle)
    (hexec : ∀ s, s.phase = p → exec i s = settle (body s)) (n : Nat) (s : State) :
    settle (passLoop p body n s) = runWhile p i n s := by
  induction n generalizing s with
  | zero =>
    by_cases hs : s.phase = p
    · rw [passLoop_zero hs, runWhile, if_pos hs]
      rfl
    · rw [passLoop_over 0 hs, runWhile_over i 0 hs]
      rfl
  | succ n ih =>
    by_cases hs : s.phase = p
    · rw [passLoop_succ n hs, runWhile_round i n hs, hexec s hs]
      cases body s with
      | ok a t => exact ih t
      | raised e t => exact (runWhile_over i n (show Phase.error ≠ p from hne.symm)).symm
      | cut t => exact (runWhile_over i n (show Phase.idle ≠ p from hni.symm)).symm
      | stuck f => rfl
    · rw [passLoop_over _ hs, runWhile_over i _ hs]
      rfl

/-- What the BEGIN of a pass uses up of the host lowers the bound on the rounds, never raises it. -/
theorem Logged.passRounds_le {es : List IoEvent} {s t : State} (h : Logged es s t) : passRounds t ≤ passRounds s := by
  have hsrc : t.host.src.queued.length ≤ s.host.src.queued.length := by
    rw [h.src, dropAnswers, List.length_drop]
    exact Nat.sub_le _ _
  have hsnk : t.host.snk.queued.length ≤ s.host.snk.queued.length := by
    rw [h.snk, dropAnswers, List.length_drop]
    exact Nat.sub_le _ _
  have hreset : t.host.resetAfter.getD 0 ≤ s.host.resetAfter.getD 0 := by
    rw [← h.inTime]
    cases t.host.resetAfter <;> simp
  simp only [passRounds]
  omega

/-- A pass is its BEGIN as a whole command and then its loop, with the bound on the rounds taken after the BEGIN. -/
theorem settle_pass {p : Phase} {start body : State → Run Unit} {i : Instr} {s : State} (hne : p ≠ .error)
    (hni : p ≠ .idle) (hexec : ∀ s, s.phase = p → exec i s = settle (body s))
    (hmore : ∀ t n, passRounds t ≤ n → passLoop p body n t = passLoop p body (passRounds t) t)
    (hle : ∀ t, start s = .ok () t → passRounds t ≤ passRounds s) :
    settle (andThen (start s) fun _ t => passLoop p body (passRounds s) t) =
      thenRun (settle (start s)) fun t => runWhile p i (passRounds t) t := by
  cases hrun : start s with
  | ok a t =>
    change settle (passLoop p body (passRounds s) t) = runWhile p i (passRounds t) t
    rw [hmore t _ (hle t hrun), settle_passLoop hne hni hexec]
  | raised e t => exact (runWhile_over i _ (show Phase.error ≠ p from hne.symm)).symm
  | cut t => exact (runWhile_over i _ (show Phase.idle ≠ p from hni.symm)).symm
  | stuck f => rfl

theorem passRounds_of_compressBegin {s t : State} (h : compressBegin s = .ok () t) : passRounds t ≤ passRounds s := by
  cases (compressBegin_eq s).symm.trans h
  exact le_rfl

theorem passRounds_of_decompressBegin {s t : State} (h : decompressBegin s = .ok () t) : passRounds t ≤ passRounds s := by
  have hlog := logs_decompressBegin s
  rw [h] at hlog
  obtain ⟨es, hes, -⟩ := hlog
  exact hes.passRounds_le

/-- Settles O26: the loops agree round by round, and the bound that a pass takes before its BEGIN is as good as the one after
it. -/
theorem passesRunTheirSteps : Obligations.PassesRunTheirSteps := by
  intro s hl
  constructor
  · rw [exec_legal (i := .cPass) rfl hl, exec_legal (i := .cBegin) rfl hl]
    exact settle_pass (p := .compress) (start := compressBegin) (body := compressStep) nofun nofun
      (fun _ => exec_cStep) (fun _ _ => compressLoop_eq) fun _ => passRounds_of_compressBegin
  · rw [exec_legal (i := .dPass) rfl hl, exec_legal (i := .dBegin) rfl hl]
    exact settle_pass (p := .decompress) (start := decompressBegin) (body := decompressStep) nofun nofun
      (fun _ => exec_dStep) (fun _ _ => decompressLoop_eq) fun _ => passRounds_of_decompressBegin

end Sys2Proof.Machine
end

section
/-! PROOFS. C.PASS round by round (44_pipeline.md R192 to R194): after each input byte the sink holds the whole bytes of the
tokens written so far, and WACC the rest. -/

namespace Sys2Proof.Machine

/-! ### A sink that accepts the next pushes -/

/-- The port accepts the next `n` pushes. -/
def Takes (n : Nat) (a : Answers SnkReply) : Prop := (takeAnswers n a).map SnkReply.fail = List.replicate n false

theorem length_takeAnswers_le {α : Type} (n : Nat) (a : Answers α) : (takeAnswers n a).length ≤ n :=
  List.length_take_le _ _

theorem takes_add {m n : Nat} {a : Answers SnkReply} : Takes (m + n) a ↔ Takes m a ∧ Takes n (dropAnswers m a) := by
  unfold Takes
  rw [takeAnswers_add, List.map_append, ← List.replicate_append_replicate]
  refine ⟨fun h => ?_, fun ⟨h, h'⟩ => by rw [h, h']⟩
  have hlen := congrArg List.length h
  have hm := length_takeAnswers_le m a
  have hn := length_takeAnswers_le n (dropAnswers m a)
  simp only [List.length_append, List.length_map, List.length_replicate] at hlen
  exact List.append_inj h (by rw [List.length_map, List.length_replicate]; omega)

theorem Takes.mono {m n : Nat} {a : Answers SnkReply} (h : Takes n a) (hmn : m ≤ n) : Takes m a := by
  obtain ⟨k, rfl⟩ := Nat.exists_eq_add_of_le hmn
  obtain ⟨hm, -⟩ := takes_add.mp h
  exact hm

/-- The first of the pushes that the port accepts. -/
theorem Takes.nextAnswer_eq {n : Nat} {a : Answers SnkReply} (h : Takes (n + 1) a) :
    ∃ r, nextAnswer a = some (r, dropAnswers 1 a) ∧ r.fail = false := by
  have hone : Takes 1 a := h.mono (Nat.le_add_left 1 n)
  cases hn : nextAnswer a with
  | none =>
    rw [Takes, takeAnswers_of_silent hn] at hone
    cases hone
  | some p =>
    obtain ⟨r, rest⟩ := p
    rw [Takes, takeAnswers_one hn] at hone
    rw [dropAnswers_one hn]
    exact ⟨r, rfl, by simpa using hone⟩

theorem pushByte_taken {n : Nat} {s : State} (b : Byte) (hw : HostWaits s) (h : Takes (n + 1) s.host.snk) :
    pushByte b s = done (s.setHost (afterPushes [b] s.host)) := by
  obtain ⟨r, hr, hf⟩ := h.nextAnswer_eq
  rw [pushByte_answered hw hr hf]
  rfl

theorem takes_of_queued {oks more : List SnkReply} {a : Answers SnkReply} (hq : a.queued = oks ++ more)
    (hok : ∀ r ∈ oks, r.fail = false) : Takes oks.length a := by
  have htake : takeAnswers oks.length a = oks := by
    rw [takeAnswers, hq, List.append_assoc, List.take_left]
  rw [Takes, htake]
  exact List.eq_replicate_iff.mpr ⟨List.length_map _, fun x hx => by
    obtain ⟨r, hr, rfl⟩ := List.mem_map.mp hx
    exact hok r hr⟩

theorem takes_of_sinkAccepts {s : State} (h : SinkAccepts s) (n : Nat) : Takes n s.host.snk := by
  obtain ⟨hq, hafter⟩ := h
  obtain ⟨q, hafter', hf⟩ := Option.map_eq_some_iff.mp hafter
  have hsnk : s.host.snk = ⟨s.host.snk.queued, some q⟩ := by rw [← hafter']
  rw [Takes, hsnk, takeAnswers_some]
  refine List.eq_replicate_iff.mpr ⟨by simp; omega, fun x hx => ?_⟩
  obtain ⟨r, hr, rfl⟩ := List.mem_map.mp hx
  rcases List.mem_append.mp hr with hr | hr
  · exact hq r (List.mem_of_mem_take hr)
  · rw [List.eq_of_mem_replicate hr, hf]

/-! ### A run that comes to a push -/

/-- The run from `s` pushes these bytes, which the sink accepts, and comes to one push more. -/
def AtPush (bytes : List Byte) (s : State) (r : Run Unit) : Prop :=
  ∃ b t k, r = andThen (pushByte b t) k ∧ HostWaits t ∧ t.host.snk = dropAnswers bytes.length s.host.snk ∧
    sinkBytes t = sinkBytes s ++ bytes

theorem AtPush.andThen {bytes : List Byte} {s : State} {r : Run Unit} (h : AtPush bytes s r)
    (k : Unit → State → Run Unit) : AtPush bytes s (andThen r k) := by
  obtain ⟨b, t, k', rfl, h⟩ := h
  exact ⟨b, t, _, andThen_assoc _ _ _, h⟩

/-- Some of the bytes were pushed before the run began. -/
theorem AtPush.after {ys zs : List Byte} {s t : State} {r : Run Unit} (h : AtPush zs t r)
    (hsnk : t.host.snk = dropAnswers ys.length s.host.snk) (hsink : sinkBytes t = sinkBytes s ++ ys) :
    AtPush (ys ++ zs) s r := by
  obtain ⟨b, u, k, rfl, hw, husnk, husink⟩ := h
  exact ⟨b, u, k, rfl, hw, by rw [husnk, hsnk, dropAnswers_add, List.length_append],
    by rw [husink, hsink, List.append_assoc]⟩

/-- Where the sink refuses that push, the command raises Io(1) and the bytes before it stay at the sink (60_exceptions.md
R233). -/
theorem AtPush.refused {bytes : List Byte} {s : State} {r : Run Unit} {q : SnkReply} {rest : Answers SnkReply}
    (h : AtPush bytes s r) (hq : nextAnswer (dropAnswers bytes.length s.host.snk) = some (q, rest)) (hf : q.fail = true) :
    ∃ t, settle r = .next t ∧ t.phase = .error ∧ t.err = ⟨5#3, 1#1, 0#8⟩ ∧ sinkBytes t = sinkBytes s ++ bytes := by
  obtain ⟨b, u, k, rfl, hw, hsnk, hsink⟩ := h
  rw [pushByte_refused hw ⟨q, hsnk ▸ hq, hf⟩]
  refine ⟨_, rfl, rfl, rfl, ?_⟩
  rw [← hsink]
  simp [sinkBytes, afterRefusal, acceptedBytes]

/-- Where the sink does not answer that push, the command waits for ever (60_exceptions.md R243). -/
theorem AtPush.silent {bytes : List Byte} {s : State} {r : Run Unit} (h : AtPush bytes s r)
    (hn : nextAnswer (dropAnswers bytes.length s.host.snk) = none) : settle r = .fault .hostSilent := by
  obtain ⟨b, u, k, rfl, hw, hsnk, -⟩ := h
  exact settle_andThen_stuck k (pushByte_silent b hw (hsnk ▸ hn))

/-! ### The writer with such a sink -/

/-- The loop of `WriteBits` from an empty WACC, where the sink takes every byte that the bits complete. -/
theorem writeLoop_taken (bs : List Bool) {s : State} (hw : HostWaits s) (h : Takes (wholeBytes bs).length s.host.snk) :
    writeLoop bs (s.setWacc BitAcc.empty) = done (written bs (s.setWacc BitAcc.empty)) := by
  induction bs using byte_induction generalizing s with
  | short bs hshort =>
    have hcount : (s.setWacc (accOf bs)).wacc.count.val < 8 := by rwa [setWacc_wacc, accOf_count hshort.le]
    rw [writeLoop_empty s hshort.le, drainIfFull_of_not_full hcount]
    congr 1
    refine State.ext_fields ?_ rfl rfl rfl rfl rfl ?_
    · simp [leftover_short hshort]
    · simp [wholeBytes_short hshort, afterPushes_nil]
  | byte x y hx ih =>
    rw [wholeBytes_byte_append y hx, List.length_cons, Nat.add_comm] at h
    obtain ⟨hfirst, hrest⟩ := takes_add.mp h
    have htake : (x ++ y).take 8 = x := List.take_left' hx
    have hdrop : (x ++ y).drop 8 = y := List.drop_left' hx
    rw [writeLoop_of_byte s (by rw [List.length_append]; omega), htake, hdrop,
      pushByte_taken (n := 0) (s := s.setWacc (accOf x)) _ hw hfirst, andThen_done]
    refine (ih (s := s.setHost (afterPushes [ofMsbBits 8 x] s.host)) hw hrest).trans ?_
    congr 1
    refine State.ext_fields ?_ rfl rfl rfl rfl rfl ?_
    · simp [leftover_byte_append y hx]
    · simp [wholeBytes_byte_append y hx, afterPushes_append]

/-- The loop of `WriteBits` from an empty WACC, where the sink takes only the first bytes that the bits complete. -/
theorem writeLoop_atPush (bs : List Bool) {n : Nat} {s : State} (hw : HostWaits s) (h : Takes n s.host.snk)
    (hn : n < (wholeBytes bs).length) :
    AtPush ((wholeBytes bs).take n) s (writeLoop bs (s.setWacc BitAcc.empty)) := by
  induction bs using byte_induction generalizing n s with
  | short bs hshort => simp [wholeBytes_short hshort] at hn
  | byte x y hx ih =>
    have htake : (x ++ y).take 8 = x := List.take_left' hx
    have hdrop : (x ++ y).drop 8 = y := List.drop_left' hx
    rw [wholeBytes_byte_append y hx] at hn ⊢
    rw [writeLoop_of_byte s (by rw [List.length_append]; omega), htake, hdrop]
    cases n with
    | zero => exact ⟨_, s.setWacc (accOf x), _, rfl, hw, rfl, (List.append_nil _).symm⟩
    | succ n =>
      have hrest : Takes n (dropAnswers 1 s.host.snk) := (takes_add.mp (Nat.add_comm n 1 ▸ h)).2
      rw [pushByte_taken (s := s.setWacc (accOf x)) _ hw h, andThen_done]
      exact (ih (s := s.setHost (afterPushes [ofMsbBits 8 x] s.host)) hw hrest (Nat.lt_of_succ_lt_succ hn)).after
        (ys := [ofMsbBits 8 x]) rfl (acceptedBytes_afterPushes _ s)

/-! ### The stream as it is written -/

theorem dataBits_append (p : Params) (xs ys : List Byte) :
    dataBits p (xs ++ ys) = dataBits p xs ++ ys.flatMap fun b => tokenBits (tokenOfByte p b) := by
  rw [dataBits, List.flatMap_append, ← List.append_assoc]
  rfl

theorem dataBits_snoc (p : Params) (xs : List Byte) (b : Byte) :
    dataBits p (xs ++ [b]) = dataBits p xs ++ tokenBits (tokenOfByte p b) := by
  rw [dataBits_append, List.flatMap_singleton]

/-- The whole bytes written before the end of the input begin every stream that goes on from there (R194). -/
theorem wholeBytes_prefix_compressed (p : Params) (xs ys : List Byte) :
    wholeBytes (dataBits p xs) <+: compressed p (xs ++ ys) := by
  rw [compressed, dataBits_append, List.append_assoc, wholeBytes_append]
  exact List.prefix_append _ _

/-- The stream is the whole bytes of its tokens and what FlushW makes of the bits left (R123). -/
theorem compressed_eq (p : Params) (xs : List Byte) :
    compressed p xs = wholeBytes (dataBits p xs) ++ flushedBytes (leftover (dataBits p xs)) := by
  rw [compressed, wholeBytes_append, flushedBytes, length_leftover, Nat.mod_mod]

/-! ### The states of a compress pass -/

/-- In the C.PASS begun at `s`, `t` is the state between two rounds once the input bytes `ys` are read. -/
structure Compressing (s : State) (ys : List Byte) (t : State) : Prop where
  waits : HostWaits t
  phase : t.phase = .compress
  wacc : t.wacc = accOf (leftover (dataBits s.params ys))
  racc : t.racc = BitAcc.empty
  err : t.err = Err.clear
  io : IoExtends s t
  snk : t.host.snk = dropAnswers (wholeBytes (dataBits s.params ys)).length s.host.snk
  sink : sinkBytes t = sinkBytes s ++ wholeBytes (dataBits s.params ys)

/-- Before any input the five bits of the version token are pending (R190). -/
theorem dataBits_nil (p : Params) : dataBits p [] = msbBits 5 VERSION := rfl

theorem wholeBytes_dataBits_nil (p : Params) : wholeBytes (dataBits p []) = [] :=
  wholeBytes_short (by rw [dataBits_nil, length_msbBits]; decide)

theorem compressing_begun {s : State} (hw : HostWaits s) : Compressing s [] (compressBegun s) where
  waits := hw
  phase := rfl
  wacc := by
    rw [dataBits_nil]
    exact (by decide : (⟨1#8, 5⟩ : BitAcc) = accOf (leftover (msbBits 5 VERSION)))
  racc := rfl
  err := rfl
  io := .of_eq rfl rfl
  snk := by
    rw [wholeBytes_dataBits_nil]
    rfl
  sink := by
    rw [wholeBytes_dataBits_nil, List.append_nil]
    rfl

theorem IoExtends.params_eq {s t : State} (h : IoExtends s t) : t.params = s.params := by
  obtain ⟨hparams, -⟩ := h
  exact hparams

theorem Compressing.params_eq {s t : State} {ys : List Byte} (h : Compressing s ys t) : t.params = s.params :=
  h.io.params_eq

theorem Compressing.validBits_eq {s t : State} {ys : List Byte} (h : Compressing s ys t) :
    validBits t.wacc = leftover (dataBits s.params ys) := by
  rw [h.wacc, validBits_accOf (by rw [length_leftover]; omega)]

theorem Compressing.accOk {s t : State} {ys : List Byte} (h : Compressing s ys t) : accOk t.wacc := by
  rw [h.wacc]
  exact accOk_accOf (by rw [length_leftover]; omega)

/-- An answered pull is such a change as nothing inside a command exceeds. -/
theorem IoExtends.afterPull {s : State} {a : SrcAnswer} {rest : Answers SrcReply} (hw : HostWaits s)
    (hn : NextPull s a rest) : IoExtends s (s.setHost (afterPull a rest s.host)) := by
  obtain ⟨r, hr, rfl⟩ := hn
  have hpull := IoExtends.pull hr
  rwa [countDown_waits hw] at hpull

theorem sinkBytes_afterPull (a : SrcAnswer) (rest : Answers SrcReply) (s : State) :
    sinkBytes (s.setHost (afterPull a rest s.host)) = sinkBytes s := by
  simp [sinkBytes, Machine.afterPull, acceptedBytes]

/-- C.STEP on an ASCII byte: the bits of its token after the pending ones, written into an empty WACC. -/
theorem compressStep_byte {s : State} {b : Byte} {rest : Answers SrcReply} (hw : HostWaits s) (ha : accOk s.wacc)
    (hn : NextPull s (.byte b) rest) (hb : b.toNat < 0x80) :
    compressStep s = andThen
      (writeLoop (validBits s.wacc ++ tokenBits (tokenOfByte s.params b))
        ((s.setHost (afterPull (.byte b) rest s.host)).setWacc BitAcc.empty))
      fun _ t => done (t.setResp ⟨.ok, (encodeByte s.params b).setWidth 8⟩) := by
  rw [compressStep, srcPull_answered hw hn]
  exact compressByte_eq (s := s.setHost _) hb ha

section
variable {s t : State} {ys : List Byte} {b : Byte} {rest : Answers SrcReply}

/-- A round whose bytes the sink takes. -/
theorem Compressing.round (h : Compressing s ys t) (hn : NextPull t (.byte b) rest) (hb : b.toNat < 0x80)
    (htakes : Takes (wholeBytes (dataBits s.params (ys ++ [b]))).length s.host.snk) :
    ∃ u, compressStep t = .ok () u ∧ Compressing s (ys ++ [b]) u ∧ u.host.src = rest := by
  have hbytes : wholeBytes (dataBits s.params (ys ++ [b])) = wholeBytes (dataBits s.params ys) ++
      wholeBytes (leftover (dataBits s.params ys) ++ tokenBits (tokenOfByte s.params b)) := by
    rw [dataBits_snoc, wholeBytes_append]
  rw [hbytes, List.length_append] at htakes
  obtain ⟨-, htaken⟩ := takes_add.mp htakes
  rw [← h.snk] at htaken
  have hstep := compressStep_byte h.waits h.accOk hn hb
  have hio := endsIn_mono (cuttable_bodyOf .cStep 0 t).io fun _ hu => h.io.trans hu
  rw [h.validBits_eq, h.params_eq,
    writeLoop_taken (s := t.setHost (Machine.afterPull (.byte b) rest t.host)) _ h.waits htaken, andThen_done] at hstep
  rw [bodyOf, hstep] at hio
  refine ⟨_, hstep, ⟨h.waits, h.phase, ?_, h.racc, h.err, hio, ?_, ?_⟩, rfl⟩
  · rw [dataBits_snoc, leftover_append]
    rfl
  · rw [hbytes, List.length_append, ← dropAnswers_add, ← h.snk]
    rfl
  · rw [hbytes, ← List.append_assoc, ← h.sink, ← sinkBytes_afterPull (.byte b) rest t]
    exact acceptedBytes_afterPushes _ (t.setHost (Machine.afterPull (.byte b) rest t.host))

/-- A round in which the sink stops taking bytes. -/
theorem Compressing.round_atPush {n : Nat} (h : Compressing s ys t) (hn : NextPull t (.byte b) rest) (hb : b.toNat < 0x80)
    (htakes : Takes n s.host.snk) (hle : (wholeBytes (dataBits s.params ys)).length ≤ n)
    (hlt : n < (wholeBytes (dataBits s.params (ys ++ [b]))).length) :
    AtPush ((wholeBytes (dataBits s.params (ys ++ [b]))).take n) s (compressStep t) := by
  obtain ⟨m, rfl⟩ := Nat.exists_eq_add_of_le hle
  obtain ⟨-, htaken⟩ := takes_add.mp htakes
  rw [← h.snk] at htaken
  rw [dataBits_snoc, wholeBytes_append] at hlt ⊢
  rw [List.length_append] at hlt
  rw [List.take_length_add_append, compressStep_byte h.waits h.accOk hn hb, h.validBits_eq, h.params_eq]
  refine AtPush.andThen ?_ _
  exact (writeLoop_atPush _ (s := t.setHost (Machine.afterPull (.byte b) rest t.host)) h.waits htaken
    (by omega)).after h.snk ((sinkBytes_afterPull _ _ _).trans h.sink)

/-- The last round, where the sink takes no byte for FlushW. -/
theorem Compressing.end_atPush {n : Nat} (h : Compressing s ys t) (hn : NextPull t .endOfStream rest)
    (hle : (wholeBytes (dataBits s.params ys)).length ≤ n) (hlt : n < (compressed s.params ys).length) :
    AtPush ((compressed s.params ys).take n) s (compressStep t) := by
  have hlen : (leftover (dataBits s.params ys)).length < 8 := by rw [length_leftover]; omega
  have hcount : t.wacc.count.val = (leftover (dataBits s.params ys)).length := by
    rw [← h.validBits_eq, length_validBits]
  have hpending : 1 ≤ (leftover (dataBits s.params ys)).length := by
    by_contra h0
    have hnil := List.eq_nil_of_length_eq_zero (Nat.lt_one_iff.mp (Nat.lt_of_not_le h0))
    rw [compressed_eq, hnil, List.length_append] at hlt
    simp [flushedBytes, terminalBits, wholeBytes_short] at hlt
    simp at hle
    omega
  rw [compressed_eq, List.length_append, flushedBytes_eq hpending hlen.le, List.length_singleton] at hlt
  obtain rfl : n = (wholeBytes (dataBits s.params ys)).length := by omega
  have hpush := flushW_eq_push (s := t.setHost (Machine.afterPull .endOfStream rest t.host)) h.accOk
    (by rw [setHost_wacc, hcount]; exact hpending)
  rw [compressed_eq, List.take_left, compressStep, srcPull_answered h.waits hn]
  change AtPush _ s (compressEnd (t.setHost (Machine.afterPull .endOfStream rest t.host)))
  rw [compressEnd, hpush]
  refine AtPush.andThen ?_ _
  exact ⟨_, _, _, rfl, h.waits, h.snk, (sinkBytes_afterPull _ _ _).trans h.sink⟩

end

/-! ### The rounds over an input -/

/-- The first answer listed at the source, whatever it gives once the list is used up. -/
theorem nextPull_of_map_cons {s : State} {a : SrcAnswer} {more : List SrcAnswer}
    (h : s.host.src.queued.map srcAnswer = a :: more) :
    ∃ rest : Answers SrcReply, NextPull s a rest ∧ rest.queued.map srcAnswer = more ∧ rest.after = s.host.src.after := by
  obtain ⟨r, rest, hq, rfl, hrest⟩ := List.map_eq_cons_iff.mp h
  exact ⟨_, nextPull_of_queued hq, hrest, rfl⟩

/-- ASCII bytes at the source, and a sink that takes what their tokens complete: one round for each byte. -/
theorem Compressing.rounds {s : State} {xs : List Byte} {more : List SrcAnswer} (hxs : Ascii xs) :
    ∀ {ys : List Byte} {t : State}, Compressing s ys t → t.host.src.queued.map srcAnswer = xs.map .byte ++ more →
      Takes (wholeBytes (dataBits s.params (ys ++ xs))).length s.host.snk →
      ∃ u, Rounds .compress compressStep xs.length t u ∧ Compressing s (ys ++ xs) u ∧
        u.host.src.queued.map srcAnswer = more ∧ u.host.src.after = t.host.src.after := by
  induction xs with
  | nil =>
    intro ys t h hq _
    exact ⟨t, .zero h.phase, by rwa [List.append_nil], hq, rfl⟩
  | cons b xs ih =>
    intro ys t h hq htakes
    have happ : ys ++ b :: xs = ys ++ [b] ++ xs := List.append_cons ys b xs
    rw [happ] at htakes ⊢
    have hprefix : (wholeBytes (dataBits s.params (ys ++ [b]))).length ≤
        (wholeBytes (dataBits s.params (ys ++ [b] ++ xs))).length := by
      rw [dataBits_append s.params (ys ++ [b]), wholeBytes_append, List.length_append]
      exact Nat.le_add_right _ _
    obtain ⟨rest, hn, hmore, hafter⟩ := nextPull_of_map_cons hq
    obtain ⟨u, hround, hu, hsrc⟩ := h.round hn (hxs b List.mem_cons_self) (htakes.mono hprefix)
    obtain ⟨v, hrounds, hv, hvsrc, hvafter⟩ := ih (fun x hx => hxs x (List.mem_cons_of_mem b hx)) hu (hsrc ▸ hmore) htakes
    exact ⟨v, .succ h.phase hround hrounds, hv, hvsrc, by rw [hvafter, hsrc, hafter]⟩

/-- ASCII bytes and then End at the source, and a sink that takes only the first bytes of the stream. -/
theorem Compressing.passLoop_atPush {s : State} {xs : List Byte} {n : Nat} (hxs : Ascii xs) (htakes : Takes n s.host.snk) :
    ∀ {ys : List Byte} {t : State} {fuel : Nat}, Compressing s ys t → SourceGives t (xs.map .byte) .endOfStream →
      (wholeBytes (dataBits s.params ys)).length ≤ n → n < (compressed s.params (ys ++ xs)).length → xs.length < fuel →
      AtPush ((compressed s.params (ys ++ xs)).take n) s (passLoop .compress compressStep fuel t) := by
  induction xs with
  | nil =>
    intro ys t fuel h hsrc hle hlt hfuel
    obtain ⟨fuel, rfl⟩ : ∃ k, fuel = k + 1 := ⟨fuel - 1, by simp at hfuel; omega⟩
    obtain ⟨rest, hn, -⟩ := nextPull_of_sourceGives_nil hsrc
    rw [List.append_nil] at hlt ⊢
    rw [passLoop_succ fuel h.phase]
    exact (h.end_atPush hn hle hlt).andThen _
  | cons b xs ih =>
    intro ys t fuel h hsrc hle hlt hfuel
    obtain ⟨fuel, rfl⟩ : ∃ k, fuel = k + 1 := ⟨fuel - 1, by simp at hfuel; omega⟩
    obtain ⟨rest, hn, hsrc'⟩ := nextPull_of_sourceGives_cons hsrc
    have happ : ys ++ b :: xs = ys ++ [b] ++ xs := List.append_cons ys b xs
    have hb := hxs b List.mem_cons_self
    rw [happ] at hlt ⊢
    rw [passLoop_succ fuel h.phase]
    by_cases hn' : (wholeBytes (dataBits s.params (ys ++ [b]))).length ≤ n
    · obtain ⟨u, hround, hu, husrc⟩ := h.round hn hb (htakes.mono hn')
      rw [hround, andThen_ok]
      refine ih (fun x hx => hxs x (List.mem_cons_of_mem b hx)) hu ?_ hn' hlt (Nat.lt_of_succ_lt_succ hfuel)
      rwa [SourceGives, husrc]
    · obtain ⟨tail, htail⟩ := wholeBytes_prefix_compressed s.params (ys ++ [b]) xs
      rw [← htail, List.take_append_of_le_length (Nat.le_of_not_le hn')]
      exact (h.round_atPush hn hb htakes hle (Nat.lt_of_not_le hn')).andThen _

/-! ### The statements -/

theorem exec_cPass {s : State} (hl : legal .begin s.phase = true) :
    exec .cPass s = settle (passLoop .compress compressStep (passRounds s) (compressBegun s)) := by
  rw [exec_legal (i := .cPass) rfl hl, bodyOf, compressPass, compressBegin_eq, andThen_done]

/-- C.PASS after the ASCII bytes at the front of its input: what is left is the round that ends it. -/
theorem exec_cPass_after {s : State} {xs : List Byte} {more : List SrcAnswer} (hl : legal .begin s.phase = true)
    (hw : HostWaits s) (hxs : Ascii xs) (hs : SinkAccepts s)
    (hq : s.host.src.queued.map srcAnswer = xs.map .byte ++ more) :
    ∃ t m, exec .cPass s = settle (andThen (compressStep t) fun _ u => passLoop .compress compressStep m u) ∧
      Compressing s xs t ∧ SinkAccepts t ∧ t.host.src.queued.map srcAnswer = more ∧
      t.host.src.after = s.host.src.after := by
  obtain ⟨t, hrounds, ht, hsrc, hafter⟩ := (compressing_begun hw).rounds hxs hq (takes_of_sinkAccepts hs _)
  have hfuel : xs.length < passRounds s := by
    have hlen := congrArg List.length hq
    simp only [List.length_map, List.length_append] at hlen
    unfold passRounds
    omega
  obtain ⟨m, hlast⟩ := hrounds.passLoop_last hfuel
  refine ⟨t, m, by rw [exec_cPass hl, hlast], ht, ?_, hsrc, hafter⟩
  rw [SinkAccepts, ht.snk]
  exact ⟨fun r hr => hs.1 r (List.mem_of_mem_drop hr), hs.2⟩

/-- C.PASS with a sink that takes only the first bytes of the stream comes to the push after them. -/
theorem exec_cPass_atPush {s : State} {xs : List Byte} {n : Nat} (hl : legal .begin s.phase = true) (hw : HostWaits s)
    (hxs : Ascii xs) (htakes : Takes n s.host.snk) (hlt : n < (compressed s.params xs).length)
    (hsrc : SourceGives s (xs.map .byte) .endOfStream) :
    ∃ r, exec .cPass s = settle r ∧ AtPush ((compressed s.params xs).take n) s r := by
  have hfuel : xs.length < passRounds s := by
    obtain ⟨hq, -⟩ := hsrc
    have hlen := congrArg List.length hq
    simp only [List.length_map] at hlen
    unfold passRounds
    omega
  have hnone : (wholeBytes (dataBits s.params [])).length ≤ n := by
    rw [wholeBytes_dataBits_nil]
    exact Nat.zero_le n
  exact ⟨_, exec_cPass hl, (compressing_begun hw).passLoop_atPush hxs htakes hsrc hnone hlt hfuel⟩

/-- The host's side after a command that no reset cuts off: only its answers and the record are new. -/
theorem IoExtends.host_eq {s t : State} (h : IoExtends s t) (hs : HostWaits s) (ht : HostWaits t) :
    t.host = { s.host with src := t.host.src, snk := t.host.snk, trace := t.host.trace } := by
  obtain ⟨-, hevents, hresps, -⟩ := h
  have hreset : t.host.resetAfter = s.host.resetAfter := Eq.trans ht (Eq.symm hs)
  change t.host = ⟨s.host.events, t.host.src, t.host.snk, s.host.resetAfter, t.host.trace, s.host.resps⟩
  rw [← hevents, ← hresps, ← hreset]

/-- The last round of C.PASS, at the end of the input. -/
theorem Compressing.finish {s t : State} {xs : List Byte} {rest : Answers SrcReply} (h : Compressing s xs t)
    (hs : SinkAccepts t) (hn : NextPull t .endOfStream rest) :
    ∃ u, compressStep t = .ok () u ∧ HostWaits u ∧ IoExtends s u ∧ u.wacc = BitAcc.empty ∧ u.racc = BitAcc.empty ∧
      u.phase = .done ∧ u.err = Err.clear ∧ u.resp = ⟨.eos, 0#8⟩ ∧ sinkBytes u = sinkBytes s ++ compressed s.params xs := by
  have hstep : compressStep t =
      .ok () (((flushed (t.setHost (Machine.afterPull .endOfStream rest t.host))).setPhase .done).setResp ⟨.eos, 0#8⟩) := by
    rw [compressStep, srcPull_answered h.waits hn]
    change compressEnd (t.setHost (Machine.afterPull .endOfStream rest t.host)) = _
    rw [compressEnd, flushW_accepted (s := t.setHost (Machine.afterPull .endOfStream rest t.host)) h.accOk h.waits hs]
    rfl
  have hio := endsIn_mono (cuttable_bodyOf .cStep 0 t).io fun _ hu => h.io.trans hu
  rw [bodyOf, hstep] at hio
  refine ⟨_, hstep, h.waits, hio, rfl, h.racc, rfl, h.err, rfl, ?_⟩
  rw [compressed_eq, ← List.append_assoc, ← h.sink, ← sinkBytes_afterPull .endOfStream rest t, ← h.validBits_eq]
  exact acceptedBytes_afterPushes _ (t.setHost (Machine.afterPull .endOfStream rest t.host))

/-- Settles O46: the rounds over the input write the tokens, and the last one flushes. -/
theorem compressOutputLaw : Obligations.CompressOutputLaw := by
  intro s xs hl hw hs hxs ⟨hq, hlast⟩
  obtain ⟨t, m, hexec, ht, hts, htq, htlast⟩ :=
    exec_cPass_after hl hw hxs hs (more := []) (by rw [hq, List.append_nil])
  obtain ⟨rest, hn, -⟩ := nextPull_of_sourceGives_nil (s := t) ⟨htq, by rw [htlast, hlast]⟩
  obtain ⟨u, hstep, hu, hio, hwacc, hracc, hphase, herr, hresp, hsink⟩ := ht.finish hts hn
  refine ⟨u, ?_, hsink, ?_, State.ext_fields hwacc hracc hphase herr hresp hio.params_eq (hio.host_eq hw hu)⟩
  · rw [hexec, hstep, andThen_ok, passLoop_over m (by rw [hphase]; decide)]
    rfl
  · rw [length_compressed, length_dataBits]

/-- Settles O47: the round that ends C.PASS raises, from a state whose sink holds the whole bytes written before. -/
theorem compressErrorLeavesAPrefix : Obligations.CompressErrorLeavesAPrefix := by
  intro s xs hl hw hxs
  refine ⟨fun b more hs hb hq => ?_, fun more hs hq => ?_, fun oks bad more hqueued hoks hbad hlt hsrc => ?_,
    wholeBytes_prefix_compressed s.params xs, length_wholeBytes _⟩
  · obtain ⟨t, m, hexec, ht, -, htq, -⟩ := exec_cPass_after hl hw hxs hs hq
    obtain ⟨rest, hn, -⟩ := nextPull_of_map_cons htq
    rw [hexec, compressStep_unsupported ht.waits hn hb]
    exact ⟨_, rfl, rfl, rfl, (sinkBytes_afterPull _ _ _).trans ht.sink⟩
  · obtain ⟨t, m, hexec, ht, -, htq, -⟩ := exec_cPass_after hl hw hxs hs hq
    obtain ⟨rest, hn, -⟩ := nextPull_of_map_cons htq
    rw [hexec, compressStep_ioFail ht.waits hn]
    exact ⟨_, rfl, rfl, rfl, (sinkBytes_afterPull _ _ _).trans ht.sink⟩
  · obtain ⟨r, hr, hpush⟩ := exec_cPass_atPush hl hw hxs (takes_of_queued hqueued hoks) hlt hsrc
    have hcount : ((compressed s.params xs).take oks.length).length = oks.length := List.length_take_of_le hlt.le
    rw [hr]
    refine hpush.refused (q := bad) (rest := { s.host.snk with queued := more }) ?_ hbad
    rw [hcount, dropAnswers, hqueued, List.drop_left]
    rfl

end Sys2Proof.Machine
end

section
/-! PROOFS. D.PASS round by round in Retain mode (44_pipeline.md R205): each round reads one data token of the stream off the
front of the bits ahead, and emits its byte. So D.PASS is the inverse of C.PASS (R207). -/

namespace Sys2Proof.Machine

/-! ### The bits ahead of the reader -/

/-- The reader, in Retain mode and between reads, has these bits ahead: those held, and then those of the bytes listed at the
source, whatever the source answers after them. -/
structure Ahead (bits : List Bool) (s : State) : Prop where
  mode : s.params.readerMode = .retain
  waits : HostWaits s
  ok : accOk s.racc
  room : s.racc.count.val < 8
  stream : ∃ bytes : List Byte, s.host.src.queued.map srcAnswer = bytes.map .byte ∧ bits = validBits s.racc ++ bitsOf bytes

/-- A read that has enough bits ahead returns the first of them (42_reader.md R145). -/
theorem Ahead.reads {bits : List Bool} {w : Nat} {s : State} (h : Ahead bits s) (h8 : w ≤ 8) (hlen : w ≤ bits.length) :
    ∃ t, Reads w s (ofMsbBits w (bits.take w)) t ∧ Ahead (bits.drop w) t := by
  obtain ⟨hm, hw, hok, hroom, bytes, hq, rfl⟩ := h
  by_cases hheld : w ≤ s.racc.count.val
  · have hle : w ≤ (validBits s.racc).length := by rwa [length_validBits]
    have hrest : ((validBits s.racc).drop w).length < 8 := by simp; omega
    rw [List.take_append_of_le_length hle, List.drop_append_of_le_length hle]
    refine ⟨_, .inl ⟨hheld, rfl, rfl⟩, hm, hw, accOk_accOf hrest.le, ?_, bytes, hq, ?_⟩
    · rwa [setRacc_racc, accOf_count hrest.le]
    · rw [setRacc_racc, validBits_accOf hrest.le]
  · cases bytes with
    | nil =>
      simp [bitsOf] at hlen
      omega
    | cons B bytes =>
      obtain ⟨rest, hn, hq', -⟩ := nextPull_of_map_cons hq
      have hsplit : validBits s.racc ++ bitsOf (B :: bytes) = validBits s.racc ++ msbBits 8 B ++ bitsOf bytes :=
        (List.append_assoc _ _ _).symm
      have hle : w ≤ (validBits s.racc ++ msbBits 8 B).length := by simp; omega
      have hrest : ((validBits s.racc ++ msbBits 8 B).drop w).length < 8 := by simp; omega
      rw [hsplit, List.take_append_of_le_length hle, List.drop_append_of_le_length hle]
      refine ⟨_, .inr ⟨by omega, B, rest, hn, rfl, rfl⟩, hm, hw, ?_, ?_, bytes, hq', ?_⟩ <;> rw [setRacc_racc, hm]
      · exact accOk_accOf hrest.le
      · rwa [accOf_count hrest.le]
      · rw [validBits_accOf hrest.le]

/-- A read of `w` bits that has the value `v` ahead returns it. -/
theorem Ahead.reads_value {rest : List Bool} {w : Nat} {v : BitVec w} {s : State} (h : Ahead (msbBits w v ++ rest) s)
    (h8 : w ≤ 8) : ∃ t, Reads w s v t ∧ Ahead rest t := by
  have hl : (msbBits w v).length = w := length_msbBits w v
  obtain ⟨t, hread, ht⟩ := h.reads h8 (by rw [List.length_append, hl]; exact Nat.le_add_right _ _)
  rw [List.take_left' hl, ofMsbBits_msbBits] at hread
  rw [List.drop_left' hl] at ht
  exact ⟨t, hread, ht⟩

/-- With fewer bits ahead than a read wants, all of them are held and the source has no byte listed. -/
theorem Ahead.short {bits : List Bool} {w : Nat} {s : State} (h : Ahead bits s) (h8 : w ≤ 8) (hlen : bits.length < w) :
    s.racc = accOf bits ∧ s.racc.count.val < w ∧ s.host.src.queued = [] := by
  obtain ⟨-, -, hok, -, bytes, hq, rfl⟩ := h
  rw [List.length_append, length_validBits, length_bitsOf] at hlen
  obtain rfl : bytes = [] := List.eq_nil_of_length_eq_zero (by omega)
  rw [show bitsOf [] = [] from rfl, List.append_nil, accOf_validBits hok]
  exact ⟨rfl, by omega, List.map_eq_nil_iff.mp hq⟩

/-! ### One token -/

/-- What the reads of a token leave unchanged: all but RACC, the source and the record of pulls. -/
structure ReadsOnly (s t : State) : Prop where
  wacc : t.wacc = s.wacc
  phase : t.phase = s.phase
  err : t.err = s.err
  snk : t.host.snk = s.host.snk
  sink : sinkBytes t = sinkBytes s
  io : IoExtends s t

theorem ReadsOnly.trans {s t u : State} (h : ReadsOnly s t) (k : ReadsOnly t u) : ReadsOnly s u where
  wacc := k.wacc.trans h.wacc
  phase := k.phase.trans h.phase
  err := k.err.trans h.err
  snk := k.snk.trans h.snk
  sink := k.sink.trans h.sink
  io := h.io.trans k.io

theorem Reads.sinkBytes_eq {w : Nat} {s t : State} {v : BitVec w} (h : Reads w s v t) : sinkBytes t = sinkBytes s := by
  rcases h with ⟨-, -, rfl⟩ | ⟨-, B, rest, -, -, rfl⟩
  · rfl
  · exact sinkBytes_afterPull _ _ _

theorem Reads.readsOnly {w : Nat} {s t : State} {v : BitVec w} (h : Reads w s v t) (h8 : w ≤ 8) (hw : HostWaits s) :
    ReadsOnly s t := by
  obtain ⟨hwacc, hphase, herr, -, hsnk, hio⟩ := h.keeps h8 hw
  exact ⟨hwacc, hphase, herr, hsnk, h.sinkBytes_eq, hio⟩

/-- D.STEP before a data token reads the token and emits its byte (30_encoding.md R79, 44_pipeline.md R201, R202). -/
theorem Ahead.decompressStep_token {rest : List Bool} {b : Byte} {s : State}
    (h : Ahead (tokenBits (tokenOfByte s.params b) ++ rest) s) (halphabet : alphabetOk s.params.alphabet = true) :
    ∃ t, decompressStep s = emitLiteral b t ∧ Ahead rest t ∧ ReadsOnly s t := by
  have hw := h.waits
  by_cases hesc : encodeByte s.params b = ESC
  · have htoken : tokenBits (tokenOfByte s.params b) ++ rest = msbBits 5 ESC ++ (msbBits 8 b ++ rest) := by
      rw [tokenOfByte, if_pos hesc, ← List.append_assoc]
      rfl
    rw [htoken] at h
    obtain ⟨t, hread, ht⟩ := h.reads_value (by decide)
    obtain ⟨u, hlit, hu⟩ := ht.reads_value le_rfl
    exact ⟨u, decompressStep_literal hw hread hlit, hu,
      (hread.readsOnly (by decide) hw).trans (hlit.readsOnly le_rfl ht.waits)⟩
  · have htoken : tokenBits (tokenOfByte s.params b) = msbBits 5 (encodeByte s.params b) := by
      rw [tokenOfByte, if_neg hesc]
      rfl
    rw [htoken] at h
    obtain ⟨t, hread, ht⟩ := h.reads_value (by decide)
    have hmem : b ∈ s.params.alphabet.toList := by
      by_contra hb
      exact hesc (encodeByte_eq_ESC.mpr hb)
    obtain ⟨c, hc⟩ := List.mem_iff_getElem?.mp hmem
    have hcode : decodeCode t.params ((encodeByte s.params b).setWidth 8) = some b := by
      rw [hread.params_eq]
      exact decodeCode_encodeByte halphabet hc
    exact ⟨t, (decompressStep_symbol hw hread hesc).trans (emitSymbol_some hcode), ht, hread.readsOnly (by decide) hw⟩

/-! ### The states of a decompress pass -/

/-- In the D.PASS begun at `s`, `t` is a state between two reads of tokens once the bytes `ys` are emitted, with these bits
ahead. -/
structure Decompressing (s : State) (ys : List Byte) (bits : List Bool) (t : State) : Prop where
  ahead : Ahead bits t
  phase : t.phase = .decompress
  wacc : t.wacc = BitAcc.empty
  err : t.err = Err.clear
  io : IoExtends s t
  snk : t.host.snk = dropAnswers ys.length s.host.snk
  sink : sinkBytes t = sinkBytes s ++ ys

theorem Decompressing.of_readsOnly {s t u : State} {ys : List Byte} {bits bits' : List Bool}
    (h : Decompressing s ys bits t) (hu : ReadsOnly t u) (hahead : Ahead bits' u) : Decompressing s ys bits' u where
  ahead := hahead
  phase := hu.phase.trans h.phase
  wacc := hu.wacc.trans h.wacc
  err := hu.err.trans h.err
  io := h.io.trans hu.io
  snk := hu.snk.trans h.snk
  sink := hu.sink.trans h.sink

/-- What the source answers once its list is used up, no record changes. -/
theorem IoExtends.src_after {s t : State} (h : IoExtends s t) : t.host.src.after = s.host.src.after := by
  obtain ⟨-, -, -, es, hes⟩ := h
  rw [hes.src]
  rfl

section
variable {s t : State} {ys : List Byte} {b : Byte} {bits : List Bool}

/-- The reads of a round. -/
theorem Decompressing.token (h : Decompressing s ys (tokenBits (tokenOfByte s.params b) ++ bits) t)
    (halphabet : alphabetOk s.params.alphabet = true) :
    ∃ u, decompressStep t = emitLiteral b u ∧ Decompressing s ys bits u := by
  have hahead := h.ahead
  rw [← h.io.params_eq] at hahead halphabet
  obtain ⟨u, hstep, hu, hreads⟩ := hahead.decompressStep_token halphabet
  exact ⟨u, hstep, h.of_readsOnly hreads hu⟩

/-- The push of a round, where the sink takes the byte. -/
theorem Decompressing.emit (h : Decompressing s ys bits t) (htakes : Takes (ys.length + 1) s.host.snk) :
    ∃ u, emitLiteral b t = .ok () u ∧ Decompressing s (ys ++ [b]) bits u := by
  obtain ⟨-, htaken⟩ := takes_add.mp htakes
  rw [← h.snk] at htaken
  have hemit : emitLiteral b t = .ok () ((t.setHost (afterPushes [b] t.host)).setResp ⟨.ok, b⟩) := by
    rw [emitLiteral, pushByte_taken (n := 0) b h.ahead.waits htaken]
    rfl
  have hio := endsIn_mono (cuttable_emitLiteral b 0 t).io fun _ hu => h.io.trans hu
  rw [hemit] at hio
  refine ⟨_, hemit, ⟨⟨h.ahead.mode, h.ahead.waits, h.ahead.ok, h.ahead.room, h.ahead.stream⟩, h.phase, h.wacc, h.err, hio,
    ?_, ?_⟩⟩
  · rw [List.length_append, ← dropAnswers_add, ← h.snk]
    rfl
  · rw [← List.append_assoc, ← h.sink]
    exact acceptedBytes_afterPushes [b] t

/-- The data tokens of `xs` ahead, and a sink that takes their bytes: one round for each. -/
theorem Decompressing.rounds {xs : List Byte} (halphabet : alphabetOk s.params.alphabet = true) :
    ∀ {ys : List Byte} {t : State},
      Decompressing s ys ((xs.flatMap fun b => tokenBits (tokenOfByte s.params b)) ++ bits) t →
      Takes (ys.length + xs.length) s.host.snk →
      ∃ u, Rounds .decompress decompressStep xs.length t u ∧ Decompressing s (ys ++ xs) bits u := by
  induction xs with
  | nil => exact fun {ys t} h _ => ⟨t, .zero h.phase, by rwa [List.append_nil]⟩
  | cons b xs ih =>
    intro ys t h htakes
    rw [List.flatMap_cons, List.append_assoc] at h
    rw [List.length_cons] at htakes
    obtain ⟨u, hstep, hu⟩ := h.token halphabet
    obtain ⟨v, hemit, hv⟩ := hu.emit (b := b) (htakes.mono (by omega))
    obtain ⟨w, hrounds, hw⟩ := ih hv (htakes.mono (by rw [List.length_append, List.length_singleton]; omega))
    rw [List.append_cons]
    exact ⟨w, .succ h.phase (hstep.trans hemit) hrounds, hw⟩

end

/-! ### The beginning of the stream -/

/-- The bits of the stream are its tokens and its terminal part: they fill whole bytes (R75, R77). -/
theorem bitsOf_compressed (p : Params) (xs : List Byte) :
    bitsOf (compressed p xs) = dataBits p xs ++ terminalBits ((dataBits p xs).length % 8) := by
  have hlen : (dataBits p xs ++ terminalBits ((dataBits p xs).length % 8)).length % 8 = 0 := by
    rw [List.length_append, length_terminalBits (Nat.mod_lt _ (by decide))]
    omega
  have hnone : leftover (dataBits p xs ++ terminalBits ((dataBits p xs).length % 8)) = [] :=
    List.eq_nil_of_length_eq_zero (by rw [length_leftover, hlen])
  have hsplit := bitsOf_wholeBytes_leftover (dataBits p xs ++ terminalBits ((dataBits p xs).length % 8))
  rwa [hnone, List.append_nil] at hsplit

section
variable {s : State} {xs : List Byte}

/-- D.BEGIN reads the version token. -/
theorem decompressing_begun (hw : HostWaits s) (hm : s.params.readerMode = .retain)
    (hq : s.host.src.queued.map srcAnswer = (compressed s.params xs).map .byte) :
    ∃ t, decompressBegin s = .ok () t ∧
      Decompressing s [] ((xs.flatMap fun b => tokenBits (tokenOfByte s.params b)) ++
        terminalBits ((dataBits s.params xs).length % 8)) t := by
  have hstart : Ahead (msbBits 5 VERSION ++ ((xs.flatMap fun b => tokenBits (tokenOfByte s.params b)) ++
      terminalBits ((dataBits s.params xs).length % 8))) (clearErrorAndAccs s) := by
    refine ⟨hm, hw, accOk_empty, Nat.zero_lt_succ 7, compressed s.params xs, hq, ?_⟩
    rw [clearErrorAndAccs_racc, validBits_empty, List.nil_append, bitsOf_compressed, ← List.append_assoc]
    rfl
  obtain ⟨t, hread, ht⟩ := hstart.reads_value (by decide)
  have hkeeps := hread.readsOnly (by decide) hw
  refine ⟨(t.setPhase .decompress).setResp ⟨.ok, 1#8⟩, ?_, ⟨ht.mode, ht.waits, ht.ok, ht.room, ht.stream⟩, rfl,
    hkeeps.wacc, hkeeps.err, ?_, hkeeps.snk, ?_⟩
  · rw [decompressBegin_reads hread hw, acceptVersion, if_neg (not_not.mpr rfl)]
    rfl
  · exact (IoExtends.of_eq rfl rfl : IoExtends s (clearErrorAndAccs s)).trans (hkeeps.io.trans (.of_eq rfl rfl))
  · exact hkeeps.sink.trans (List.append_nil _).symm

/-- D.PASS on a compressed stream after the tokens of the first bytes: what is left are the rounds from there. -/
theorem exec_dPass_after {zs : List Byte} (hl : legal .begin s.phase = true) (hw : HostWaits s)
    (halphabet : alphabetOk s.params.alphabet = true) (hm : s.params.readerMode = .retain)
    (hq : s.host.src.queued.map srcAnswer = (compressed s.params (xs ++ zs)).map .byte)
    (htakes : Takes xs.length s.host.snk) :
    ∃ t m, exec .dPass s = settle (andThen (decompressStep t) fun _ u => passLoop .decompress decompressStep m u) ∧
      Decompressing s xs ((zs.flatMap fun b => tokenBits (tokenOfByte s.params b)) ++
        terminalBits ((dataBits s.params (xs ++ zs)).length % 8)) t := by
  obtain ⟨t, hbegin, ht⟩ := decompressing_begun hw hm hq
  rw [List.flatMap_append, List.append_assoc] at ht
  obtain ⟨u, hrounds, hu⟩ := ht.rounds halphabet (by simpa using htakes)
  have hfuel : xs.length < passRounds s := by
    have hlen := congrArg List.length hq
    rw [List.length_map, List.length_map, length_compressed, length_dataBits, List.length_append] at hlen
    unfold passRounds
    omega
  obtain ⟨m, hlast⟩ := hrounds.passLoop_last hfuel
  refine ⟨u, m, ?_, hu⟩
  rw [exec_legal (i := .dPass) rfl hl, bodyOf, decompressPass, hbegin, andThen_ok, hlast]

end

/-! ### The end of the stream -/

/-- The terminal part is shorter than a code, or a padding escape with at most two zeros after it (R75). -/
theorem terminalBits_cases {k : Nat} (hk : k < 8) :
    (terminalBits k).length < 5 ∨ ∃ j ≤ 2, terminalBits k = msbBits 5 ESC ++ List.replicate j false := by
  by_cases h : 1 ≤ k ∧ k ≤ 3
  · obtain ⟨h1, h3⟩ := h
    refine .inr ⟨3 - k, by omega, ?_⟩
    rw [terminalBits, if_neg (by omega), if_pos (by simp [inPadEscSet, h1, h3])]
  · refine .inl ?_
    rw [length_terminalBits hk]
    omega

/-- At most two held zeros are the writer's padding (R203). -/
theorem acceptsPadEscape_of_zeros {s : State} {j : Nat} (hmode : s.params.terminalEscape = .acceptPad) (hj : j ≤ 2)
    (hracc : s.racc = accOf (List.replicate j false)) : acceptsPadEscape s = true := by
  have hlen : (List.replicate j false).length ≤ 8 := by rw [List.length_replicate]; omega
  refine (acceptsPadEscape_iff s).mpr ⟨hmode, ?_, ?_⟩
  · rw [hracc, accOf_count hlen, List.length_replicate]
    exact hj
  · rw [← BitVec.toNat_inj, hracc, toNat_bits_accOf hlen, natOfBits_replicate_false]
    rfl

section
variable {s t : State} {ys : List Byte} {bits : List Bool}

/-- The pull that meets the end of the stream. -/
theorem Decompressing.pullEnd (h : Decompressing s ys bits t) (hq : t.host.src.queued = [])
    (hend : s.host.src.after.map srcAnswer = some .endOfStream) :
    ∃ rest, NextPull t .endOfStream rest ∧
      Decompressing s ys bits (t.setHost (Machine.afterPull .endOfStream rest t.host)) := by
  obtain ⟨rest, hn, hq', -⟩ := nextPull_of_sourceGives_nil (s := t) (last := .endOfStream)
    ⟨by rw [hq]; rfl, by rw [h.io.src_after, hend]⟩
  obtain ⟨hm, hw, hok, hroom, bytes, hbytes, hbits⟩ := h.ahead
  refine ⟨rest, hn, h.of_readsOnly ⟨rfl, rfl, rfl, rfl, sinkBytes_afterPull _ _ _, .afterPull hw hn⟩
    ⟨hm, hw, hok, hroom, bytes, ?_, hbits⟩⟩
  rw [← hbytes, hq]
  exact hq'

/-- Before the terminal part, and the source at its end, D.STEP ends the pass in AcceptPad mode (R203, R204). -/
theorem Decompressing.finish {k : Nat} (h : Decompressing s ys (terminalBits k) t) (hk : k < 8)
    (hmode : s.params.terminalEscape = .acceptPad) (hend : s.host.src.after.map srcAnswer = some .endOfStream) :
    ∃ u bits, decompressStep t = done (endDecompress u) ∧ Decompressing s ys bits u := by
  rcases terminalBits_cases hk with hshort | ⟨j, hj, hpad⟩
  · obtain ⟨-, hcount, hq⟩ := h.ahead.short (w := 5) (by decide) hshort
    obtain ⟨rest, hn, hu⟩ := h.pullEnd hq hend
    exact ⟨_, _, decompressStep_end h.ahead.waits hcount hn, hu⟩
  · have hahead := h.ahead
    rw [hpad] at hahead
    obtain ⟨u, hread, hu⟩ := hahead.reads_value (by decide)
    have hdec := h.of_readsOnly (hread.readsOnly (by decide) h.ahead.waits) hu
    obtain ⟨hracc, hcount, hq⟩ := hu.short (w := 8) le_rfl (by rw [List.length_replicate]; omega)
    obtain ⟨rest, hn, hv⟩ := hdec.pullEnd hq hend
    refine ⟨_, _, ?_, hv⟩
    rw [decompressStep_escapeEnd h.ahead.waits hread hcount hn, terminalEscape, if_pos]
    exact acceptsPadEscape_of_zeros (by rw [hv.io.params_eq, hmode]) hj hracc

/-- Before the terminal part, and the source silent, D.STEP waits for ever (60_exceptions.md R243). -/
theorem Decompressing.silent {k : Nat} (h : Decompressing s ys (terminalBits k) t) (hk : k < 8)
    (hend : s.host.src.after = none) : decompressStep t = .stuck .hostSilent := by
  rcases terminalBits_cases hk with hshort | ⟨j, hj, hpad⟩
  · obtain ⟨-, hcount, hq⟩ := h.ahead.short (w := 5) (by decide) hshort
    have hn : nextAnswer t.host.src = none := by rw [nextAnswer, hq, h.io.src_after, hend]
    rw [decompressStep, readBits_silent hcount h.ahead.waits hn, andThen_stuck]
  · have hahead := h.ahead
    rw [hpad] at hahead
    obtain ⟨u, hread, hu⟩ := hahead.reads_value (by decide)
    have hdec := h.of_readsOnly (hread.readsOnly (by decide) h.ahead.waits) hu
    obtain ⟨-, hcount, hq⟩ := hu.short (w := 8) le_rfl (by rw [List.length_replicate]; omega)
    have hn : nextAnswer u.host.src = none := by rw [nextAnswer, hq, hdec.io.src_after, hend]
    exact decompressStep_literal_silent h.ahead.waits hread hcount hn

end

/-! ### The statements -/

/-- Settles O53: a round for each token of the stream, and the one that meets its end. -/
theorem dPassDecodesCompressedStreams : Obligations.DPassDecodesCompressedStreams := by
  intro u xs hl hw hs _ halphabet hm hmode ⟨hq, hend⟩
  obtain ⟨t, m, hexec, ht⟩ := exec_dPass_after (zs := []) hl hw halphabet hm (by rwa [List.append_nil])
    (takes_of_sinkAccepts hs xs.length)
  obtain ⟨v, bits, hstep, hv⟩ := ht.finish (Nat.mod_lt _ (by decide)) hmode hend
  refine ⟨endDecompress v, ?_, hv.sink,
    State.ext_fields hv.wacc rfl rfl hv.err rfl hv.io.params_eq (hv.io.host_eq hw hv.ahead.waits)⟩
  rw [hexec, hstep, andThen_done, passLoop_over m (nofun : Phase.done ≠ .decompress)]
  rfl

/-- Settles O54: the bytes C.PASS pushed are the compressed stream, which D.PASS decodes. -/
theorem roundTrip : Obligations.RoundTrip := by
  intro s t u xs ys hl hw hs hxs halphabet hm hmode hsrc hexec hsink hparams hul huw hus husrc
  obtain ⟨t', hexec', hsink', -, -⟩ := compressOutputLaw s xs hl hw hs hxs hsrc
  cases hexec.symm.trans hexec'
  obtain rfl : ys = compressed s.params xs := List.append_cancel_left (hsink.symm.trans hsink')
  rw [← hparams] at halphabet hm hmode husrc
  obtain ⟨v, hv, hvsink, hvfields⟩ := dPassDecodesCompressedStreams u xs hul huw hus hxs halphabet hm hmode husrc
  exact ⟨v, hv, hvsink, by rw [hvfields]⟩

end Sys2Proof.Machine
end

section
/-! PROOFS. A pass that waits for a host that does not answer (60_exceptions.md R243, log 4): it is stuck where one of its
commands would be, and the bound on its rounds (log 5) does not come before. -/

namespace Sys2Proof.Machine

/-! ### A pass is stuck where its steps are -/

theorem settle_eq_fault {r : Run Unit} {f : Fault} : settle r = .fault f ↔ r = .stuck f := by
  cases r <;> simp [settle]

/-- A rejected command leaves PHASE = ERROR (R240, R242). -/
theorem rejectCommand_phase (info : BitVec 8) (s : State) : (rejectCommand info s).phase = .error := by
  by_cases hp : s.phase = .error
  · rw [rejectCommand_error _ hp]
    exact hp
  · rw [rejectCommand_raises _ hp]
    rfl

section
variable {p : Phase} {body : State → Run Unit} {i : Instr} {g : Group}

/-- A STEP that leaves PHASE the pass's began in it and ended well. -/
theorem round_of_exec (hg : groupOf i = some g) (hbody : bodyOf i = body) (hlegal : ∀ q, legal g q = true → q = p)
    (hne : p ≠ .error) (hni : p ≠ .idle) {s t : State} (h : exec i s = .next t) (ht : t.phase = p) :
    s.phase = p ∧ body s = .ok () t := by
  rw [exec_command hg, hbody] at h
  rcases guarded_next h with ⟨hl, hrun⟩ | ⟨-, rfl⟩
  · refine ⟨hlegal _ hl, ?_⟩
    cases hbodyRun : body s with
    | ok a u =>
      rw [hbodyRun] at hrun
      cases hrun
      rfl
    | raised e u =>
      rw [hbodyRun] at hrun
      cases hrun
      exact absurd ht hne.symm
    | cut u =>
      rw [hbodyRun] at hrun
      cases hrun
      exact absurd ht hni.symm
    | stuck f =>
      rw [hbodyRun] at hrun
      cases hrun
  · rw [rejectCommand_phase] at ht
    exact absurd ht hne.symm

/-- Some STEPs that leave PHASE the pass's are rounds of the pass. -/
theorem rounds_of_runTimes (hround : ∀ s t, exec i s = .next t → t.phase = p → s.phase = p ∧ body s = .ok () t)
    {n : Nat} {s t : State} (h : runTimes i n s = .next t) (ht : t.phase = p) : Rounds p body n s t := by
  induction n generalizing s with
  | zero =>
    cases h
    exact .zero ht
  | succ n ih =>
    obtain ⟨u, hu, hrest⟩ := thenRun_eq_next.mp ((runTimes_succ i n s).symm.trans h)
    have hrounds := ih hrest
    obtain ⟨hs, hrun⟩ := hround s u hu hrounds.phase_start
    exact .succ hs hrun hrounds

/-- The loop is stuck where one of its rounds is, since the bound on the rounds may be taken large enough. -/
theorem Rounds.passLoop_stuck {n : Nat} {s t : State} {f : Fault} (h : Rounds p body n s t) (hstuck : body t = .stuck f)
    (hmore : ∀ n, passRounds s ≤ n → passLoop p body n s = passLoop p body (passRounds s) s) :
    passLoop p body (passRounds s) s = .stuck f := by
  obtain ⟨m, hlast⟩ := h.passLoop_last (fuel := passRounds s + n + 1) (by omega)
  rw [← hmore (passRounds s + n + 1) (by omega), hlast, hstuck, andThen_stuck]

/-- The loop of whole commands is stuck where one of them is, after any number of them. -/
theorem runWhile_stuck (hne : p ≠ .error) (hni : p ≠ .idle)
    (hround : ∀ s t, exec i s = .next t → t.phase = p → s.phase = p ∧ body s = .ok () t)
    (hexec : ∀ s, s.phase = p → exec i s = settle (body s))
    (hmore : ∀ s n, passRounds s ≤ n → passLoop p body n s = passLoop p body (passRounds s) s)
    {n : Nat} {t u : State} {f : Fault} (hu : runTimes i n t = .next u) (hp : u.phase = p) (hstuck : exec i u = .fault f) :
    runWhile p i (passRounds t) t = .fault f := by
  rw [hexec u hp, settle_eq_fault] at hstuck
  rw [← settle_passLoop hne hni hexec, (rounds_of_runTimes hround hu hp).passLoop_stuck hstuck (hmore t)]
  rfl

end

/-- C.PASS is stuck where a C.STEP is, after any number of them. -/
theorem exec_cPass_stuck {s t u : State} {n : Nat} (hl : legal .begin s.phase = true) (ht : exec .cBegin s = .next t)
    (hu : runTimes .cStep n t = .next u) (hp : u.phase = .compress) (hstuck : exec .cStep u = .fault .hostSilent) :
    exec .cPass s = .fault .hostSilent := by
  obtain ⟨hpass, -⟩ := passesRunTheirSteps s hl
  rw [hpass, ht, thenRun_next]
  exact runWhile_stuck (p := .compress) nofun nofun
    (fun _ _ => round_of_exec (g := .cStep) rfl rfl (fun _ => phase_of_legal_cStep) nofun nofun)
    (fun _ => exec_cStep) (fun _ _ => compressLoop_eq) hu hp hstuck

/-- D.PASS is stuck where a D.STEP is, after any number of them. -/
theorem exec_dPass_stuck {s t u : State} {n : Nat} (hl : legal .begin s.phase = true) (ht : exec .dBegin s = .next t)
    (hu : runTimes .dStep n t = .next u) (hp : u.phase = .decompress) (hstuck : exec .dStep u = .fault .hostSilent) :
    exec .dPass s = .fault .hostSilent := by
  obtain ⟨-, hpass⟩ := passesRunTheirSteps s hl
  rw [hpass, ht, thenRun_next]
  exact runWhile_stuck (p := .decompress) nofun nofun
    (fun _ _ => round_of_exec (g := .dStep) rfl rfl (fun _ => phase_of_legal_dStep) nofun nofun)
    (fun _ => exec_dStep) (fun _ _ => decompressLoop_eq) hu hp hstuck

/-! ### Hosts that fall silent at a named place -/

theorem nextAnswer_of_nil {α : Type} {a : Answers α} (hq : a.queued = []) (hafter : a.after = none) :
    nextAnswer a = none := by
  rw [nextAnswer, hq, hafter]

/-- A sink that accepts n pushes and then falls silent. -/
theorem silent_of_sinkSilentAfter {n : Nat} {s : State} (h : SinkSilentAfter n s) :
    Takes n s.host.snk ∧ nextAnswer (dropAnswers n s.host.snk) = none := by
  obtain ⟨rfl, hok, hafter⟩ := h
  exact ⟨takes_of_queued (List.append_nil _).symm hok, nextAnswer_of_nil (by simp [dropAnswers]) hafter⟩

section
variable {s : State} {xs : List Byte} (hl : legal .begin s.phase = true) (hw : HostWaits s)
include hl hw

/-- C.PASS with a source that falls silent after ASCII bytes. -/
theorem exec_cPass_source_silent (hxs : Ascii xs) (hs : SinkAccepts s)
    (hq : s.host.src.queued.map srcAnswer = xs.map .byte) (hafter : s.host.src.after = none) :
    exec .cPass s = .fault .hostSilent := by
  obtain ⟨t, m, hexec, ht, -, htq, htlast⟩ := exec_cPass_after hl hw hxs hs (more := []) (by rw [hq, List.append_nil])
  have hn : nextAnswer t.host.src = none := nextAnswer_of_nil (List.map_eq_nil_iff.mp htq) (htlast.trans hafter)
  rw [hexec]
  exact settle_andThen_stuck _ (by rw [compressStep, srcPull_silent ht.waits hn, andThen_stuck])

/-- C.PASS with a sink that falls silent before the last byte of the stream. -/
theorem exec_cPass_sink_silent {n : Nat} (hxs : Ascii xs) (hsnk : SinkSilentAfter n s)
    (hlt : n < (compressed s.params xs).length) (hsrc : SourceGives s (xs.map .byte) .endOfStream) :
    exec .cPass s = .fault .hostSilent := by
  obtain ⟨htakes, hsilent⟩ := silent_of_sinkSilentAfter hsnk
  obtain ⟨r, hr, hpush⟩ := exec_cPass_atPush hl hw hxs htakes hlt hsrc
  rw [hr]
  exact hpush.silent (by rwa [List.length_take_of_le hlt.le])

section
variable (halphabet : alphabetOk s.params.alphabet = true) (hm : s.params.readerMode = .retain)
  (hq : s.host.src.queued.map srcAnswer = (compressed s.params xs).map .byte)
include halphabet hm hq

/-- D.PASS, in Retain mode, with a source that falls silent after a compressed stream. -/
theorem exec_dPass_source_silent (hs : SinkAccepts s) (hafter : s.host.src.after = none) :
    exec .dPass s = .fault .hostSilent := by
  obtain ⟨t, m, hexec, ht⟩ := exec_dPass_after (zs := []) hl hw halphabet hm (by rwa [List.append_nil])
    (takes_of_sinkAccepts hs xs.length)
  rw [hexec]
  exact settle_andThen_stuck _ (ht.silent (Nat.mod_lt _ (by decide)) hafter)

/-- D.PASS, in Retain mode, with a sink that falls silent before the last decoded byte. -/
theorem exec_dPass_sink_silent {n : Nat} (hsnk : SinkSilentAfter n s) (hlt : n < xs.length) :
    exec .dPass s = .fault .hostSilent := by
  obtain ⟨htakes, hsilent⟩ := silent_of_sinkSilentAfter hsnk
  have htake : (xs.take n).length = n := List.length_take_of_le hlt.le
  obtain ⟨t, m, hexec, ht⟩ := exec_dPass_after (xs := xs.take n) (zs := xs.drop n) hl hw halphabet hm
    (by rwa [List.take_append_drop]) (by rwa [htake])
  rw [List.drop_eq_getElem_cons hlt, List.flatMap_cons, List.append_assoc] at ht
  obtain ⟨u, hstep, hu⟩ := ht.token halphabet
  have hn : nextAnswer u.host.snk = none := by rw [hu.snk, htake, hsilent]
  rw [hexec]
  exact settle_andThen_stuck _ (hstep.trans (settle_eq_fault.mp (settle_emitLiteral_silent _ hu.ahead.waits hn)))

end

end

/-- Settles O60: the passes through their BEGIN and STEPs, and the four hosts by what the pass has done when they fall
silent. -/
theorem silentHostLeavesAPassStuck : Obligations.SilentHostLeavesAPassStuck := by
  intro s hl hw
  refine ⟨fun hbegin => ?_, fun t n u => exec_cPass_stuck hl, fun t n u => exec_dPass_stuck hl, fun xs hxs =>
    ⟨exec_cPass_source_silent hl hw hxs, fun n => exec_cPass_sink_silent hl hw hxs, fun halphabet hm =>
      ⟨fun hs hq => exec_dPass_source_silent hl hw halphabet hm hq hs,
        fun n hsnk hlt ⟨hq, _⟩ => exec_dPass_sink_silent hl hw halphabet hm hq hsnk hlt⟩⟩⟩
  obtain ⟨-, hpass⟩ := passesRunTheirSteps s hl
  rw [hpass, hbegin, thenRun_fault]

end Sys2Proof.Machine
end

section
/-! PROOFS. Raising an error and the phase guard (60_exceptions.md R230, R233, R237, R240, R241), and what can happen in
PHASE = ERROR (R234, R242). -/

namespace Sys2Proof.Machine

/-- Settles O13: `takeError` writes three registers, and a sequence stops at its first raise. -/
theorem raiseWritesErrPhaseResp : Obligations.RaiseWritesErrPhaseResp :=
  fun _ _ => ⟨rfl, fun _ => rfl, rfl, rfl, rfl, rfl, rfl, rfl⟩

/-! ### The phase guard -/

theorem legal_raw (p : Phase) : legal .raw p = decide (p = .idle) := by cases p <;> rfl

theorem legal_begin (p : Phase) : legal .begin p = decide (p = .idle ∨ p = .done ∨ p = .error) := by cases p <;> rfl

theorem legal_cStep (p : Phase) : legal .cStep p = decide (p = .compress) := by cases p <;> rfl

theorem legal_dStep (p : Phase) : legal .dStep p = decide (p = .decompress) := by cases p <;> rfl

/-- A command that is not legal runs nothing of its body (R240). -/
theorem exec_not_legal {i : Instr} {g : Group} {s : State} (hg : groupOf i = some g) (hl : legal g s.phase = false) :
    exec i s = .next (rejectCommand 1#8 s) := by
  rw [exec_command hg, guarded_not_legal _ hl]

/-- Settles O14: the table of R237 row by row, and the two outcomes of a command that is not legal. -/
theorem phaseGuard : Obligations.PhaseGuard := by
  refine ⟨legal_raw, fun _ => rfl, legal_begin, legal_cStep, legal_dStep, fun _ => rfl, fun i g s hg hl => ?_⟩
  rw [exec_not_legal hg hl]
  by_cases hp : s.phase = .error
  · rw [if_pos hp, rejectCommand_error _ hp]
    rfl
  · rw [if_neg hp, rejectCommand_raises _ hp]
    rfl

/-- Settles O17, from what each of the three commands does in any phase. -/
theorem alwaysLegalCommands : Obligations.AlwaysLegalCommands := by
  refine fun s => ⟨fun b => ⟨_, exec_tblEncode b s⟩, fun c => ⟨_, exec_tblDecode c s, ?_⟩, ⟨_, ctlIdleRuns s, rfl⟩⟩
  obtain ⟨hne, -⟩ := plainResp_decodeResponse s.params.alphabet.toList[c.toNat]?
  exact hne

/-! ### Words in PHASE = ERROR -/

/-- The commands that start anew, by their rows of R237. -/
theorem mem_restarts_iff {i : Instr} : i ∈ [Instr.cBegin, .dBegin, .cPass, .dPass, .ctlIdle] ↔
    groupOf i = some .begin ∨ groupOf i = some .idle := by
  cases i <;> simp [groupOf]

/-- The rows of R237 that are legal in PHASE = ERROR. -/
theorem legal_error_iff {g : Group} : legal g .error = true ↔ g = .table ∨ g = .begin ∨ g = .idle := by
  cases g <;> simp [legal]

/-- A table lookup writes RESP and nothing else, in every phase (R241). -/
theorem exec_table {i : Instr} (hg : groupOf i = some .table) (s : State) : ∃ r, exec i s = .next (s.setResp r) := by
  cases i with
  | tblEncode b => exact ⟨_, exec_tblEncode b s⟩
  | tblDecode c => exact ⟨_, exec_tblDecode c s⟩
  | _ => cases hg

theorem eq_lookup_of_table {i : Instr} (hg : groupOf i = some .table) :
    (∃ b, i = .tblEncode b) ∨ ∃ c, i = .tblDecode c := by
  cases i with
  | tblEncode b => exact .inl ⟨b, rfl⟩
  | tblDecode c => exact .inr ⟨c, rfl⟩
  | _ => cases hg

/-- What a word does in PHASE = ERROR: it is ignored (R242), or is a table lookup (R241), or runs a command that starts
anew (R234). -/
theorem runWord_in_error (w : CmdWord) {s : State} (hp : s.phase = .error) :
    runWord w s = .next (ignoreInError s) ∨
    (∃ i r, decodeWord w = .ok i ∧ groupOf i = some .table ∧ runWord w s = .next (s.setResp r)) ∨
    ∃ i, decodeWord w = .ok i ∧ (groupOf i = some .begin ∨ groupOf i = some .idle) ∧
      runWord w s = settle (bodyOf i s) := by
  cases hd : decode (.command w) with
  | error e => exact .inl (by rw [runWord_error s hd, rejectCommand_error _ hp])
  | ok i =>
    obtain ⟨g, hg⟩ := groupOf_of_decode_command hd
    rw [runWord_ok s hd]
    cases hl : legal g s.phase with
    | false => exact .inl (by rw [exec_not_legal hg hl, rejectCommand_error _ hp])
    | true =>
      rcases legal_error_iff.mp (hp ▸ hl) with rfl | rfl | rfl
      · obtain ⟨r, hr⟩ := exec_table hg s
        exact .inr (.inl ⟨i, r, hd, hg, hr⟩)
      · exact .inr (.inr ⟨i, hd, .inl hg, exec_legal hg hl⟩)
      · exact .inr (.inr ⟨i, hd, .inr hg, exec_legal hg hl⟩)

/-- Settles O16: of the words that are not told to start anew, the lookups write RESP and all others are ignored. -/
theorem firstErrorIsKept : Obligations.FirstErrorIsKept := by
  intro s t w rest hp he hne ht
  obtain ⟨u, hu, rfl⟩ := mapNext_eq_next.mp ((step_command he).symm.trans ht)
  rcases runWord_in_error w (s := acceptEvent rest none s) hp with h | ⟨i, r, hi, hg, h⟩ | ⟨i, hi, hg, -⟩
  · cases hu.symm.trans h
    exact ⟨rfl, hp, rfl, rfl, rfl, fun _ _ => rfl⟩
  · cases hu.symm.trans h
    refine ⟨rfl, hp, rfl, rfl, rfl, fun hencode hdecode => ?_⟩
    rcases eq_lookup_of_table hg with ⟨b, rfl⟩ | ⟨c, rfl⟩
    · exact absurd hi (hencode b)
    · exact absurd hi (hdecode c)
  · exact absurd (mem_restarts_iff.mpr hg) (hne i hi)

/-! ### Leaving PHASE = ERROR -/

/-- A command that starts anew clears ERR and the accumulators first, so it does not see what they held (R234). -/
theorem bodyOf_clearErrorAndAccs {i : Instr} (hg : groupOf i = some .begin ∨ groupOf i = some .idle) (s : State) :
    bodyOf i (clearErrorAndAccs s) = bodyOf i s := by
  cases i with
  | cBegin | dBegin | cPass | dPass | ctlIdle => rfl
  | _ => simp [groupOf] at hg

/-- Where a command that starts anew does not raise, ERR is clear after it: nothing in it writes ERR but a raise. -/
theorem err_clear_of_restart {i : Instr} {s t : State} (hg : groupOf i = some .begin ∨ groupOf i = some .idle)
    (h : settle (bodyOf i s) = .next t) (ht : t.phase ≠ .error) : t.err = Err.clear := by
  obtain ⟨g, hrow⟩ : ∃ g, groupOf i = some g := hg.elim (fun h => ⟨_, h⟩) fun h => ⟨_, h⟩
  have herr := raisesKnown_bodyOf hrow (clearErrorAndAccs s)
  rw [bodyOf_clearErrorAndAccs hg] at herr
  cases hrun : bodyOf i s with
  | ok a u =>
    rw [hrun] at h herr
    cases h
    exact herr.elim (fun h => h) fun h => h
  | raised e u =>
    rw [hrun] at h
    cases h
    exact absurd rfl ht
  | cut u =>
    rw [hrun] at h
    cases h
    rfl
  | stuck f =>
    rw [hrun] at h
    cases h

/-- Settles O15, by the host's next event. -/
theorem errorIsLeftOnlyByRestarting : Obligations.ErrorIsLeftOnlyByRestarting := by
  intro s t hp h ht
  cases he : s.host.events with
  | nil =>
    cases (step_noEvent he).symm.trans h
    exact absurd hp ht
  | cons event rest =>
    cases event with
    | reset =>
      cases (step_reset he).symm.trans h
      exact ⟨rfl, .inl ⟨rest, rfl⟩⟩
    | commandCutByReset w n =>
      obtain ⟨u, -, rfl⟩ := mapNext_eq_next.mp ((step_commandCutByReset he).symm.trans h)
      exact ⟨rfl, .inr (.inl ⟨w, n, rest, rfl⟩)⟩
    | command w =>
      obtain ⟨u, hu, rfl⟩ := mapNext_eq_next.mp ((step_command he).symm.trans h)
      rcases runWord_in_error w (s := acceptEvent rest none s) hp with hw | ⟨i, r, -, -, hw⟩ | ⟨i, hi, hg, hw⟩
      · cases hu.symm.trans hw
        exact absurd hp ht
      · cases hu.symm.trans hw
        exact absurd hp ht
      · exact ⟨err_clear_of_restart (t := u) hg (hw.symm.trans hu) ht,
          .inr (.inr ⟨w, i, rest, rfl, hi, mem_restarts_iff.mpr hg⟩)⟩

end Sys2Proof.Machine
end

section
/-! PROOFS. Every step ends where the source comes to its end and the sink answers (60_exceptions.md R243,
70_reset_and_hazards.md R271): no port falls silent, and a pass outlasts its bound only on a source that answers bytes
for ever (log 5). -/

namespace Sys2Proof.Machine

/-! ### Commands other than the passes -/

/-- A run that can be stuck only on a port that falls silent. -/
abbrev LogsAny {α : Type} (s : State) (r : Run α) : Prop := Logs s (fun _ _ _ => True) (fun _ => True) r

theorem Logs.any {α : Type} {s : State} {r : Run α} {Ok : List IoEvent → α → State → Prop} {Bad : List IoEvent → Prop}
    (h : Logs s Ok Bad r) : LogsAny s r := h.mono (fun _ _ _ _ => trivial) fun _ _ => trivial

theorem LogsAny.andThen {α β : Type} {s : State} {r : Run α} {k : α → State → Run β} (hr : LogsAny s r)
    (hk : ∀ a t, LogsAny t (k a t)) : LogsAny s (andThen r k) :=
  Logs.andThen hr (fun _ _ => trivial) fun _ a t _ => hk a t

/-- A command that only writes registers. -/
theorem LogsAny.done {s t : State} (h : t.host = s.host) : LogsAny s (done t) := .ok h trivial

theorem logsAny_flushW (s : State) : LogsAny s (flushW s) := by
  by_cases h0 : s.wacc.count.val = 0
  · rw [flushW, if_pos h0]
    exact .done rfl
  · exact (logs_flushW (Nat.pos_of_ne_zero h0)).any

theorem logsAny_pushCommand (sel : Sel) (bit : Bool) (s : State) : LogsAny s (pushCommand sel bit s) := by
  unfold pushCommand
  split
  · exact .raised rfl trivial
  · cases sel <;> exact .done rfl

/-- Every command but the passes is stuck only on a port that falls silent (R243). -/
theorem logsAny_bodyOf {i : Instr} {g : Group} (hg : groupOf i = some g) (hc : i ≠ .cPass) (hd : i ≠ .dPass)
    (s : State) : LogsAny s (bodyOf i s) := by
  cases i with
  | accPush sel bit => exact logsAny_pushCommand sel bit s
  | accIsFull sel => exact .done rfl
  | accClear sel => cases sel <;> exact .done rfl
  | wrWrite5 value => exact (logsWrite_writeBits 5 value s).any.andThen fun _ _ => .done rfl
  | wrWrite8 value => exact (logsWrite_writeBits 8 value s).any.andThen fun _ _ => .done rfl
  | wrFlush => exact (logsAny_flushW s).andThen fun _ _ => .done rfl
  | rdRead5 => exact (logs_readBits (by decide) s).any.andThen fun _ _ => .done rfl
  | rdRead8 => exact (logs_readBits (by decide) s).any.andThen fun _ _ => .done rfl
  | tblEncode byte => exact .done rfl
  | tblDecode code => exact .done rfl
  | cBegin =>
    rw [bodyOf, compressBegin_eq]
    exact .done rfl
  | cStep => exact (logs_compressStep s).any
  | cPass => exact absurd rfl hc
  | dBegin => exact (logs_decompressBegin s).any
  | dStep => exact (logs_decompressStep s).any
  | dPass => exact absurd rfl hd
  | ctlIdle => exact .done rfl
  | _ => cases hg

/-! ### Hosts that bring every command to its end -/

/-- After its listed answers the source gives one that is no byte for ever, and the sink some answer for ever. -/
structure LastAnswers (r : SrcReply) (q : SnkReply) (s : State) : Prop where
  src : s.host.src.after = some r
  noByte : ∀ b, srcAnswer r ≠ .byte b
  snk : s.host.snk.after = some q

section
variable {r : SrcReply} {q : SnkReply} {s t : State}

/-- Pulls and pushes use up the listed answers only. -/
theorem LastAnswers.after {es : List IoEvent} (h : LastAnswers r q s) (hes : Logged es s t) : LastAnswers r q t where
  src := by rw [hes.src]; exact h.src
  noByte := h.noByte
  snk := by rw [hes.snk]; exact h.snk

/-- With such a host no port falls silent. -/
theorem LastAnswers.not_stuck {α : Type} {x : Run α} {f : Fault} {Ok : List IoEvent → α → State → Prop}
    {Bad : List IoEvent → Prop} (h : LastAnswers r q s) (hx : Logs s Ok Bad x) : x ≠ .stuck f := by
  rintro rfl
  obtain ⟨-, hsrc | hsnk⟩ := hx
  · exact nomatch h.src.symm.trans hsrc
  · exact nomatch h.snk.symm.trans hsnk

/-- Its source does not answer bytes for ever. -/
theorem LastAnswers.not_endless {good : SrcAnswer → Prop} (hgood : ∀ a, good a → IsByte a) (h : LastAnswers r q s) :
    ¬ EndlessHost good s := by
  rintro ⟨-, ⟨r', hsrc, hr'⟩, -⟩
  obtain rfl : r' = r := by
    have hafter := h.src
    rw [hsrc] at hafter
    exact Option.some.inj hafter
  obtain ⟨b, hb⟩ := hgood _ hr'
  exact h.noByte b hb

end

/-! ### The passes -/

section
variable {p : Phase} {body : State → Run Unit}

/-- A loop that is stuck went through all its rounds, or is stuck in one of them. -/
theorem passLoop_eq_stuck {fuel : Nat} {s : State} {f : Fault} (h : passLoop p body fuel s = .stuck f) :
    ∃ n t, Rounds p body n s t ∧ (n = fuel ∨ body t = .stuck f) := by
  induction fuel generalizing s with
  | zero =>
    by_cases hs : s.phase = p
    · exact ⟨0, s, .zero hs, .inl rfl⟩
    · cases (passLoop_over 0 hs).symm.trans h
  | succ fuel ih =>
    by_cases hs : s.phase = p
    · rw [passLoop_succ fuel hs] at h
      rcases andThen_eq_stuck.mp h with hround | ⟨a, t, hround, hrest⟩
      · exact ⟨0, s, .zero hs, .inr hround⟩
      · obtain ⟨n, u, hu, hend⟩ := ih hrest
        exact ⟨n + 1, u, .succ hs hround hu, hend.imp_left (congrArg (· + 1))⟩
    · cases (passLoop_over _ hs).symm.trans h

variable {good : SrcAnswer → Prop} {φ ψ : State → Nat} {r : SrcReply} {q : SnkReply}

/-- The loop of a pass ends: no round is stuck, and the host does not last for all the rounds. -/
theorem Steady.passLoop_ends (hsteady : Steady good φ ψ p body) (hgood : ∀ a, good a → IsByte a) {s : State} (hφ : φ s ≤ 8)
    (hψ : ψ s ≤ 8) (h : LastAnswers r q s) {n : Nat} (hn : passRounds s ≤ n) (f : Fault) :
    passLoop p body n s ≠ .stuck f := by
  intro hstuck
  rw [hsteady.passLoop_eq hφ hψ hn] at hstuck
  obtain ⟨m, t, hrounds, hend⟩ := passLoop_eq_stuck hstuck
  obtain ⟨es, hes, -⟩ := hrounds.log hsteady
  have ht := h.after hes
  rcases hend with rfl | hround
  · exact ht.not_endless hgood (hrounds.endlessHost hsteady hφ hψ)
  · exact ht.not_stuck (hsteady t hrounds.phase_end) hround

end

section
variable {r : SrcReply} {q : SnkReply} {s : State}

theorem LastAnswers.compressPass_ends (h : LastAnswers r q s) (f : Fault) : compressPass s ≠ .stuck f := by
  intro hstuck
  rw [compressPass, compressBegin_eq, andThen_done] at hstuck
  exact steady_compressStep.passLoop_ends (s := compressBegun s) (fun _ ⟨b, hb, _⟩ => ⟨b, hb⟩) (Nat.zero_le 8)
    (Nat.sub_le 8 _) ⟨h.src, h.noByte, h.snk⟩ le_rfl f hstuck

theorem LastAnswers.decompressPass_ends (h : LastAnswers r q s) (f : Fault) : decompressPass s ≠ .stuck f := by
  intro hstuck
  rcases andThen_eq_stuck.mp hstuck with hbegin | ⟨a, t, hbegin, hloop⟩
  · exact h.not_stuck (logs_decompressBegin s) hbegin
  · have hlog := logs_decompressBegin s
    rw [hbegin] at hlog
    obtain ⟨es, hes, -⟩ := hlog
    exact steady_decompressStep.passLoop_ends (fun _ ha => ha) (Nat.le_of_lt_succ t.racc.count.isLt) (Nat.zero_le 8)
      (h.after hes) (passRounds_of_decompressBegin hbegin) f hloop

/-- Every command's body ends. -/
theorem LastAnswers.bodyOf_ends {i : Instr} {g : Group} (h : LastAnswers r q s) (hg : groupOf i = some g) (f : Fault) :
    bodyOf i s ≠ .stuck f := by
  by_cases hc : i = .cPass
  · rw [hc]
    exact h.compressPass_ends f
  · by_cases hd : i = .dPass
    · rw [hd]
      exact h.decompressPass_ends f
    · exact h.not_stuck (logsAny_bodyOf hg hc hd s)

/-! ### Steps -/

theorem exists_settle_next {x : Run Unit} (h : ∀ f, x ≠ .stuck f) : ∃ t, settle x = .next t := by
  cases x with
  | ok a t => exact ⟨_, rfl⟩
  | raised e t => exact ⟨_, rfl⟩
  | cut t => exact ⟨_, rfl⟩
  | stuck f => exact absurd rfl (h f)

/-- Every word ends: it is rejected, or its command's body ends. -/
theorem LastAnswers.runWord_ends (h : LastAnswers r q s) (w : CmdWord) : ∃ t, runWord w s = .next t := by
  cases hd : decode (.command w) with
  | error e => exact ⟨_, runWord_error s hd⟩
  | ok i =>
    obtain ⟨g, hg⟩ := groupOf_of_decode_command hd
    rw [runWord_ok s hd]
    cases hl : legal g s.phase with
    | false => exact ⟨_, exec_not_legal hg hl⟩
    | true =>
      rw [exec_legal hg hl]
      exact exists_settle_next (h.bodyOf_ends hg)

end

/-- Settles O24, by the host's next event. -/
theorem everyStepEndsUnderTheLaunchPremise : Obligations.EveryStepEndsUnderTheLaunchPremise := by
  intro s r q hsrc hr hsnk
  have hends (rest : List HostEvent) (n : Option Nat) (w : CmdWord) : ∃ t, runWord w (acceptEvent rest n s) = .next t :=
    LastAnswers.runWord_ends (s := acceptEvent rest n s) (r := r) (q := q) ⟨hsrc, hr, hsnk⟩ w
  cases he : s.host.events with
  | nil => exact ⟨s, step_noEvent he⟩
  | cons event rest =>
    cases event with
    | reset => exact ⟨_, step_reset he⟩
    | command w =>
      obtain ⟨t, ht⟩ := hends rest none w
      exact ⟨returnResponse t, by rw [step_command he, ht]; rfl⟩
    | commandCutByReset w n =>
      obtain ⟨t, ht⟩ := hends rest (some n) w
      exact ⟨endByReset t, by rw [step_commandCutByReset he, ht]; rfl⟩

end Sys2Proof.Machine
end

section
/-! PROOFS. A reset ends a wait for a host that never answers (60_exceptions.md R243, 70_reset_and_hazards.md R260, logs 4
and 6): the waiting run, with the reset to come, does the same pulls and pushes until the reset is due. -/

namespace Sys2Proof.Machine

/-! ### A waiting command, with a reset during it -/

/-- How a run that waits for ever, with `record` the pulls and pushes done before, ends with a reset once the record holds
`total` of them: it is cut off with the first `total` of the record, or, where the record never holds so many, it waits. -/
inductive WaitAt (total : Nat) (record : List IoEvent) {α : Type} : Run α → Prop
  | cut {u : State} (due : total ≤ record.length) (trace : u.host.trace = record.take total) : WaitAt total record (.cut u)
  | stuck (late : record.length < total) : WaitAt total record (.stuck .hostSilent)

/-- If `r`, a run from `s` that no reset cuts off, waits for the host for ever, then the runs `r'`, the same run with a reset
to come once the record holds `total` pulls and pushes, wait or are cut off after one and the same record. -/
def Stalls {α : Type} (s : State) (r : Run α) (r' : Nat → Run α) : Prop :=
  HostWaits s → r = .stuck .hostSilent →
    ∃ record, s.host.trace <+: record ∧ ∀ total, s.host.trace.length ≤ total → WaitAt total record (r' total)

theorem WaitAt.andThen {α β : Type} {total : Nat} {record : List IoEvent} {r : Run α} (h : WaitAt total record r)
    (k : α → State → Run β) : WaitAt total record (andThen r k) := by
  cases h with
  | cut due trace => exact .cut due trace
  | stuck late => exact .stuck late

/-- A run that does not wait. -/
theorem Stalls.of_ne {α : Type} {s : State} {r : Run α} {r' : Nat → Run α} (h : r ≠ .stuck .hostSilent) : Stalls s r r' :=
  fun _ hr => absurd hr h

theorem Stalls.ok {α : Type} {s t : State} {a : α} {r' : Nat → Run α} : Stalls s (.ok a t) r' := .of_ne nofun

theorem Stalls.raised {α : Type} {s t : State} {e : Raised} {r' : Nat → Run α} : Stalls s (.raised e t) r' := .of_ne nofun

/-- A run that waits at once: it is cut off where the reset is due at once too. -/
theorem Stalls.of_silent {α : Type} {s : State} {r : Run α} {r' : Nat → Run α}
    (due : r' s.host.trace.length = .cut (resetAt s.host.trace.length s))
    (late : r = .stuck .hostSilent → ∀ total, s.host.trace.length < total → r' total = .stuck .hostSilent) :
    Stalls s r r' := by
  refine fun _ hr => ⟨s.host.trace, ⟨[], List.append_nil _⟩, fun total hl => ?_⟩
  rcases Nat.eq_or_lt_of_le hl with rfl | hlt
  · rw [due]
    exact .cut le_rfl List.take_length.symm
  · rw [late hr total hlt]
    exact .stuck hlt

/-- Registers may be written before the run begins. -/
theorem Stalls.of_host_eq {α : Type} {s t : State} {r : Run α} {r' : Nat → Run α} (h : Stalls t r r')
    (hh : t.host = s.host) : Stalls s r r' := by
  unfold Stalls HostWaits at h
  rwa [hh] at h

theorem Stalls.ite {α : Type} {s : State} {c : Prop} [Decidable c] {r₁ r₂ : Run α} {r₁' r₂' : Nat → Run α}
    (h₁ : c → Stalls s r₁ r₁') (h₂ : ¬ c → Stalls s r₂ r₂') :
    Stalls s (if c then r₁ else r₂) (fun total => if c then r₁' total else r₂' total) := by
  by_cases hc : c
  · simpa only [if_pos hc] using h₁ hc
  · simpa only [if_neg hc] using h₂ hc

/-- A run that ends well lets the command go on without a reset. -/
theorem waits_of_cuttable {α : Type} {s t : State} {a : α} {r' : Nat → Run α}
    (h : ∀ total, Cuttable total s (.ok a t) (r' total)) (hw : HostWaits s) : HostWaits t := by
  have hcutAt := (h (s.host.trace.length + t.host.trace.length + 1)).cut hw (by omega)
  generalize r' (s.host.trace.length + t.host.trace.length + 1) = x at hcutAt
  cases hcutAt with
  | ok waits _ => exact waits
  | cut record =>
    obtain ⟨hlen, -⟩ := record
    omega

/-- Two runs in sequence: the first one waits, or the second one after the first one's record. -/
theorem Stalls.andThen {α β : Type} {s : State} {r : Run α} {r' : Nat → Run α} {k : α → State → Run β}
    {k' : Nat → α → State → Run β} (hcut : ∀ total, Cuttable total s r (r' total)) (hr : Stalls s r r')
    (hk : ∀ a t, Stalls t (k a t) fun total => k' total a (resetAt total t)) :
    Stalls s (andThen r k) fun total => andThen (r' total) (k' total) := by
  intro hw hstuck
  rcases andThen_eq_stuck.mp hstuck with hfirst | ⟨a, t, rfl, hsecond⟩
  · obtain ⟨record, hpre, hwait⟩ := hr hw hfirst
    exact ⟨record, hpre, fun total hl => (hwait total hl).andThen _⟩
  · have hst : s.host.trace <+: t.host.trace := (hcut 0).io.trace_extends
    obtain ⟨record, hpre, hwait⟩ := hk a t (waits_of_cuttable hcut hw) hsecond
    refine ⟨record, hst.trans hpre, fun total hl => ?_⟩
    have hcutAt := (hcut total).cut hw hl
    change WaitAt total record (Machine.andThen (r' total) (k' total))
    generalize r' total = x at hcutAt ⊢
    cases hcutAt with
    | ok _ fits => exact hwait total fits
    | cut early =>
      obtain ⟨hlen, htrace⟩ := early
      refine .cut (hlen.trans hpre.length_le) ?_
      obtain ⟨es, rfl⟩ := hpre
      rw [htrace, List.take_append_of_le_length hlen]

/-! ### Pulls and pushes -/

theorem stalls_srcPull (s : State) : Stalls s (srcPull s) fun total => srcPull (resetAt total s) := by
  refine .of_silent (by simp [srcPull, resetAt]) fun hr total hlt => ?_
  have hdue : total - s.host.trace.length ≠ 0 := by omega
  rcases srcPull_cases s with ⟨-, h⟩ | ⟨-, r, rest, -, h⟩ | ⟨-, hn, -⟩
  · cases hr.symm.trans h
  · cases hr.symm.trans h
  · simp [srcPull, resetAt, hn, hdue]

theorem stalls_sinkPush (b : Byte) (s : State) : Stalls s (sinkPush b s) fun total => sinkPush b (resetAt total s) := by
  refine .of_silent (by simp [sinkPush, resetAt]) fun hr total hlt => ?_
  have hdue : total - s.host.trace.length ≠ 0 := by omega
  rcases sinkPush_cases b s with ⟨-, h⟩ | ⟨-, r, rest, -, h⟩ | ⟨-, hn, -⟩
  · cases hr.symm.trans h
  · cases hr.symm.trans h
  · simp [sinkPush, resetAt, hn, hdue]

theorem stalls_pushByte (b : Byte) (s : State) : Stalls s (pushByte b s) fun total => pushByte b (resetAt total s) :=
  .andThen (fun total => cuttable_sinkPush b total s) (stalls_sinkPush b s) fun accepted _ => by
    cases accepted with
    | true => exact .ok
    | false => exact .raised

/-! ### The writer and the reader -/

theorem stalls_drainIfFull (s : State) : Stalls s (drainIfFull s) fun total => drainIfFull (resetAt total s) :=
  .ite (fun _ => .andThen (fun total => cuttable_pushByte s.wacc.bits total s) (stalls_pushByte s.wacc.bits s)
    fun _ _ => .ok) fun _ => .ok

theorem stalls_writeLoop (bs : List Bool) (s : State) :
    Stalls s (writeLoop bs s) fun total => writeLoop bs (resetAt total s) := by
  induction bs generalizing s with
  | nil => exact .ok
  | cons b bs ih =>
    exact .of_host_eq (t := s.setWacc (pushBit s.wacc b))
      (.andThen (fun total => cuttable_drainIfFull total _) (stalls_drainIfFull _) fun _ t => ih t) rfl

theorem stalls_writeBits (w : Nat) (v : BitVec w) (s : State) :
    Stalls s (writeBits w v s) fun total => writeBits w v (resetAt total s) :=
  .andThen (fun total => cuttable_drainIfFull total s) (stalls_drainIfFull s) fun _ t => stalls_writeLoop _ t

theorem stalls_flushW (s : State) : Stalls s (flushW s) fun total => flushW (resetAt total s) := by
  refine .ite (fun _ => .ok) fun _ => .andThen (fun total => ?_)
    (.ite (fun _ => stalls_writeBits 5 ESC s) fun _ => .ok) fun _ t => .andThen (fun total => ?_)
    (.ite (fun _ => stalls_pushByte (flushByte t.wacc) t) fun _ => .ok) fun _ _ => .ok
  · exact .ite (fun _ => cuttable_writeBits 5 ESC total s) fun _ => .ok rfl rfl
  · exact .ite (fun _ => cuttable_pushByte (flushByte t.wacc) total t) fun _ => .ok rfl rfl

theorem stalls_readBits (w : Nat) (s : State) : Stalls s (readBits w s) fun total => readBits w (resetAt total s) := by
  refine .ite (fun _ => .ok) fun _ => .andThen (fun total => cuttable_srcPull total s) (stalls_srcPull s) fun a t => ?_
  cases a with
  | byte B => exact .ok
  | endOfStream => exact .ok
  | ioFail => exact .raised

/-! ### The pipeline -/

theorem stalls_compressByte (b : Byte) (s : State) :
    Stalls s (compressByte b s) fun total => compressByte b (resetAt total s) := by
  refine .ite (fun _ => .raised) fun _ => .andThen (fun total => cuttable_writeBits 5 _ total s)
    (stalls_writeBits 5 _ s) fun _ t => .andThen (fun total => ?_)
    (.ite (fun _ => stalls_writeBits 8 b t) fun _ => .ok) fun _ _ => .ok
  exact .ite (fun _ => cuttable_writeBits 8 b total t) fun _ => .ok rfl rfl

theorem stalls_compressStep (s : State) : Stalls s (compressStep s) fun total => compressStep (resetAt total s) :=
  .andThen (fun total => cuttable_srcPull total s) (stalls_srcPull s) fun a t => by
    cases a with
    | ioFail => exact .raised
    | endOfStream => exact .andThen (fun total => cuttable_flushW total t) (stalls_flushW t) fun _ _ => .ok
    | byte b => exact stalls_compressByte b t

theorem stalls_acceptVersion (v : Code) (s : State) {r' : Nat → Run Unit} : Stalls s (acceptVersion v s) r' := by
  unfold acceptVersion
  split
  · exact .raised
  · exact .ok

theorem stalls_decompressBegin (s : State) :
    Stalls s (decompressBegin s) fun total => decompressBegin (resetAt total s) := by
  refine .of_host_eq (t := clearErrorAndAccs s)
    (.andThen (fun total => cuttable_readBits 5 total _) (stalls_readBits 5 _) fun r t => ?_) rfl
  cases r with
  | none => exact .raised
  | some v => exact stalls_acceptVersion v t

theorem stalls_emitLiteral (l : Byte) (s : State) :
    Stalls s (emitLiteral l s) fun total => emitLiteral l (resetAt total s) :=
  .andThen (fun total => cuttable_pushByte l total s) (stalls_pushByte l s) fun _ _ => .ok

theorem stalls_emitSymbol (c : Code) (s : State) :
    Stalls s (emitSymbol c s) fun total => emitSymbol c (resetAt total s) := by
  have hparams (total : Nat) : (resetAt total s).params = s.params := rfl
  simp only [emitSymbol, hparams]
  cases decodeCode s.params (c.setWidth 8) with
  | none => exact .raised
  | some d => exact stalls_emitLiteral d s

theorem stalls_terminalEscape (s : State) {r' : Nat → Run Unit} : Stalls s (terminalEscape s) r' := by
  unfold terminalEscape
  split
  · exact .ok
  · exact .raised

theorem stalls_escapeLiteral (s : State) : Stalls s (escapeLiteral s) fun total => escapeLiteral (resetAt total s) :=
  .andThen (fun total => cuttable_readBits 8 total s) (stalls_readBits 8 s) fun r t => by
    cases r with
    | none => exact stalls_terminalEscape t
    | some l => exact stalls_emitLiteral l t

theorem stalls_decompressStep (s : State) :
    Stalls s (decompressStep s) fun total => decompressStep (resetAt total s) :=
  .andThen (fun total => cuttable_readBits 5 total s) (stalls_readBits 5 s) fun r t => by
    cases r with
    | none => exact .ok
    | some c => exact .ite (fun _ => stalls_escapeLiteral t) fun _ => stalls_emitSymbol c t

section
variable {p : Phase} {body : State → Run Unit} (hcut : ∀ total s, Cuttable total s (body s) (body (resetAt total s)))
  (hbody : ∀ s, Stalls s (body s) fun total => body (resetAt total s))
include hcut hbody

/-- The loop of a pass, which under a reset has a larger bound on its rounds (log 5). -/
theorem stalls_passLoop {m : Nat} {n : Nat → Nat} (hmn : ∀ total, m ≤ n total) (s : State) :
    Stalls s (passLoop p body m s) fun total => passLoop p body (n total) (resetAt total s) := by
  induction m generalizing n s with
  | zero =>
    by_cases hs : s.phase = p
    · rw [passLoop_zero hs]
      exact .of_ne nofun
    · rw [passLoop_over 0 hs]
      exact .ok
  | succ m ih =>
    by_cases hs : s.phase = p
    · have hround (total : Nat) : passLoop p body (n total) (resetAt total s) =
          Machine.andThen (body (resetAt total s)) fun _ t => passLoop p body (n total - 1) t := by
        rw [← passLoop_succ (s := resetAt total s) _ hs, Nat.sub_add_cancel (Nat.one_le_of_lt (hmn total))]
      rw [passLoop_succ m hs, funext hround]
      exact .andThen (fun total => hcut total s) (hbody s) fun _ t => ih (fun total => Nat.le_sub_one_of_lt (hmn total)) t
    · rw [passLoop_over _ hs]
      exact .ok

/-- A pass is its first command and then its loop. -/
theorem stalls_pass {start : State → Run Unit}
    (hstartCut : ∀ total s, Cuttable total s (start s) (start (resetAt total s)))
    (hstart : ∀ s, Stalls s (start s) fun total => start (resetAt total s)) (s : State) :
    Stalls s (andThen (start s) fun _ t => passLoop p body (passRounds s) t)
      fun total => andThen (start (resetAt total s)) fun _ t => passLoop p body (passRounds (resetAt total s)) t := by
  intro hw
  have hrounds (total : Nat) : passRounds s ≤ passRounds (resetAt total s) := by
    simp [passRounds, resetAt, show s.host.resetAfter = none from hw]
  exact Stalls.andThen (fun total => hstartCut total s) (hstart s)
    (k' := fun total _ t => passLoop p body (passRounds (resetAt total s)) t)
    (fun _ t => stalls_passLoop hcut hbody hrounds t) hw

end

/-! ### Commands -/

theorem stalls_compressBegin (s : State) {r' : Nat → Run Unit} : Stalls s (compressBegin s) r' := by
  rw [compressBegin_eq]
  exact .ok

theorem stalls_pushCommand (sel : Sel) (bit : Bool) (s : State) {r' : Nat → Run Unit} :
    Stalls s (pushCommand sel bit s) r' := by
  unfold pushCommand
  split
  · exact .raised
  · exact .ok

/-- Every command waits for the host only in its pulls and pushes, so a reset finds it there (R260). -/
theorem stalls_bodyOf {i : Instr} {g : Group} (hg : groupOf i = some g) (s : State) :
    Stalls s (bodyOf i s) fun total => bodyOf i (resetAt total s) := by
  cases i with
  | accPush sel bit => exact stalls_pushCommand sel bit s
  | accIsFull sel => exact .ok
  | accClear sel => exact .ok
  | wrWrite5 value =>
    exact .andThen (fun total => cuttable_writeBits 5 value total s) (stalls_writeBits 5 value s) fun _ _ => .ok
  | wrWrite8 value =>
    exact .andThen (fun total => cuttable_writeBits 8 value total s) (stalls_writeBits 8 value s) fun _ _ => .ok
  | wrFlush => exact .andThen (fun total => cuttable_flushW total s) (stalls_flushW s) fun _ _ => .ok
  | rdRead5 => exact .andThen (fun total => cuttable_readBits 5 total s) (stalls_readBits 5 s) fun _ _ => .ok
  | rdRead8 => exact .andThen (fun total => cuttable_readBits 8 total s) (stalls_readBits 8 s) fun _ _ => .ok
  | tblEncode byte => exact .ok
  | tblDecode code => exact .ok
  | cBegin => exact stalls_compressBegin s
  | cStep => exact stalls_compressStep s
  | cPass =>
    exact stalls_pass (p := .compress) cuttable_compressStep stalls_compressStep cuttable_compressBegin
      (fun s => stalls_compressBegin s) s
  | dBegin => exact stalls_decompressBegin s
  | dStep => exact stalls_decompressStep s
  | dPass =>
    exact stalls_pass (p := .decompress) cuttable_decompressStep stalls_decompressStep cuttable_decompressBegin
      stalls_decompressBegin s
  | ctlIdle => exact .ok
  | _ => cases hg

/-- A word that waits for the host runs a command that does, with and without a reset to come. -/
theorem runWord_stalls {w : CmdWord} {s : State} (hw : HostWaits s) (h : runWord w s = .fault .hostSilent) :
    ∃ record, s.host.trace <+: record ∧ ∀ total, s.host.trace.length ≤ total →
      ∃ r, runWord w (resetAt total s) = settle r ∧ WaitAt total record r := by
  cases hd : decode (.command w) with
  | error e => cases (runWord_error s hd).symm.trans h
  | ok i =>
    obtain ⟨g, hg⟩ := groupOf_of_decode_command hd
    rw [runWord_ok s hd] at h
    cases hl : legal g s.phase with
    | false => cases (exec_not_legal hg hl).symm.trans h
    | true =>
      rw [exec_legal hg hl, settle_eq_fault] at h
      obtain ⟨record, hpre, hwait⟩ := stalls_bodyOf hg s hw h
      refine ⟨record, hpre, fun total hlen => ⟨_, ?_, hwait total hlen⟩⟩
      rw [runWord_ok _ hd, exec_legal (s := resetAt total s) hg hl]

theorem mapNext_eq_fault {f : State → State} {o : Host.Outcome State Fault Refusal} {x : Fault} :
    mapNext f o = .fault x ↔ o = .fault x := by
  cases o <;> simp [mapNext]

/-- Settles O59: the record of the waiting command is the pulls and pushes that the host did answer. -/
theorem resetEndsAWaitForASilentHost : Obligations.ResetEndsAWaitForASilentHost := by
  intro s w rest he hstep
  have hsilent := mapNext_eq_fault.mp ((step_command he).symm.trans hstep)
  obtain ⟨_, ⟨es, rfl⟩, hwait⟩ := runWord_stalls (s := acceptEvent rest none s) rfl hsilent
  have hcutStep (n : Nat) : ∃ r, WaitAt (s.host.trace.length + n) (s.host.trace ++ es) r ∧
      runWord w (acceptEvent rest (some n) s) = settle r ∧
      step { s with host := { s.host with events := .commandCutByReset w n :: rest } } = mapNext endByReset (settle r) := by
    obtain ⟨r, hr, hat⟩ := hwait (s.host.trace.length + n) (Nat.le_add_right _ _)
    rw [← acceptEvent_some] at hr
    exact ⟨r, hat, hr, (step_commandCutByReset rfl).trans (congrArg (mapNext endByReset) hr)⟩
  refine ⟨es, fun n hn => ?_, fun n hn => ?_⟩
  · obtain ⟨r, hat, hr, hcut⟩ := hcutStep n
    cases hat with
    | stuck late =>
      rw [List.length_append] at late
      omega
    | cut due trace =>
      obtain ⟨hparams, hevents, hresps, -⟩ := runWord_ioExtends hr
      exact ⟨_, hcut, rfl, rfl, rfl, rfl, rfl, hparams, hevents, hresps, trace.trans (List.take_length_add_append n)⟩
  · obtain ⟨r, hat, -, hcut⟩ := hcutStep n
    cases hat with
    | stuck late => exact hcut
    | cut due trace =>
      rw [List.length_append] at due
      omega

end Sys2Proof.Machine
end

section
/-! PROOFS. A pass whose host answers well for ever goes round for ever (70_reset_and_hazards.md R271, log 5). -/

namespace Sys2Proof.Machine

/-- The port gives only answers that are as `good` says, and never falls silent. -/
def GivesOnly {α : Type} (good : α → Prop) (a : Answers α) : Prop :=
  (∀ r ∈ a.queued, good r) ∧ ∃ r, a.after = some r ∧ good r

section
variable {α : Type} {good : α → Prop} {a : Answers α}

theorem GivesOnly.of_mem_takeAnswers (h : GivesOnly good a) (n : Nat) : ∀ x ∈ takeAnswers n a, good x := by
  obtain ⟨q, l⟩ := a
  obtain ⟨hq, r, rfl, hr⟩ := h
  intro x hx
  rw [takeAnswers_some, List.mem_append] at hx
  rcases hx with hx | hx
  · exact hq x (List.mem_of_mem_take hx)
  · exact List.eq_of_mem_replicate hx ▸ hr

theorem GivesOnly.drop (h : GivesOnly good a) (n : Nat) : GivesOnly good (dropAnswers n a) := by
  obtain ⟨hq, hafter⟩ := h
  exact ⟨fun r hr => hq r (List.mem_of_mem_drop hr), hafter⟩

end

/-- No reset is to come, and for ever the source gives good answers and the sink accepts. -/
structure GoodHost (good : SrcAnswer → Prop) (s : State) : Prop where
  waits : HostWaits s
  src : GivesOnly (fun r => good (srcAnswer r)) s.host.src
  snk : GivesOnly (fun q : SnkReply => q.fail = false) s.host.snk

section
variable {good : SrcAnswer → Prop} {φ ψ : State → Nat} {p : Phase} {body : State → Run Unit} {s t : State}
  {es : List IoEvent}

theorem GoodHost.allGood (h : GoodHost good s) (hes : IoDone es s t) : AllGood good es := by
  refine ⟨fun a ha => ?_, fun x hx => ?_⟩
  · rw [hes.pulled] at ha
    obtain ⟨r, hr, rfl⟩ := List.mem_map.mp ha
    exact h.src.of_mem_takeAnswers _ r hr
  · rw [hes.pushed] at hx
    obtain ⟨q, hq, rfl⟩ := List.mem_map.mp hx
    rw [h.snk.of_mem_takeAnswers _ q hq]
    rfl

theorem GoodHost.after (h : GoodHost good s) (hes : Logged es s t) : GoodHost good t where
  waits := hes.waits h.waits
  src := by
    rw [hes.src]
    exact h.src.drop _
  snk := by
    rw [hes.snk]
    exact h.snk.drop _

/-- With such a host a round neither raises, nor is cut off or stuck, nor ends the pass. -/
theorem Steady.round_goodHost (hsteady : Steady good φ ψ p body) (hp : s.phase = p) (h : GoodHost good s) :
    ∃ t, body s = .ok () t ∧ t.phase = p ∧ GoodHost good t := by
  have hlog := hsteady s hp
  cases hrun : body s with
  | ok a t =>
    rw [hrun] at hlog
    obtain ⟨es, hes, ⟨ht, -⟩ | ⟨-, hbad⟩⟩ := hlog
    · exact ⟨t, rfl, ht, h.after hes⟩
    · exact absurd (h.allGood hes.toIoDone) hbad
  | raised e t =>
    rw [hrun] at hlog
    obtain ⟨es, hes, hbad⟩ := hlog
    exact absurd (h.allGood hes) hbad
  | cut t =>
    rw [hrun] at hlog
    exact absurd h.waits hlog
  | stuck f =>
    rw [hrun] at hlog
    obtain ⟨-, ⟨r, hsrc, -⟩⟩ := h.src
    obtain ⟨-, ⟨q, hsnk, -⟩⟩ := h.snk
    simp [Logs, hsrc, hsnk] at hlog

theorem Steady.passLoop_goodHost (hsteady : Steady good φ ψ p body) (n : Nat) (hp : s.phase = p) (h : GoodHost good s) :
    passLoop p body n s = .stuck .passNeverEnds :=
  passLoop_never_ends (P := fun s => s.phase = p ∧ GoodHost good s) (fun _ ⟨hp, _⟩ => hp)
    (fun _ ⟨hp, h⟩ => hsteady.round_goodHost hp h) n ⟨hp, h⟩

end

/-- A source that gives these bytes, and the last of them for ever, and a sink that accepts. -/
theorem goodHost_of_bytes {good : SrcAnswer → Prop} {s : State} {xs : List Byte} {b : Byte} (hw : HostWaits s)
    (hs : SinkAccepts s) (hsrc : SourceGives s (xs.map .byte) (.byte b)) (hxs : ∀ x ∈ xs, good (.byte x))
    (hb : good (.byte b)) : GoodHost good s := by
  obtain ⟨hq, hlast⟩ := hsrc
  obtain ⟨r, hr, hrb⟩ := Option.map_eq_some_iff.mp hlast
  obtain ⟨hok, hafter⟩ := hs
  have hqueued : ∀ a ∈ s.host.src.queued.map srcAnswer, good a := hq ▸ List.forall_mem_map.mpr hxs
  have hlastGood : good (srcAnswer r) := hrb ▸ hb
  exact ⟨hw, ⟨List.forall_mem_map.mp hqueued, r, hr, hlastGood⟩, hok, Option.map_eq_some_iff.mp hafter⟩

/-- Settles O27: each round of the two passes goes on after the answers of such a host. -/
theorem neverEndingSource : Obligations.NeverEndingSource := by
  refine ⟨fun s xs b hl hw hs hsrc hxs hb => ?_, fun s xs b B rest hl hw hs hsrc hn hB => ?_⟩
  · have hgood : GoodHost IsAscii s := goodHost_of_bytes hw hs hsrc (fun x hx => ⟨x, rfl, hxs x hx⟩) ⟨b, rfl, hb⟩
    rw [exec_cPass hl, steady_compressStep.passLoop_goodHost (s := compressBegun s) _ rfl
      ⟨hgood.waits, hgood.src, hgood.snk⟩]
    rfl
  · have hgood : GoodHost IsByte s := goodHost_of_bytes hw hs hsrc (fun x _ => ⟨x, rfl⟩) ⟨b, rfl⟩
    have hbegin := decompressBegin_version hw hn hB
    have hlog := logs_decompressBegin s
    rw [hbegin] at hlog
    obtain ⟨es, hes, -⟩ := hlog
    rw [exec_legal (i := .dPass) rfl hl, bodyOf, decompressPass, hbegin, andThen_done,
      steady_decompressStep.passLoop_goodHost _ rfl (hgood.after hes)]
    rfl

end Sys2Proof.Machine
end

section
/-! PROOFS. A reset ends a pass that would never end (70_reset_and_hazards.md R260, R271, logs 5 and 6): such a pass does
more pulls and pushes than any number, so under a reset it comes to the one that is cut off. -/

namespace Sys2Proof.Machine

/-- The run is cut off where the record holds `total` pulls and pushes. -/
def CutOffAt (total : Nat) (r : Run Unit) : Prop := ∃ u, r = .cut u ∧ u.host.trace.length = total

/-- With a reset to come, a run that ends well without it is cut off, or the run after it is. -/
theorem CutAt.andThen_cutOffAt {total : Nat} {t : State} {r' : Run Unit} {k : Unit → State → Run Unit}
    (h : CutAt total (.ok () t) r')
    (hk : HostWaits t → t.host.trace.length ≤ total → CutOffAt total (k () (resetAt total t))) :
    CutOffAt total (andThen r' k) := by
  cases h with
  | ok waits fits => exact hk waits fits
  | cut record =>
    obtain ⟨hlen, htrace⟩ := record
    exact ⟨_, rfl, by rw [htrace, List.length_take_of_le hlen]⟩

/-- A run that can be stuck only on a port that falls silent does not go round for ever. -/
theorem Logs.ne_passNeverEnds {α : Type} {s : State} {r : Run α} {Ok : List IoEvent → α → State → Prop}
    {Bad : List IoEvent → Prop} (h : Logs s Ok Bad r) : r ≠ .stuck .passNeverEnds := by
  rintro rfl
  obtain ⟨hf, -⟩ := h
  cases hf

section
variable {p : Phase} {body : State → Run Unit} {good : SrcAnswer → Prop} {φ ψ : State → Nat} {s t : State}

/-- A pass whose rounds hold more pulls and pushes than `total` is cut off in one of them. -/
theorem Rounds.passLoop_cutOffAt {total n : Nat} (h : Rounds p body n s t)
    (hcut : ∀ s, Cuttable total s (body s) (body (resetAt total s))) (hw : HostWaits s)
    (hs : s.host.trace.length ≤ total) (ht : total < t.host.trace.length) :
    CutOffAt total (passLoop p body n (resetAt total s)) := by
  induction h with
  | zero phase => omega
  | @succ n s v t phase round rest ih =>
    have hround := (hcut s).cut hw hs
    rw [round] at hround
    rw [passLoop_succ (s := resetAt total s) n phase]
    exact hround.andThen_cutOffAt fun waits fits => ih waits fits ht

/-- The rounds of a pass take and write at least 5 bits each, so their record grows with their number. -/
theorem Steady.record_long (hsteady : Steady good φ ψ p body) {n k : Nat} (h : Rounds p body n s t) (hφ : φ s ≤ 8)
    (hψ : ψ s ≤ 8) (hn : k + 16 ≤ n) : s.host.trace.length + k < t.host.trace.length := by
  obtain ⟨es, hes, hlog⟩ := h.log hsteady
  have htaken := hlog.taken
  have hwritten := hlog.written
  rw [hes.trace, List.length_append, length_record es]
  omega

/-- A loop that goes round for ever goes through all its rounds, since no round does. -/
theorem Steady.rounds_of_never_ends (hsteady : Steady good φ ψ p body) {n : Nat}
    (h : passLoop p body n s = .stuck .passNeverEnds) : ∃ t, Rounds p body n s t := by
  obtain ⟨m, t, hrounds, rfl | hround⟩ := passLoop_eq_stuck h
  · exact ⟨t, hrounds⟩
  · exact absurd hround (hsteady t hrounds.phase_end).ne_passNeverEnds

theorem passRounds_resetAt {total : Nat} (hw : HostWaits s) :
    passRounds (resetAt total s) = passRounds s + (total - s.host.trace.length) := by
  simp [passRounds, resetAt, show s.host.resetAfter = none from hw]
  omega

/-- A pass that never ends is cut off where the reset is due, whatever it did before. -/
theorem Steady.pass_cutOffAt {start : State → Run Unit} {total : Nat} (hsteady : Steady good φ ψ p body)
    (hφ : ∀ t, φ t ≤ 8) (hψ : ∀ t, ψ t ≤ 8) (hstartCut : Cuttable total s (start s) (start (resetAt total s)))
    (hbodyCut : ∀ s, Cuttable total s (body s) (body (resetAt total s))) (hstart : start s ≠ .stuck .passNeverEnds)
    (hle : ∀ t, start s = .ok () t → passRounds t ≤ passRounds s) (hw : HostWaits s) (hs : s.host.trace.length ≤ total)
    (hnever : andThen (start s) (fun _ t => passLoop p body (passRounds s) t) = .stuck .passNeverEnds) :
    CutOffAt total (andThen (start (resetAt total s)) fun _ t => passLoop p body (passRounds (resetAt total s)) t) := by
  obtain ⟨a, t, hbegin, hloop⟩ := (andThen_eq_stuck.mp hnever).resolve_left hstart
  have hmore (m : Nat) (hm : passRounds s ≤ m) : passLoop p body m t = .stuck .passNeverEnds := by
    rw [hsteady.passLoop_eq (hφ t) (hψ t) ((hle t hbegin).trans hm),
      ← hsteady.passLoop_eq (hφ t) (hψ t) (hle t hbegin), hloop]
  obtain ⟨u, hrounds⟩ := hsteady.rounds_of_never_ends (hmore _ (Nat.le_add_right _ (total - s.host.trace.length)))
  have hlong : t.host.trace.length + (total - s.host.trace.length) < u.host.trace.length :=
    hsteady.record_long hrounds (hφ t) (hψ t) (by unfold passRounds; omega)
  rw [hbegin] at hstartCut
  have hgrows : s.host.trace.length ≤ t.host.trace.length := hstartCut.io.trace_extends.length_le
  rw [passRounds_resetAt hw]
  exact (hstartCut.cut hw hs).andThen_cutOffAt fun waits fits =>
    hrounds.passLoop_cutOffAt hbodyCut waits fits (by omega)

end

section
variable {s : State} {total : Nat} (hw : HostWaits s) (hs : s.host.trace.length ≤ total)
include hw hs

theorem compressPass_cutOffAt (h : compressPass s = .stuck .passNeverEnds) :
    CutOffAt total (compressPass (resetAt total s)) :=
  steady_compressStep.pass_cutOffAt (fun _ => Nat.zero_le 8) (fun _ => Nat.sub_le 8 _) (cuttable_compressBegin total s)
    (cuttable_compressStep total) (by rw [compressBegin_eq]; exact nofun) (fun _ => passRounds_of_compressBegin) hw hs h

theorem decompressPass_cutOffAt (h : decompressPass s = .stuck .passNeverEnds) :
    CutOffAt total (decompressPass (resetAt total s)) :=
  steady_decompressStep.pass_cutOffAt (fun t => Nat.le_of_lt_succ t.racc.count.isLt) (fun _ => Nat.zero_le 8)
    (cuttable_decompressBegin total s) (cuttable_decompressStep total) (logs_decompressBegin s).ne_passNeverEnds
    (fun _ => passRounds_of_decompressBegin) hw hs h

/-- Only the passes go round for ever. -/
theorem bodyOf_cutOffAt {i : Instr} {g : Group} (hg : groupOf i = some g) (h : bodyOf i s = .stuck .passNeverEnds) :
    CutOffAt total (bodyOf i (resetAt total s)) := by
  by_cases hc : i = .cPass
  · subst hc
    exact compressPass_cutOffAt hw hs h
  · by_cases hd : i = .dPass
    · subst hd
      exact decompressPass_cutOffAt hw hs h
    · exact absurd h (logsAny_bodyOf hg hc hd s).ne_passNeverEnds

/-- A word that never ends runs a pass that never ends, which under the reset is cut off. -/
theorem runWord_cutOffAt {w : CmdWord} (h : runWord w s = .fault .passNeverEnds) :
    ∃ r, runWord w (resetAt total s) = settle r ∧ CutOffAt total r := by
  cases hd : decode (.command w) with
  | error e => cases (runWord_error s hd).symm.trans h
  | ok i =>
    obtain ⟨g, hg⟩ := groupOf_of_decode_command hd
    rw [runWord_ok s hd] at h
    cases hl : legal g s.phase with
    | false => cases (exec_not_legal hg hl).symm.trans h
    | true =>
      rw [exec_legal hg hl, settle_eq_fault] at h
      refine ⟨_, ?_, bodyOf_cutOffAt hw hs hg h⟩
      rw [runWord_ok _ hd, exec_legal (s := resetAt total s) hg hl]

end

/-- Settles O12: under the reset the pass is cut off at its pull or push number n. -/
theorem resetEndsAPassThatNeverEnds : Obligations.ResetEndsAPassThatNeverEnds := by
  intro s w rest n he hstep
  have hnever := mapNext_eq_fault.mp ((step_command he).symm.trans hstep)
  obtain ⟨r, hr, u, rfl, hlen⟩ := runWord_cutOffAt (s := acceptEvent rest none s) (total := s.host.trace.length + n) rfl
    (Nat.le_add_right _ _) hnever
  rw [← acceptEvent_some] at hr
  obtain ⟨-, -, hresps, -⟩ := runWord_ioExtends hr
  exact ⟨_, (step_commandCutByReset rfl).trans (congrArg (mapNext endByReset) hr), rfl, rfl, rfl, rfl, rfl, hresps, hlen⟩

end Sys2Proof.Machine
end

section
/-! PROOFS. Within a pass no pull follows an End, and the pass is over after it (70_reset_and_hazards.md R269), however its
command ends. -/

namespace Sys2Proof.Machine

/-! ### What was pulled between two states -/

/-- Between `s` and `t` the record grew, and the answers to its pulls are as `P` says. -/
def PulledAs (P : List SrcAnswer → Prop) (s t : State) : Prop :=
  ∃ es, t.host.trace = s.host.trace ++ es ∧ P (pulledAnswers es)

/-- No pull was done. -/
abbrev NoPull (s t : State) : Prop := PulledAs (· = []) s t

/-- No pull was answered End. -/
abbrev NoEnd (s t : State) : Prop := PulledAs (.endOfStream ∉ ·) s t

/-- No pull but the last was answered End. -/
abbrev EndIsLast (s t : State) : Prop := PulledAs (fun as => .endOfStream ∉ as.dropLast) s t

section
variable {P Q R : List SrcAnswer → Prop} {s t u : State}

theorem PulledAs.trans (h : PulledAs P s t) (k : PulledAs Q t u) (hpqr : ∀ as bs, P as → Q bs → R (as ++ bs)) :
    PulledAs R s u := by
  obtain ⟨es, hes, h⟩ := h
  obtain ⟨fs, hfs, k⟩ := k
  exact ⟨es ++ fs, by rw [hfs, hes, List.append_assoc], by rw [pulledAnswers_append]; exact hpqr _ _ h k⟩

theorem PulledAs.mono (h : PulledAs P s t) (hpq : ∀ as, P as → Q as) : PulledAs Q s t := by
  obtain ⟨es, hes, h⟩ := h
  exact ⟨es, hes, hpq _ h⟩

theorem NoPull.of_host_eq (h : t.host = s.host) : NoPull s t := ⟨[], by rw [h, List.append_nil], rfl⟩

theorem NoPull.trans (h : NoPull s t) (k : NoPull t u) : NoPull s u :=
  PulledAs.trans h k fun _ _ h k => by rw [h, k]; rfl

theorem NoPull.noEnd (h : NoPull s t) : NoEnd s t := PulledAs.mono h fun _ h => by rw [h]; exact List.not_mem_nil

theorem NoEnd.endIsLast (h : NoEnd s t) : EndIsLast s t := PulledAs.mono h fun _ h => mt List.mem_of_mem_dropLast h

theorem NoEnd.trans (h : NoEnd s t) (k : NoEnd t u) : NoEnd s u :=
  PulledAs.trans h k fun _ _ h k => by rw [List.mem_append]; exact not_or.mpr ⟨h, k⟩

/-- Where no End came before, the pulls after may end in one. -/
theorem NoEnd.trans_endIsLast (h : NoEnd s t) (k : EndIsLast t u) : EndIsLast s u :=
  PulledAs.trans h k fun as bs h k => by
    rcases bs.eq_nil_or_concat with rfl | ⟨bs, b, rfl⟩
    · rw [List.append_nil]
      exact mt List.mem_of_mem_dropLast h
    · rw [List.concat_eq_append, List.dropLast_concat] at k
      rw [List.concat_eq_append, ← List.append_assoc, List.dropLast_concat, List.mem_append]
      exact not_or.mpr ⟨h, k⟩

/-- After an End nothing may be pulled. -/
theorem EndIsLast.trans_noPull (h : EndIsLast s t) (k : NoPull t u) : EndIsLast s u :=
  PulledAs.trans h k fun as bs h k => by rwa [k, List.append_nil]

end

/-! ### Runs that stop pulling at an End -/

/-- The run from `s` pulls nothing after an End; and where it pulled one and ends well, it ends as `ends` says. -/
def StopsAtEnd {α : Type} (s : State) (ends : α → State → Prop) (r : Run α) : Prop :=
  match r with
  | .ok a t => NoEnd s t ∨ (EndIsLast s t ∧ ends a t)
  | .raised _ t => EndIsLast s t
  | .cut t => EndIsLast s t
  | .stuck _ => True

section
variable {α β : Type} {s t : State} {r : Run α} {ends : α → State → Prop} {ends' : β → State → Prop}

/-- A run without pulls. -/
theorem StopsAtEnd.of_noPull (h : EndsIn (NoPull s) r) : StopsAtEnd s ends r := by
  cases r with
  | ok a t => exact .inl (NoPull.noEnd h)
  | raised e t => exact (NoPull.noEnd h).endIsLast
  | cut t => exact (NoPull.noEnd h).endIsLast
  | stuck f => trivial

theorem StopsAtEnd.done {ends : Unit → State → Prop} (h : t.host = s.host) : StopsAtEnd s ends (done t) :=
  .inl (NoPull.of_host_eq h).noEnd

theorem StopsAtEnd.raised {e : Raised} (h : t.host = s.host) : StopsAtEnd s ends (.raised e t) :=
  (NoPull.of_host_eq h).noEnd.endIsLast

/-- A run that begins after pulls none of which was answered End. -/
theorem StopsAtEnd.after (h : NoEnd s t) (hr : StopsAtEnd t ends r) : StopsAtEnd s ends r := by
  cases r with
  | ok a u => exact hr.imp h.trans fun ⟨hlast, hends⟩ => ⟨h.trans_endIsLast hlast, hends⟩
  | raised e u => exact h.trans_endIsLast hr
  | cut u => exact h.trans_endIsLast hr
  | stuck f => trivial

/-- A run after an End: it pulls nothing, and ends as `ends` says where it ends well. -/
theorem StopsAtEnd.after_end (h : EndIsLast s t) (hr : EndsIn (NoPull t) r) (hends : ∀ a u, r = .ok a u → ends a u) :
    StopsAtEnd s ends r := by
  cases r with
  | ok a u => exact .inr ⟨h.trans_noPull hr, hends a u rfl⟩
  | raised e u => exact h.trans_noPull hr
  | cut u => exact h.trans_noPull hr
  | stuck f => trivial

/-- Two runs in sequence: once the first one has pulled an End, the second one pulls nothing. -/
theorem StopsAtEnd.andThen {k : α → State → Run β} (hr : StopsAtEnd s ends r) (hk : ∀ a t, StopsAtEnd t ends' (k a t))
    (hend : ∀ a t, ends a t → EndsIn (NoPull t) (k a t) ∧ ∀ b u, k a t = .ok b u → ends' b u) :
    StopsAtEnd s ends' (andThen r k) := by
  cases r with
  | ok a t =>
    rcases hr with hno | ⟨hlast, hends⟩
    · exact (hk a t).after hno
    · obtain ⟨hnone, hends'⟩ := hend a t hends
      exact .after_end hlast hnone hends'
  | raised e t => exact hr
  | cut t => exact hr
  | stuck f => trivial

end

/-! ### The writer pulls nothing -/

theorem endsIn_noPull_andThen {α β : Type} {s : State} {r : Run α} {k : α → State → Run β} (hr : EndsIn (NoPull s) r)
    (hk : ∀ a t, EndsIn (NoPull t) (k a t)) : EndsIn (NoPull s) (andThen r k) :=
  endsIn_andThen hr (fun _ h => h) fun a t ht => endsIn_mono (hk a t) fun _ => NoPull.trans ht

theorem endsIn_noPull_done {s t : State} (h : t.host = s.host) : EndsIn (NoPull s) (done t) := NoPull.of_host_eq h

theorem noPull_pushByte (b : Byte) (s : State) : EndsIn (NoPull s) (pushByte b s) := by
  rcases sinkPush_cases b s with ⟨-, h⟩ | ⟨-, r, rest, -, h⟩ | ⟨-, -, h⟩ <;> rw [pushByte, h]
  · exact .of_host_eq rfl
  · cases r.fail <;> exact ⟨[.push b _], rfl, rfl⟩
  · trivial

theorem noPull_drainIfFull (s : State) : EndsIn (NoPull s) (drainIfFull s) := by
  unfold drainIfFull
  split
  · exact endsIn_noPull_andThen (noPull_pushByte _ s) fun _ _ => endsIn_noPull_done rfl
  · exact endsIn_noPull_done rfl

theorem noPull_writeLoop (bs : List Bool) (s : State) : EndsIn (NoPull s) (writeLoop bs s) := by
  induction bs generalizing s with
  | nil => exact endsIn_noPull_done rfl
  | cons b bs ih =>
    have hround : EndsIn (NoPull s) (drainIfFull (s.setWacc (pushBit s.wacc b))) := noPull_drainIfFull (s.setWacc _)
    exact endsIn_noPull_andThen hround fun _ t => ih t

theorem noPull_writeBits (w : Nat) (v : BitVec w) (s : State) : EndsIn (NoPull s) (writeBits w v s) :=
  endsIn_noPull_andThen (noPull_drainIfFull s) fun _ t => noPull_writeLoop _ t

theorem noPull_flushW (s : State) : EndsIn (NoPull s) (flushW s) := by
  unfold flushW
  split
  · exact endsIn_noPull_done rfl
  · refine endsIn_noPull_andThen ?_ fun _ t => endsIn_noPull_andThen ?_ fun _ _ => endsIn_noPull_done rfl
    · split
      · exact noPull_writeBits 5 ESC s
      · exact endsIn_noPull_done rfl
    · split
      · exact noPull_pushByte _ t
      · exact endsIn_noPull_done rfl

/-! ### Pulls and reads -/

theorem stopsAtEnd_srcPull (s : State) : StopsAtEnd s (fun a _ => a = .endOfStream) (srcPull s) := by
  rcases srcPull_cases s with ⟨-, h⟩ | ⟨-, r, rest, -, h⟩ | ⟨-, -, h⟩ <;> rw [h]
  · exact (NoPull.of_host_eq rfl).noEnd.endIsLast
  · by_cases ha : srcAnswer r = .endOfStream
    · exact .inr ⟨⟨[.pull (srcAnswer r)], rfl, List.not_mem_nil⟩, ha⟩
    · exact .inl ⟨[.pull (srcAnswer r)], rfl, fun hmem => ha (List.mem_singleton.mp hmem).symm⟩
  · trivial

/-- A read pulls an End only where it returns no value (42_reader.md R144). -/
theorem stopsAtEnd_readBits (w : Nat) (s : State) : StopsAtEnd s (fun r _ => r = none) (readBits w s) := by
  unfold readBits
  split
  · exact .inl (NoPull.of_host_eq rfl).noEnd
  · refine (stopsAtEnd_srcPull s).andThen (fun a t => ?_) ?_
    · cases a with
      | byte B => exact .inl (NoPull.of_host_eq rfl).noEnd
      | endOfStream => exact .inl (NoPull.of_host_eq rfl).noEnd
      | ioFail => exact .raised rfl
    · rintro _ t rfl
      refine ⟨NoPull.of_host_eq rfl, fun r u h => ?_⟩
      cases h
      rfl

/-! ### The pipeline -/

/-- A run of the pipeline, which after an End ends the pass (44_pipeline.md R191, R203, R204). -/
abbrev StopsPass (s : State) (r : Run Unit) : Prop := StopsAtEnd s (fun _ t => t.phase = .done) r

theorem stopsPass_compressBegin (s : State) : StopsPass s (compressBegin s) := by
  rw [compressBegin_eq]
  exact .done rfl

theorem noPull_compressByte (b : Byte) (s : State) : EndsIn (NoPull s) (compressByte b s) := by
  unfold compressByte
  split
  · exact NoPull.of_host_eq rfl
  · refine endsIn_noPull_andThen (noPull_writeBits 5 _ s) fun _ t => endsIn_noPull_andThen ?_ fun _ _ =>
      endsIn_noPull_done rfl
    split
    · exact noPull_writeBits 8 b t
    · exact endsIn_noPull_done rfl

theorem noPull_compressEnd (s : State) : EndsIn (NoPull s) (compressEnd s) :=
  endsIn_noPull_andThen (noPull_flushW s) fun _ _ => endsIn_noPull_done rfl

theorem compressEnd_phase {s t : State} (h : compressEnd s = .ok () t) : t.phase = .done := by
  obtain ⟨-, u, -, hu⟩ := andThen_eq_ok.mp h
  cases hu
  rfl

theorem stopsPass_compressStep (s : State) : StopsPass s (compressStep s) := by
  refine (stopsAtEnd_srcPull s).andThen (fun a t => ?_) ?_
  · cases a with
    | ioFail => exact .raised rfl
    | endOfStream => exact .of_noPull (noPull_compressEnd t)
    | byte b => exact .of_noPull (noPull_compressByte b t)
  · rintro _ t rfl
    exact ⟨noPull_compressEnd t, fun _ _ => compressEnd_phase⟩

theorem stopsPass_decompressBegin (s : State) : StopsPass s (decompressBegin s) := by
  have hread : StopsAtEnd s (fun r _ => r = none) (readBits 5 (clearErrorAndAccs s)) :=
    stopsAtEnd_readBits 5 (clearErrorAndAccs s)
  refine hread.andThen (fun r t => ?_) ?_
  · cases r with
    | none => exact .raised rfl
    | some v =>
      change StopsPass t (acceptVersion v t)
      unfold acceptVersion
      split
      · exact .raised rfl
      · exact .done rfl
  · rintro _ t rfl
    refine ⟨NoPull.of_host_eq rfl, fun _ u h => ?_⟩
    cases h

theorem noPull_emitLiteral (l : Byte) (s : State) : EndsIn (NoPull s) (emitLiteral l s) :=
  endsIn_noPull_andThen (noPull_pushByte l s) fun _ _ => endsIn_noPull_done rfl

theorem noPull_emitSymbol (c : Code) (s : State) : EndsIn (NoPull s) (emitSymbol c s) := by
  unfold emitSymbol
  split
  · exact NoPull.of_host_eq rfl
  · exact noPull_emitLiteral _ s

theorem noPull_terminalEscape (s : State) : EndsIn (NoPull s) (terminalEscape s) := by
  unfold terminalEscape
  split
  · exact endsIn_noPull_done rfl
  · exact NoPull.of_host_eq rfl

theorem terminalEscape_phase {s t : State} (h : terminalEscape s = .ok () t) : t.phase = .done := by
  unfold terminalEscape at h
  split at h
  · cases h
    rfl
  · cases h

theorem stopsPass_escapeLiteral (s : State) : StopsPass s (escapeLiteral s) := by
  refine (stopsAtEnd_readBits 8 s).andThen (fun r t => ?_) ?_
  · cases r with
    | none => exact .of_noPull (noPull_terminalEscape t)
    | some l => exact .of_noPull (noPull_emitLiteral l t)
  · rintro _ t rfl
    exact ⟨noPull_terminalEscape t, fun _ _ => terminalEscape_phase⟩

theorem stopsPass_decompressStep (s : State) : StopsPass s (decompressStep s) := by
  refine (stopsAtEnd_readBits 5 s).andThen (fun r t => ?_) ?_
  · cases r with
    | none => exact .done rfl
    | some c =>
      change StopsPass t (if c = ESC then escapeLiteral t else emitSymbol c t)
      split
      · exact stopsPass_escapeLiteral t
      · exact .of_noPull (noPull_emitSymbol c t)
  · rintro _ t rfl
    refine ⟨endsIn_noPull_done rfl, fun _ u h => ?_⟩
    cases h
    rfl

/-! ### The passes -/

section
variable {p : Phase} {body : State → Run Unit} (hp : p ≠ .done)
include hp

/-- Once PHASE is DONE the loop of a pass is over. -/
theorem passLoop_done {n : Nat} {t : State} (ht : t.phase = .done) :
    EndsIn (NoPull t) (passLoop p body n t) ∧ ∀ a u, passLoop p body n t = .ok a u → u.phase = .done := by
  rw [passLoop_over n (by rw [ht]; exact hp.symm)]
  refine ⟨endsIn_noPull_done rfl, fun _ u h => ?_⟩
  cases h
  exact ht

variable (hbody : ∀ s, StopsPass s (body s))
include hbody

theorem stopsPass_passLoop (n : Nat) (s : State) : StopsPass s (passLoop p body n s) := by
  by_cases hs : s.phase = p
  · induction n generalizing s with
    | zero =>
      rw [passLoop_zero hs]
      trivial
    | succ n ih =>
      rw [passLoop_succ n hs]
      refine (hbody s).andThen (fun _ t => ?_) fun _ t ht => passLoop_done hp ht
      by_cases ht : t.phase = p
      · exact ih t ht
      · rw [passLoop_over n ht]
        exact .done rfl
  · rw [passLoop_over n hs]
    exact .done rfl

theorem stopsPass_pass {start : State → Run Unit} (hstart : ∀ s, StopsPass s (start s)) (n : Nat) (s : State) :
    StopsPass s (andThen (start s) fun _ t => passLoop p body n t) :=
  (hstart s).andThen (fun _ t => stopsPass_passLoop hp hbody n t) fun _ _ ht => passLoop_done hp ht

end

/-- Every command of the pipeline (R269). -/
theorem stopsPass_bodyOf {i : Instr} (hi : i ∈ [Instr.cBegin, .cStep, .cPass, .dBegin, .dStep, .dPass]) (s : State) :
    StopsPass s (bodyOf i s) := by
  simp only [List.mem_cons, List.not_mem_nil, or_false] at hi
  rcases hi with rfl | rfl | rfl | rfl | rfl | rfl
  · exact stopsPass_compressBegin s
  · exact stopsPass_compressStep s
  · exact stopsPass_pass (p := .compress) nofun stopsPass_compressStep stopsPass_compressBegin _ s
  · exact stopsPass_decompressBegin s
  · exact stopsPass_decompressStep s
  · exact stopsPass_pass (p := .decompress) nofun stopsPass_decompressStep stopsPass_decompressBegin _ s

/-! ### The statement -/

/-- A command's outcome, however its body ends: no End, or nothing pulled after it and the pass over. -/
theorem StopsAtEnd.of_settle {s t : State} {r : Run Unit} (h : StopsPass s r) (ht : settle r = .next t) :
    NoEnd s t ∨ (EndIsLast s t ∧ t.phase ≠ .compress ∧ t.phase ≠ .decompress) := by
  cases r with
  | ok a u =>
    cases ht
    refine h.imp_right fun ⟨hlast, hdone⟩ => ⟨hlast, ?_⟩
    rw [hdone]
    exact ⟨nofun, nofun⟩
  | raised e u =>
    cases ht
    exact .inr ⟨h, nofun, nofun⟩
  | cut u =>
    cases ht
    exact .inr ⟨h, nofun, nofun⟩
  | stuck f => cases ht

/-- What the pulls between two states say of the record between them. -/
theorem PulledAs.of_trace {P : List SrcAnswer → Prop} {s t : State} {es : List IoEvent} (h : PulledAs P s t)
    (hes : t.host.trace = s.host.trace ++ es) : P (pulledAnswers es) := by
  obtain ⟨fs, hfs, h⟩ := h
  obtain rfl : fs = es := List.append_cancel_left (hfs.symm.trans hes)
  exact h

theorem rejectCommand_host (info : BitVec 8) (s : State) : (rejectCommand info s).host = s.host := by
  by_cases hp : s.phase = .error
  · rw [rejectCommand_error _ hp]
    rfl
  · rw [rejectCommand_raises _ hp]
    rfl

/-- A command of the pipeline, whether it runs or is rejected. -/
theorem exec_stopsAtEnd {i : Instr} {s t : State} (hi : i ∈ [Instr.cBegin, .cStep, .cPass, .dBegin, .dStep, .dPass])
    (h : exec i s = .next t) : NoEnd s t ∨ (EndIsLast s t ∧ t.phase ≠ .compress ∧ t.phase ≠ .decompress) := by
  obtain ⟨g, hg⟩ : ∃ g, groupOf i = some g := by
    simp only [List.mem_cons, List.not_mem_nil, or_false] at hi
    rcases hi with rfl | rfl | rfl | rfl | rfl | rfl <;> exact ⟨_, rfl⟩
  rw [exec_command hg] at h
  rcases guarded_next h with ⟨-, hrun⟩ | ⟨-, rfl⟩
  · exact (stopsPass_bodyOf hi s).of_settle hrun
  · exact .inl (NoPull.of_host_eq (rejectCommand_host 1#8 s)).noEnd

theorem pulledAnswers_end (xs ys : List IoEvent) :
    pulledAnswers (xs ++ .pull .endOfStream :: ys) = pulledAnswers xs ++ .endOfStream :: pulledAnswers ys := by
  rw [pulledAnswers_append]
  rfl

/-- Settles O28: the record holds an End, so nothing is pulled after it and the pass is over. -/
theorem noPullAfterEnd : Obligations.NoPullAfterEnd := by
  rintro i s t _ xs ys hi h htrace rfl
  rcases exec_stopsAtEnd hi h with hno | ⟨hlast, hphase⟩
  · have hnone := hno.of_trace htrace
    rw [pulledAnswers_end] at hnone
    exact absurd (List.mem_append_right _ List.mem_cons_self) hnone
  · refine ⟨?_, hphase⟩
    have hbefore := hlast.of_trace htrace
    rw [pulledAnswers_end] at hbefore
    rw [← length_pulledAnswers]
    by_contra hne
    refine hbefore ?_
    rw [List.dropLast_append_of_ne_nil (List.cons_ne_nil _ _),
      List.dropLast_cons_of_ne_nil (mt List.length_eq_zero_iff.mpr hne)]
    exact List.mem_append_right _ List.mem_cons_self

end Sys2Proof.Machine
end
